-- ==== Sys2Proof/Word.lean ====
section
/-! DEFINITION. The three word widths of the engine (00_scope.md R8): a byte (`CHAN_W`, and every byte of memory and
of the Transport), a half word (`COORD_W`, `HUE_W`) and a word (`CYC_W`, `ADDR_W`). -/

namespace Sys2Proof

/-- 8 bits: a colour channel, a byte of memory, a Transport byte, the orientation byte. -/
abbrev Byte := BitVec 8

/-- 16 bits: a coordinate, a length, an address-range half, the hue operand. -/
abbrev Half := BitVec 16

/-- 32 bits: a cycle length, an offset, a pixel count, a ColorSource byte address. -/
abbrev Word := BitVec 32

end Sys2Proof
end

