-- ==== Sys2Proof/Config.lean ====
section
/-! DEFINITION. The implementation parameters of 00_scope.md R7 to R12 and the free values.

The parameters that are data form the record `Params`; a machine's own values stand in `State.cfg`, so a statement
about every state is a statement about every parameter value (log 5). The one parameter that is a function
(`HSV2RGB`) and the free values are uninterpreted constants: they have no body, and nothing can be proved about what
they give. -/

namespace Sys2Proof

/-- A colour as three 8-bit channels. -/
structure RGB where
  r : Byte
  g : Byte
  b : Byte
  deriving DecidableEq, Repr, Inhabited

/-- The parameters of 00_scope.md R7, R9, R10, R11 that are data. -/
structure Params where
  /-- `DEV_WIDTH` (W), R7. -/
  devWidth : Nat
  /-- `DEV_HEIGHT` (H), R7. -/
  devHeight : Nat
  /-- `STAGE_MAX_PIXELS`, R7. -/
  stageMaxPixels : Nat
  /-- `CMD_CASET`, R9. -/
  cmdCaset : Byte
  /-- `CMD_PASET`, R9. -/
  cmdPaset : Byte
  /-- `CMD_RAMWR`, R9. -/
  cmdRamwr : Byte
  /-- `CMD_MADCTL`, R9. -/
  cmdMadctl : Byte
  /-- `CMD_PIXSET`, R9. -/
  cmdPixset : Byte
  /-- `PXLFMT16_CODE`, R9. -/
  pxlfmt16Code : Byte
  /-- `PXLFMT18_CODE`, R9. -/
  pxlfmt18Code : Byte
  /-- `ORIENT_DEFAULT`, R10. -/
  orientDefault : Byte
  /-- `XPOSE_FORCE_MIRROR`, R10. -/
  xposeForceMirror : Bool
  /-- `BULK_CORRUPTS`, R11. -/
  bulkCorrupts : Bool
  deriving DecidableEq, Repr

/-- The size of the staging buffer in bytes, `STAGE_MAX_PIXELS * 3` (10_state.md R33). -/
def Params.stageSize (p : Params) : Nat := p.stageMaxPixels * 3

/-- The parameter values `State.reset` takes: the spec's defaults (R7, R9, R10, and the opening of
95_test_vectors.md). DESIGN CHOICE (log 5): `ORIENT_DEFAULT` is OPEN in the spec and stands at 0x00 here, the first of
the two values its examples use. Unsafe for a claim about `State.reset` alone; a claim over every `cfg` is not touched. -/
def Params.default : Params where
  devWidth := 240
  devHeight := 320
  stageMaxPixels := 240 * 320
  cmdCaset := 0x2A
  cmdPaset := 0x2B
  cmdRamwr := 0x2C
  cmdMadctl := 0x36
  cmdPixset := 0x3A
  pxlfmt16Code := 0x55
  pxlfmt18Code := 0x66
  orientDefault := 0x00
  xposeForceMirror := false
  bulkCorrupts := false

/-- The function parameter `HSV2RGB` of 00_scope.md R12 and 41_color_codec.md R116: total, depending on its three
operands alone, and nothing else is known of it (log 12). -/
opaque Config.hsv2rgb : Half → Byte → Byte → RGB

/-- The `n`-th free byte: what a corrupting bulk transfer leaves in a byte of the buffer it sent (20_memory.md R58),
and what a byte of the staging buffer holds at reset and after a draw (10_state.md R33). No value of it is known (logs 7, 8). -/
opaque Config.freeByte : Nat → Byte

/-- The `n`-th free half word: a 16-bit latch register that the accepted request does not name
(30_encoding.md R86, log 6). -/
opaque Config.freeHalf : Nat → Half

/-- The `n`-th free word: a 32-bit latch register that the accepted request does not name
(30_encoding.md R86, log 6). -/
opaque Config.freeWord : Nat → Word

/-- The bits that register number `r` holds after reset number `k` where the spec leaves its reset value unspecified:
93_implementation_defined.md U11, "`any value` chosen at reset" (log 13). -/
opaque Config.resetBits : Nat → Nat → Word

end Sys2Proof
end

