-- ==== Sys2Proof/Syntax.lean ====
section
/-! DEFINITION. Abstract syntax: the Transport alphabet (00_scope.md R16), what the engine is handed
(30_encoding.md R80, R89) and the instructions, one constructor per row of spec/opcode_table.json. -/

namespace Sys2Proof

/-- The kind of a DrawRequest (10_state.md R26). -/
inductive Kind where
  | pixel
  | hline
  | vline
  | fill
  deriving DecidableEq, Repr, Inhabited

/-- The source's PixelEncoding, "one of {16-bit, 18-bit}" (00_scope.md, glossary). -/
inductive PixEnc where
  | bits16
  | bits18
  deriving DecidableEq, Repr, Inhabited

/-- One event of the Transport trace (00_scope.md R16). -/
inductive Event where
  /-- Select the device and configure bus parameters. -/
  | sel
  /-- Deselect. -/
  | desel
  /-- One command byte. -/
  | cmd (b : Byte)
  /-- One data byte. -/
  | dat (b : Byte)
  deriving DecidableEq, Repr, Inhabited

/-- An encoded instruction: a request's descriptor bytes (30_encoding.md R80), byte 0 first, or a device packet's
Transport events (30_encoding.md R89), `Sel` first. -/
inductive Wire where
  | descriptor (bytes : List Byte)
  | bracket (events : List Event)
  deriving DecidableEq, Repr, Inhabited

/-- The instructions. The first fourteen are the requests of 30_encoding.md R84, their operands in the order of R98;
the last six are the device packets of 30_encoding.md R90. -/
inductive Instr where
  /-- SETFMT, R120: `code` is `A[1:0]`. -/
  | setfmt (code : BitVec 2)
  /-- SETXFER, R121: `bulk` is `A[0]`. -/
  | setxfer (bulk : Bool)
  /-- ENCODE, R112. -/
  | encode (r g b : Byte)
  /-- ENCHSV, R113. -/
  | enchsv (hue : Half) (sat val : Byte)
  /-- CURNORM, R131. -/
  | curnorm (l o : Word)
  /-- CURRUN, R132. -/
  | currun (l o remaining : Word)
  /-- AWPIXEL, R142. -/
  | awpixel (x0 y0 : Half)
  /-- AWHLINE, R143: `rev` is the flag RH. -/
  | awhline (x0 y0 len : Half) (rev : Bool)
  /-- AWVLINE, R144: `rev` is the flag RV. -/
  | awvline (x0 y0 len : Half) (rev : Bool)
  /-- AWFILL, R145: `xpose` is the flag TP. -/
  | awfill (x0 y0 x1 y1 : Half) (xpose : Bool)
  /-- DRAWPIXEL, R171. -/
  | drawpixel (x0 y0 : Half) (base l o : Word)
  /-- DRAWHLINE, R172: `rev` is the flag RH. -/
  | drawhline (x0 y0 len : Half) (base l o : Word) (rev : Bool)
  /-- DRAWVLINE, R173: `rev` is the flag RV. -/
  | drawvline (x0 y0 len : Half) (base l o : Word) (rev : Bool)
  /-- DRAWFILL, R174: `xpose` is the flag TP. -/
  | drawfill (x0 y0 x1 y1 : Half) (base l o : Word) (xpose : Bool)
  /-- CASET, "Set column address range", R91. -/
  | caset (first last : Half)
  /-- PASET, "Set row address range", R91. -/
  | paset (first last : Half)
  /-- MADCTL, "Addressing-direction / orientation register", R92. -/
  | madctl (orient : Byte)
  /-- RAMWR, "Enable RAM write", R93. -/
  | ramwr
  /-- DATA, "Data burst", R94. -/
  | data (bytes : List Byte)
  /-- PIXSET, "Set pixel format", R95. -/
  | pixset (enc : PixEnc)
  deriving DecidableEq, Repr, Inhabited

/-- True of the fourteen requests, false of the six packets. -/
def Instr.isRequest : Instr → Bool
  | .setfmt _ => true
  | .setxfer _ => true
  | .encode _ _ _ => true
  | .enchsv _ _ _ => true
  | .curnorm _ _ => true
  | .currun _ _ _ => true
  | .awpixel _ _ => true
  | .awhline _ _ _ _ => true
  | .awvline _ _ _ _ => true
  | .awfill _ _ _ _ _ => true
  | .drawpixel _ _ _ _ _ => true
  | .drawhline _ _ _ _ _ _ _ => true
  | .drawvline _ _ _ _ _ _ _ => true
  | .drawfill _ _ _ _ _ _ _ _ => true
  | .caset _ _ => false
  | .paset _ _ => false
  | .madctl _ => false
  | .ramwr => false
  | .data _ => false
  | .pixset _ => false

end Sys2Proof
end

