-- ==== Sys2Proof/WellFormed.lean ====
section
/-! DEFINITION. What makes a parameter record and an instruction well formed. -/

namespace Sys2Proof

/-- The requirements of 00_scope.md R7 (extents) and R9 (distinct command bytes, distinct format codes). -/
def Params.wf (p : Params) : Bool :=
  decide (1 ≤ p.devWidth) && decide (p.devWidth ≤ 65536) &&
  decide (1 ≤ p.devHeight) && decide (p.devHeight ≤ 65536) &&
  decide (p.devWidth * p.devHeight < 2 ^ 32) &&
  decide ([p.cmdCaset, p.cmdPaset, p.cmdRamwr, p.cmdMadctl, p.cmdPixset].Nodup) &&
  decide (p.pxlfmt16Code ≠ p.pxlfmt18Code)

/-- An instruction is well formed when its operands are ones the encoding admits: SETFMT's code is 1 or 2
(30_encoding.md R87), and a data burst is never empty (30_encoding.md R94). The widths of the other operands are their
types. -/
def Instr.wf : Instr → Bool
  | .setfmt code => decide (code = 1 ∨ code = 2)
  | .setxfer _ => true
  | .encode _ _ _ => true
  | .enchsv _ _ _ => true
  | .curnorm _ _ => true
  | .currun _ _ _ => true
  | .awpixel _ _ => true
  | .awhline _ _ _ _ => true
  | .awvline _ _ _ _ => true
  | .awfill _ _ _ _ _ => true
  | .drawpixel _ _ _ _ _ => true
  | .drawhline _ _ _ _ _ _ _ => true
  | .drawvline _ _ _ _ _ _ _ => true
  | .drawfill _ _ _ _ _ _ _ _ => true
  | .caset _ _ => true
  | .paset _ _ => true
  | .madctl _ => true
  | .ramwr => true
  | .data bytes => !bytes.isEmpty
  | .pixset _ => true

end Sys2Proof
end

