-- ==== Sys2Proof/Decode.lean ====
section
/-! DEFINITION. The decoder, total on any descriptor bytes and on any Transport events, and after it the encoder
(30_encoding.md). Byte order is settled here, once: big-endian everywhere (20_memory.md R53). -/

namespace Sys2Proof

/-! ### Bytes of a half word and of a word (00_scope.md R14) -/

/-- `hi(v) = v[15:8]`. -/
def hi (v : Half) : Byte := (v >>> 8).setWidth 8

/-- `lo(v) = v[7:0]`. -/
def lo (v : Half) : Byte := v.setWidth 8

/-- `be16(v) = [hi(v), lo(v)]`. -/
def be16 (v : Half) : List Byte := [hi v, lo v]

/-- The four bytes of a word, the more significant first. -/
def be32 (v : Word) : List Byte :=
  [(v >>> 24).setWidth 8, (v >>> 16).setWidth 8, (v >>> 8).setWidth 8, v.setWidth 8]

/-- The half word whose bytes are `h`, `l`, big-endian. -/
def join16 (h l : Byte) : Half := (h.setWidth 16 <<< 8) ||| l.setWidth 16

/-- The word whose bytes are `a`, `b`, `c`, `d`, big-endian. -/
def join32 (a b c d : Byte) : Word :=
  (a.setWidth 32 <<< 24) ||| (b.setWidth 32 <<< 16) ||| (c.setWidth 32 <<< 8) ||| d.setWidth 32

/-! ### Rejections -/

/-- Why the decoder refuses. The first four are the reserved encodings of a descriptor (30_encoding.md R85); the rest
say that a bracket is none of the six packets (30_encoding.md R90, R97). -/
inductive Reject where
  /-- The descriptor has not exactly 22 bytes (R80). -/
  | length
  /-- No row of the opcode map matches `OP:FLAGS` (R84, R86 (2)). -/
  | opcodeOrFlags
  /-- A "must be 0" operand part is not 0 (R82, R86 (3)). -/
  | operandBits
  /-- SETFMT code 0 or 3 (R87). -/
  | formatCode
  /-- The events are not one bracket with a packet's bytes in it. -/
  | notOneBracket
  /-- The command byte is none of the five. -/
  | commandByte
  /-- The payload has not the length the command fixes (R97). -/
  | payloadLength
  /-- The PIXSET payload is neither of the two format codes (R95). -/
  | pixelFormatCode
  deriving DecidableEq, Repr

/-- True of the reasons that concern a descriptor. -/
def Reject.ofDescriptor : Reject → Bool
  | .length => true
  | .opcodeOrFlags => true
  | .operandBits => true
  | .formatCode => true
  | .notOneBracket => false
  | .commandByte => false
  | .payloadLength => false
  | .pixelFormatCode => false

/-! ### Request descriptors (30_encoding.md R80 to R88) -/

/-- The fields of a descriptor, R80. -/
structure Fields where
  op : Byte
  flags : Byte
  a : Half
  b : Half
  c : Half
  d : Half
  p : Word
  q : Word
  s : Word
  deriving DecidableEq, Repr

/-- The fields of 22 bytes, R80: byte 0 is `OP`, multi-byte fields are big-endian. -/
def fieldsOfBytes : List Byte → Option Fields
  | [b0, b1, b2, b3, b4, b5, b6, b7, b8, b9, b10, b11, b12, b13, b14, b15, b16, b17, b18, b19, b20, b21] =>
    some { op := b0, flags := b1, a := join16 b2 b3, b := join16 b4 b5, c := join16 b6 b7, d := join16 b8 b9
           p := join32 b10 b11 b12 b13, q := join32 b14 b15 b16 b17, s := join32 b18 b19 b20 b21 }
  | _ => none

/-- The 22 bytes of the fields, R80. -/
def bytesOfFields (f : Fields) : List Byte :=
  [f.op, f.flags] ++ be16 f.a ++ be16 f.b ++ be16 f.c ++ be16 f.d ++ be32 f.p ++ be32 f.q ++ be32 f.s

/-- The fourteen operations of the opcode map, R84. -/
inductive Opcode where
  | setfmt
  | setxfer
  | encode
  | enchsv
  | curnorm
  | currun
  | awpixel
  | awhline
  | awvline
  | awfill
  | drawpixel
  | drawhline
  | drawvline
  | drawfill
  deriving DecidableEq, Repr

/-- One row of the opcode map: `match` and `mask` over `OP:FLAGS`, `OP` in bits 15:8. -/
structure OpcodeRow where
  op : Opcode
  pattern : Half
  mask : Half
  deriving DecidableEq, Repr

/-- The complete opcode map, R84, row by row. -/
def opcodeMap : List OpcodeRow :=
  [ ⟨.setfmt, 0x0100, 0xFFFF⟩, ⟨.setxfer, 0x0200, 0xFFFF⟩,
    ⟨.encode, 0x1000, 0xFFFF⟩, ⟨.enchsv, 0x1100, 0xFFFF⟩,
    ⟨.curnorm, 0x2000, 0xFFFF⟩, ⟨.currun, 0x2100, 0xFFFF⟩,
    ⟨.awpixel, 0x3000, 0xFFFF⟩, ⟨.awhline, 0x3100, 0xFFFE⟩,
    ⟨.awvline, 0x3200, 0xFFFD⟩, ⟨.awfill, 0x3300, 0xFFFB⟩ ] ++
  [ ⟨.drawpixel, 0x4000, 0xFFFF⟩, ⟨.drawhline, 0x4100, 0xFFFE⟩,
    ⟨.drawvline, 0x4200, 0xFFFD⟩, ⟨.drawfill, 0x4300, 0xFFFB⟩ ]

/-- R86 (2): the row with `(value & mask) == match`. -/
def lookupOpcode (opFlags : Half) : Option Opcode :=
  (opcodeMap.find? fun r => opFlags &&& r.mask == r.pattern).map OpcodeRow.op

/-- R82, R86 (3), R87: the operands of the matched request, its "must be 0" parts checked. A field the request does
not name is ignored (R82). -/
def instrOfFields (op : Opcode) (f : Fields) : Except Reject Instr :=
  match op with
  | .setfmt =>
    if f.a >>> 2 ≠ 0 then .error .operandBits
    else if f.a.setWidth 2 = 1 ∨ f.a.setWidth 2 = 2 then .ok (.setfmt (f.a.setWidth 2))
    else .error .formatCode
  | .setxfer => if f.a >>> 1 ≠ 0 then .error .operandBits else .ok (.setxfer (f.a.getLsbD 0))
  | .encode =>
    if hi f.a ≠ 0 ∨ hi f.b ≠ 0 ∨ hi f.c ≠ 0 then .error .operandBits
    else .ok (.encode (lo f.a) (lo f.b) (lo f.c))
  | .enchsv => if hi f.b ≠ 0 ∨ hi f.c ≠ 0 then .error .operandBits else .ok (.enchsv f.a (lo f.b) (lo f.c))
  | .curnorm => .ok (.curnorm f.q f.s)
  | .currun => .ok (.currun f.q f.s f.p)
  | .awpixel => .ok (.awpixel f.a f.b)
  | .awhline => .ok (.awhline f.a f.b f.c (f.flags.getLsbD 0))
  | .awvline => .ok (.awvline f.a f.b f.c (f.flags.getLsbD 1))
  | .awfill => .ok (.awfill f.a f.b f.c f.d (f.flags.getLsbD 2))
  | .drawpixel => .ok (.drawpixel f.a f.b f.p f.q f.s)
  | .drawhline => .ok (.drawhline f.a f.b f.c f.p f.q f.s (f.flags.getLsbD 0))
  | .drawvline => .ok (.drawvline f.a f.b f.c f.p f.q f.s (f.flags.getLsbD 1))
  | .drawfill => .ok (.drawfill f.a f.b f.c f.d f.p f.q f.s (f.flags.getLsbD 2))

/-- A descriptor's instruction: the fields, the opcode map, the operand parts, in the order of R86. -/
def decodeDescriptor (bytes : List Byte) : Except Reject Instr :=
  match fieldsOfBytes bytes with
  | none => .error .length
  | some f =>
    match lookupOpcode (join16 f.op f.flags) with
    | none => .error .opcodeOrFlags
    | some op => instrOfFields op f

/-! ### Device packets (30_encoding.md R89 to R97) -/

/-- `Packet(c, p)`, R89. -/
def packet (c : Byte) (payload : List Byte) : List Event :=
  .sel :: .cmd c :: (payload.map .dat ++ [.desel])

/-- The data burst of a draw, R89: one bracket, no command byte. -/
def burst (d : List Byte) : List Event := .sel :: (d.map .dat ++ [.desel])

/-- The part of a trace read so far, from its end: the inner events of a bracket whose `Sel` is still to come, if
one is open, and the complete brackets after it. -/
structure BracketScan where
  opened : Option (List Event)
  done : List (List Event)
  deriving DecidableEq, Repr

/-- One event before what has been scanned. `none` where brackets nest, overlap, or an event stands outside one. -/
def BracketScan.before (e : Event) (b : BracketScan) : Option BracketScan :=
  match e, b.opened with
  | .desel, none => some { b with opened := some [] }
  | .desel, some _ => none
  | .sel, none => none
  | .sel, some inner => some { opened := none, done := inner :: b.done }
  | .cmd _, none => none
  | .cmd c, some inner => some { b with opened := some (.cmd c :: inner) }
  | .dat _, none => none
  | .dat d, some inner => some { b with opened := some (.dat d :: inner) }

/-- The scan of a whole trace. -/
def scanBrackets : List Event → Option BracketScan
  | [] => some { opened := none, done := [] }
  | e :: es => (scanBrackets es).bind (BracketScan.before e)

/-- The brackets of a trace in order, each as the events between its `Sel` and its `Desel` (20_memory.md R63: they
never nest); `none` if the trace is not a sequence of complete brackets. -/
def brackets (t : List Event) : Option (List (List Event)) :=
  match scanBrackets t with
  | some { opened := none, done := bs } => some bs
  | _ => none

/-- The bytes of a sequence of data events. -/
def datBytes : List Event → Option (List Byte)
  | [] => some []
  | .dat b :: es => (datBytes es).map (b :: ·)
  | _ :: _ => none

/-- How many payload bytes the command byte fixes, R97: 4, 4, 1, 0, 1 for CASET, PASET, MADCTL, RAMWR, PIXSET. -/
def payloadLength (p : Params) (c : Byte) : Option Nat :=
  if c = p.cmdCaset then some 4
  else if c = p.cmdPaset then some 4
  else if c = p.cmdMadctl then some 1
  else if c = p.cmdRamwr then some 0
  else if c = p.cmdPixset then some 1
  else none

/-- The payload byte of PIXSET, R95. -/
def PixEnc.payload (p : Params) : PixEnc → Byte
  | .bits16 => p.pxlfmt16Code
  | .bits18 => p.pxlfmt18Code

/-- The packet with command byte `c` and this payload, R90, R97. -/
def packetOfBytes (p : Params) (c : Byte) (payload : List Byte) : Except Reject Instr :=
  if c = p.cmdCaset then
    match payload with
    | [a, b, d, e] => .ok (.caset (join16 a b) (join16 d e))
    | _ => .error .payloadLength
  else if c = p.cmdPaset then
    match payload with
    | [a, b, d, e] => .ok (.paset (join16 a b) (join16 d e))
    | _ => .error .payloadLength
  else if c = p.cmdMadctl then
    match payload with
    | [a] => .ok (.madctl a)
    | _ => .error .payloadLength
  else if c = p.cmdRamwr then
    match payload with
    | [] => .ok .ramwr
    | _ => .error .payloadLength
  else if c = p.cmdPixset then
    match payload with
    | [a] =>
      if a = p.pxlfmt16Code then .ok (.pixset .bits16)
      else if a = p.pxlfmt18Code then .ok (.pixset .bits18)
      else .error .pixelFormatCode
    | _ => .error .payloadLength
  else .error .commandByte

/-- R97: the packet of one bracket's inner events. A first `Cmd(c)` names the packet; a first `Dat` makes it a DATA
burst. -/
def decodeInner (p : Params) (inner : List Event) : Except Reject Instr :=
  match inner with
  | .cmd c :: rest =>
    match datBytes rest with
    | none => .error .notOneBracket
    | some payload => packetOfBytes p c payload
  | .dat b :: rest =>
    match datBytes rest with
    | none => .error .notOneBracket
    | some bs => .ok (.data (b :: bs))
  | _ => .error .notOneBracket

/-- The packet of a sequence of events that is one bracket. -/
def decodeBracket (p : Params) (events : List Event) : Except Reject Instr :=
  match brackets events with
  | some [inner] => decodeInner p inner
  | _ => .error .notOneBracket

/-- R97: the packets of a whole trace, in order; `none` if some part of it is no packet. -/
def packetsOfTrace (p : Params) (t : List Event) : Option (List Instr) :=
  (brackets t).bind fun bs => bs.mapM fun inner => (decodeInner p inner).toOption

/-! ### The decoder and the encoder -/

/-- The instruction that an encoded form stands for, or why it stands for none. -/
def decode (p : Params) : Wire → Except Reject Instr
  | .descriptor bytes => decodeDescriptor bytes
  | .bracket events => decodeBracket p events

/-- The fields of a request with every field it does not name 0 (30_encoding.md R98: "The assembler writes 0 in every
field a request does not name"). -/
def zeroFields (op flags : Byte) : Fields :=
  { op, flags, a := 0, b := 0, c := 0, d := 0, p := 0, q := 0, s := 0 }

/-- The FLAGS byte with the one flag a request takes (30_encoding.md R81): `flag` if it is set, else 0. -/
def flagByte (flag : Byte) (isSet : Bool) : Byte := if isSet then flag else 0

/-- The encoding of an instruction: operand assignment by 30_encoding.md R82, OP and FLAGS by R84 and R81, packets by
R89 to R95. -/
def encode (p : Params) : Instr → Wire
  | .setfmt code => .descriptor (bytesOfFields { zeroFields 0x01 0 with a := code.setWidth 16 })
  | .setxfer bulk => .descriptor (bytesOfFields { zeroFields 0x02 0 with a := if bulk then 1 else 0 })
  | .encode r g b =>
    .descriptor (bytesOfFields
      { zeroFields 0x10 0 with a := r.setWidth 16, b := g.setWidth 16, c := b.setWidth 16 })
  | .enchsv h s v =>
    .descriptor (bytesOfFields { zeroFields 0x11 0 with a := h, b := s.setWidth 16, c := v.setWidth 16 })
  | .curnorm l o => .descriptor (bytesOfFields { zeroFields 0x20 0 with q := l, s := o })
  | .currun l o rem => .descriptor (bytesOfFields { zeroFields 0x21 0 with p := rem, q := l, s := o })
  | .awpixel x0 y0 => .descriptor (bytesOfFields { zeroFields 0x30 0 with a := x0, b := y0 })
  | .awhline x0 y0 len rev =>
    .descriptor (bytesOfFields { zeroFields 0x31 (flagByte 1 rev) with a := x0, b := y0, c := len })
  | .awvline x0 y0 len rev =>
    .descriptor (bytesOfFields { zeroFields 0x32 (flagByte 2 rev) with a := x0, b := y0, c := len })
  | .awfill x0 y0 x1 y1 xpose =>
    .descriptor (bytesOfFields { zeroFields 0x33 (flagByte 4 xpose) with a := x0, b := y0, c := x1, d := y1 })
  | .drawpixel x0 y0 base l o =>
    .descriptor (bytesOfFields { zeroFields 0x40 0 with a := x0, b := y0, p := base, q := l, s := o })
  | .drawhline x0 y0 len base l o rev =>
    .descriptor (bytesOfFields
      { zeroFields 0x41 (flagByte 1 rev) with a := x0, b := y0, c := len, p := base, q := l, s := o })
  | .drawvline x0 y0 len base l o rev =>
    .descriptor (bytesOfFields
      { zeroFields 0x42 (flagByte 2 rev) with a := x0, b := y0, c := len, p := base, q := l, s := o })
  | .drawfill x0 y0 x1 y1 base l o xpose =>
    .descriptor (bytesOfFields
      { zeroFields 0x43 (flagByte 4 xpose) with
        a := x0, b := y0, c := x1, d := y1, p := base, q := l, s := o })
  | .caset first last => .bracket (packet p.cmdCaset (be16 first ++ be16 last))
  | .paset first last => .bracket (packet p.cmdPaset (be16 first ++ be16 last))
  | .madctl orient => .bracket (packet p.cmdMadctl [orient])
  | .ramwr => .bracket (packet p.cmdRamwr [])
  | .data bytes => .bracket (burst bytes)
  | .pixset enc => .bracket (packet p.cmdPixset [enc.payload p])

/-! ### The opcode table's own numbering of bits -/

/-- The encoded instruction whose table bits are `w` (spec/opcode_table.json), every bit above `nbits` 0 (log 16).
A request row numbers the bits of 16-bit words, `OP:FLAGS` the first, each word's more significant byte first (R80): 11
words make the 22 bytes. A packet row has one word of 8 bits, the command byte; the payload is as many zero bytes as
the command fixes. The DATA row has no word: it stands for a burst of one zero byte. -/
def tableWire (p : Params) (nbits w : Nat) : Wire :=
  if nbits = 0 then .bracket (burst [0])
  else if nbits ≤ 8 then
    .bracket (packet (BitVec.ofNat 8 w)
      (List.replicate ((payloadLength p (BitVec.ofNat 8 w)).getD 0) 0))
  else .descriptor ((List.range 11).flatMap fun k => be16 (BitVec.ofNat 16 (w / 2 ^ (16 * k))))

/-- The instruction the decoder reads from an opcode-table word, with the table's own command bytes
(`Params.default`). -/
def decodeTableWord (nbits w : Nat) : Option Instr :=
  (decode Params.default (tableWire Params.default nbits w)).toOption

/-! ### Assembler syntax (30_encoding.md R98) -/

/-- The optional trailing keyword of R98. -/
def asmFlag (word : String) (isSet : Bool) : String := if isSet then ", " ++ word else ""

/-- Operands separated by commas. -/
def asmOperands (ns : List Nat) : String := String.intercalate ", " (ns.map toString)

/-- A ColorSource reference, cycle length and offset: `@base, L, O`. -/
def asmPattern (base l o : Word) : String := ", @" ++ asmOperands [base.toNat, l.toNat, o.toNat]

/-- A request in the syntax of R98, numbers in decimal; a packet has no textual syntax there and prints as its
label. -/
def Instr.asm : Instr → String
  | .setfmt code => "SETFMT " ++ (if code = 1 then "16" else "18")
  | .setxfer bulk => "SETXFER " ++ (if bulk then "BULK" else "BYTE")
  | .encode r g b => "ENCODE " ++ asmOperands [r.toNat, g.toNat, b.toNat]
  | .enchsv h s v => "ENCHSV " ++ asmOperands [h.toNat, s.toNat, v.toNat]
  | .curnorm l o => "CURNORM " ++ asmOperands [l.toNat, o.toNat]
  | .currun l o rem => "CURRUN " ++ asmOperands [l.toNat, o.toNat, rem.toNat]
  | .awpixel x0 y0 => "AWPIXEL " ++ asmOperands [x0.toNat, y0.toNat]
  | .awhline x0 y0 len rev => "AWHLINE " ++ asmOperands [x0.toNat, y0.toNat, len.toNat] ++ asmFlag "REV" rev
  | .awvline x0 y0 len rev => "AWVLINE " ++ asmOperands [x0.toNat, y0.toNat, len.toNat] ++ asmFlag "REV" rev
  | .awfill x0 y0 x1 y1 xpose =>
    "AWFILL " ++ asmOperands [x0.toNat, y0.toNat, x1.toNat, y1.toNat] ++ asmFlag "XPOSE" xpose
  | .drawpixel x0 y0 base l o => "DRAWPIXEL " ++ asmOperands [x0.toNat, y0.toNat] ++ asmPattern base l o
  | .drawhline x0 y0 len base l o rev =>
    "DRAWHLINE " ++ asmOperands [x0.toNat, y0.toNat, len.toNat] ++ asmPattern base l o ++ asmFlag "REV" rev
  | .drawvline x0 y0 len base l o rev =>
    "DRAWVLINE " ++ asmOperands [x0.toNat, y0.toNat, len.toNat] ++ asmPattern base l o ++ asmFlag "REV" rev
  | .drawfill x0 y0 x1 y1 base l o xpose =>
    "DRAWFILL " ++ asmOperands [x0.toNat, y0.toNat, x1.toNat, y1.toNat] ++ asmPattern base l o ++
      asmFlag "XPOSE" xpose
  | .caset _ _ => "CASET"
  | .paset _ _ => "PASET"
  | .madctl _ => "MADCTL"
  | .ramwr => "RAMWR"
  | .data _ => "DATA"
  | .pixset _ => "PIXSET"

end Sys2Proof
end

