-- ==== Sys2Proof/Machine/State.lean ====
section
/-! DEFINITION. The state of the machine as plain data (10_state.md R20 to R40), the reasons a step can stop, and
reset. -/

namespace Sys2Proof.Machine

/-- `FMT`, 2 bits (10_state.md R21). Value 3 is never held: there is no such constructor. -/
inductive Fmt where
  | unset
  | fmt16
  | fmt18
  deriving DecidableEq, Repr, Inhabited

/-- `XFER`, 1 bit (10_state.md R22). -/
inductive Xfer where
  | bytewise
  | bulk
  deriving DecidableEq, Repr, Inhabited

/-- `PHASE`, 2 bits (10_state.md R25). -/
inductive Phase where
  | idle
  | windowProgrammed
  | ramArmed
  | streaming
  deriving DecidableEq, Repr, Inhabited

/-- The request latch (10_state.md R26). `kind`'s four 2-bit codes are the four kinds. -/
structure Latch where
  kind : Kind
  x0 : Half
  y0 : Half
  x1len : Half
  y1 : Half
  flags : BitVec 3
  base : Word
  l : Word
  oreq : Word
  deriving DecidableEq, Repr

/-- The window registers `WIN_CS`, `WIN_CE`, `WIN_RS`, `WIN_RE`, `WIN_OVR`, `WIN_ORIENT` (10_state.md R28). -/
structure Window where
  cs : Half
  ce : Half
  rs : Half
  re : Half
  ovr : BitVec 3
  orient : Byte
  deriving DecidableEq, Repr

/-- Which host-readable registers a request has written since reset (the MODEL's own, log 13): the stream working
registers, the window registers, `RES_B0` to `RES_B2` with `RES_N`, `RES_RUN`, `RES_O`. The others read as the free
value chosen at reset (93_implementation_defined.md U11). -/
structure Written where
  stream : Bool
  win : Bool
  resB : Bool
  resRun : Bool
  resO : Bool
  deriving DecidableEq, Repr

/-- What the outside world does to the engine (log 1). -/
inductive Input where
  /-- The host presents an encoded instruction: a request's descriptor (30_encoding.md R80), or a packet alone
  (log 3). -/
  | present (w : Wire)
  /-- The host writes bytes to the ColorSource memory at consecutive addresses (20_memory.md R61). -/
  | store (addr : Nat) (bytes : List Byte)
  /-- The engine is reset with this `ORIENT_DEFAULT` (70_reset_and_hazards.md R210, R219). -/
  | reset (orientDefault : Byte)
  deriving DecidableEq, Repr

/-- The ColorSource memory: (address, byte) pairs, addresses strictly rising. A listed address is readable and holds
that byte; an unlisted address is not readable (20_memory.md R52, log 9). -/
abbrev Memory := List Host.Cell

/-- The whole state. -/
structure State where
  /-- The parameters of this machine (00_scope.md R7 to R11). -/
  cfg : Params
  /-- `FMT`. -/
  fmt : Fmt
  /-- `XFER`. -/
  xfer : Xfer
  /-- `ORIENT_BASE` (10_state.md R23). -/
  orientBase : Byte
  /-- `OVR` (10_state.md R24): bit 0 RH, bit 1 RV, bit 2 TP. -/
  ovr : BitVec 3
  /-- `PHASE`. -/
  phase : Phase
  /-- The request latch. -/
  latch : Latch
  /-- `NPIX` (10_state.md R27). -/
  npix : Word
  /-- `REMAIN` (10_state.md R27). -/
  remain : Word
  /-- `CUR_O` (10_state.md R27). -/
  curO : Word
  /-- The window registers. -/
  win : Window
  /-- `RES_B0` (10_state.md R29). -/
  resB0 : Byte
  /-- `RES_B1`. -/
  resB1 : Byte
  /-- `RES_B2`. -/
  resB2 : Byte
  /-- `RES_N`. -/
  resN : BitVec 2
  /-- `RES_RUN`. -/
  resRun : Word
  /-- `RES_O`. -/
  resO : Word
  /-- `STAGE` (10_state.md R33): its `STAGE_MAX_PIXELS * 3` bytes, byte 0 first. -/
  stage : List Byte
  /-- The ColorSource memory (the host's). -/
  mem : Memory
  /-- The Transport trace so far, oldest event first (00_scope.md R16; output, never read by the engine). -/
  trace : List Event
  /-- What the host will do next, soonest first (log 1). -/
  inbox : List Input
  /-- How many free values have been used (the MODEL's own, log 7). -/
  draws : Nat
  /-- Which registers hold a request's result (the MODEL's own, log 13). -/
  written : Written
  /-- How many resets there have been since the first: which free values the registers without a reset value read as
  (the MODEL's own, log 13). -/
  resets : Nat
  deriving DecidableEq, Repr

/-- Why the machine stops. -/
inductive Fault where
  /-- A draw reads a ColorSource byte that is not readable: the engine is stuck (20_memory.md R52). Raised by the two
  streaming paths. Safe: no claim about what follows can be proved. -/
  | unreadable (addr : Nat)
  /-- The host stores to an address outside the 32-bit ColorSource space (20_memory.md R50, log 10). Safe. -/
  | noSuchAddress (addr : Nat)
  /-- A transition of 45_stream_emitter.md R170 is due with `FMT` unset, `L = 0` or `CUR_O >= L`, which no draw leaves
  behind (log 15). Raised by `phaseStep` from states no run reaches. Safe. -/
  | brokenDraw
  deriving DecidableEq, Repr

/-- What the model gives no meaning. -/
inductive Refusal where
  /-- An instruction without a meaning in this model, by its mnemonic. No arm answers this. Safe. -/
  | notModelled (mnemonic : String)
  /-- A reserved descriptor encoding (30_encoding.md R85, R86). Raised by `runWire`; also by SETFMT's meaning for the
  codes the decoder refuses. Safe. -/
  | reservedEncoding
  /-- A request, or a packet, presented while `PHASE` is not Idle (60_exceptions.md R195). Raised by `runWire`. Safe. -/
  | reentry
  /-- ENCODE, ENCHSV or a draw that would stream, with `FMT` unset (41_color_codec.md R112, 45_stream_emitter.md R163).
  Safe. -/
  | formatUnset
  /-- CURNORM or CURRUN with `L = 0` (43_color_cycle_cursor.md R131, R132). Safe. -/
  | zeroCycle
  /-- An AW or DRAW request outside the device extent (44_address_window.md R141). Safe. -/
  | outOfExtent
  /-- A pattern that passes the top of the address space (20_memory.md R51). Safe. -/
  | addressOverflow
  /-- A fast-path draw longer than the staging buffer (45_stream_emitter.md R163). Safe. -/
  | stageOverflow
  /-- A bracket that is none of the six packets (00_scope.md R5 (a), 30_encoding.md R96, log 3). Raised by `runWire`;
  also by DATA's meaning for an empty burst. Safe. -/
  | notAPacket
  /-- The host stores to memory while a draw is in progress (70_reset_and_hazards.md R217, log 10). Safe. -/
  | storeDuringDraw
  /-- The host reads a register while a draw is in progress (70_reset_and_hazards.md R223). Raised by `hostRead`.
  Safe. -/
  | readDuringDraw
  deriving DecidableEq, Repr

/-- `n` fresh free bytes, the first of them the `k`-th (log 7). -/
def freeBytes (k : Nat) : Nat → List Byte
  | 0 => []
  | n + 1 => Config.freeByte k :: freeBytes (k + 1) n

/-- The state right after reset, for a machine with parameters `p` (10_state.md R39). `FMT`, `XFER`, `ORIENT_BASE`,
`OVR`, `PHASE` and the trace are the spec's; every register the spec leaves unspecified holds 0, and `KIND` Pixel
(DESIGN CHOICE, log 4), which no host read shows (log 13); every byte of the staging buffer holds a free value (log 8);
the memory and the inbox list nothing. -/
def State.resetOf (p : Params) : State where
  cfg := p
  fmt := .unset
  xfer := .bytewise
  orientBase := p.orientDefault
  ovr := 0
  phase := .idle
  latch := { kind := .pixel, x0 := 0, y0 := 0, x1len := 0, y1 := 0, flags := 0, base := 0, l := 0, oreq := 0 }
  npix := 0
  remain := 0
  curO := 0
  win := { cs := 0, ce := 0, rs := 0, re := 0, ovr := 0, orient := 0 }
  resB0 := 0
  resB1 := 0
  resB2 := 0
  resN := 0
  resRun := 0
  resO := 0
  stage := freeBytes 0 p.stageSize
  mem := []
  trace := []
  inbox := []
  draws := p.stageSize
  written := { stream := false, win := false, resB := false, resRun := false, resO := false }
  resets := 0

/-- The state right after reset of the machine with the spec's default parameters (log 5). -/
def State.reset : State := State.resetOf Params.default

end Sys2Proof.Machine
end

