-- ==== Sys2Proof/Machine/Flags.lean ====
section
/-! DEFINITION. Register codings, the request flags and the orientation byte.

The engine has no condition codes (10_state.md R32). What it has of the kind are the modifier flags of a request
(30_encoding.md R81), the override bits of `OVR` and `WIN_OVR` (10_state.md R24) and the bits of the orientation byte
(10_state.md R35), each computed here. -/

namespace Sys2Proof.Machine

/-! ### Codings of the enumerated registers -/

/-- 10_state.md R21. -/
def Fmt.code : Fmt → BitVec 2
  | .unset => 0
  | .fmt16 => 1
  | .fmt18 => 2

/-- 10_state.md R22. -/
def Xfer.code : Xfer → BitVec 1
  | .bytewise => 0
  | .bulk => 1

/-- 10_state.md R25. -/
def Phase.code : Phase → BitVec 2
  | .idle => 0
  | .windowProgrammed => 1
  | .ramArmed => 2
  | .streaming => 3

/-- 10_state.md R26. -/
def kindCode : Kind → BitVec 2
  | .pixel => 0
  | .hline => 1
  | .vline => 2
  | .fill => 3

/-- `KIND <- OP[1:0]` (30_encoding.md R86). -/
def kindOfCode (c : BitVec 2) : Kind :=
  if c = 0 then .pixel else if c = 1 then .hline else if c = 2 then .vline else .fill

/-- The format register's value for an encoding (10_state.md R21). -/
def Fmt.ofEnc : PixEnc → Fmt
  | .bits16 => .fmt16
  | .bits18 => .fmt18

/-- `XFER <- mode` (42_pixel_format_config.md R121). -/
def Xfer.ofBulk (bulk : Bool) : Xfer := if bulk then .bulk else .bytewise

/-- `bpp()` (42_pixel_format_config.md R122): 2 or 3, not defined when `FMT = UNSET`. -/
def Fmt.bpp : Fmt → Option Nat
  | .unset => none
  | .fmt16 => some 2
  | .fmt18 => some 3

/-! ### Request flags and override bits: bit 0 RH, bit 1 RV, bit 2 TP (10_state.md R24, R26) -/

/-- RH, reverseHorizontal. -/
def flagRH : BitVec 3 := 1

/-- RV, reverseVertical. -/
def flagRV : BitVec 3 := 2

/-- TP, transpose. -/
def flagTP : BitVec 3 := 4

/-- The `FLAGS` register of a request that takes the one flag `f` (30_encoding.md R81). -/
def flagIf (f : BitVec 3) (isSet : Bool) : BitVec 3 := if isSet then f else 0

/-- RH of the `FLAGS` register. -/
def hasRH (flags : BitVec 3) : Bool := flags.getLsbD 0

/-- RV of the `FLAGS` register. -/
def hasRV (flags : BitVec 3) : Bool := flags.getLsbD 1

/-- TP of the `FLAGS` register. -/
def hasTP (flags : BitVec 3) : Bool := flags.getLsbD 2

/-! ### The orientation byte (10_state.md R35: bit 7 MY, 6 MX, 5 MV, 4 ML, 3 BGR, 2 MH) -/

/-- The orientation of a reversed horizontal line: MX toggled (44_address_window.md R146). -/
def orientReverseH (base : Byte) : Byte := base ^^^ 0x40

/-- The orientation of a reversed vertical line: MY toggled (44_address_window.md R146). -/
def orientReverseV (base : Byte) : Byte := base ^^^ 0x80

/-- The orientation of a transposed fill: MV set, and with `XPOSE_FORCE_MIRROR` MX and MY too
(44_address_window.md R147). -/
def orientTranspose (p : Params) (base : Byte) : Byte :=
  if p.xposeForceMirror then base ||| 0xE0 else base ||| 0x20

end Sys2Proof.Machine
end

