-- ==== Sys2Proof/Machine/Ops.lean ====
section
/-! DEFINITION. The named operations over memory, the Transport and the staging buffer that the meanings
share.

There is no exception entry and no return from one to write here: the engine has no trap of any kind, saves nothing
anywhere and has no program counter to redirect (60_exceptions.md R190, R198, R199). What ends a request early is a
`noop` (the state as accepted) or a refusal. -/

namespace Sys2Proof.Machine

/-! ### The ColorSource memory (20_memory.md part 1) -/

/-- One past the last ColorSource address, `2^ADDR_W` (00_scope.md R8). -/
def addressLimit : Nat := 2 ^ 32

/-- The byte at an address, if it is readable (20_memory.md R52). -/
def Memory.read (m : Memory) (k : Nat) : Option Byte :=
  match m with
  | [] => none
  | (a, b) :: rest => if a = k then some b else Memory.read rest k

/-- The memory with one byte written, the list kept in rising order. -/
def Memory.write (m : Memory) (k : Nat) (v : Byte) : Memory :=
  match m with
  | [] => [(k, v)]
  | (a, b) :: rest =>
    if k < a then (k, v) :: (a, b) :: rest
    else if a = k then (k, v) :: rest
    else (a, b) :: Memory.write rest k v

/-- `MemRead(addr, n)`: the `n` bytes from `addr` up, if every one is readable (20_memory.md R52). -/
def Memory.readBytes (m : Memory) (addr : Nat) : Nat → Option (List Byte)
  | 0 => some []
  | n + 1 =>
    match Memory.read m addr, Memory.readBytes m (addr + 1) n with
    | some b, some bs => some (b :: bs)
    | _, _ => none

/-- The first address of `addr .. addr+n-1` that is not readable, `addr + n` if all are. -/
def Memory.firstUnreadable (m : Memory) (addr : Nat) : Nat → Nat
  | 0 => addr
  | n + 1 => if (Memory.read m addr).isNone then addr else Memory.firstUnreadable m (addr + 1) n

/-- `MemWrite(addr, n, bytes)`, `n` the number of bytes (00_scope.md R15). -/
def Memory.writeBytes (m : Memory) (addr : Nat) : List Byte → Memory
  | [] => m
  | b :: bs => Memory.writeBytes (Memory.write m addr b) (addr + 1) bs

/-- Every address is above `lower` (when there is one), in rising order, and inside the address space. -/
def Memory.risingFrom (lower : Nat) : Memory → Bool
  | [] => true
  | (a, _) :: rest => decide (lower ≤ a) && decide (a < addressLimit) && Memory.risingFrom (a + 1) rest

/-- The canonical form: addresses strictly rising and inside the 32-bit space. An unlisted address reads as nothing
(log 9), so no entry can equal what it reads as. -/
def Memory.wf (m : Memory) : Bool := Memory.risingFrom 0 m

/-- `address_of(n) = base + n × byteWidth`, exact (20_memory.md R50, R51). -/
def addressOf (base : Word) (bpp n : Nat) : Nat := base.toNat + n * bpp

/-! ### The Transport (00_scope.md R16, 30_encoding.md R89) -/

/-- `Emit`: events appended to the trace. -/
def State.emit (es : List Event) (s : State) : State := { s with trace := s.trace ++ es }

/-- The CASET packet of a column range, R91. -/
def State.sendCaset (first last : Half) (s : State) : State :=
  s.emit (packet s.cfg.cmdCaset (be16 first ++ be16 last))

/-- The PASET packet of a row range, R91. -/
def State.sendPaset (first last : Half) (s : State) : State :=
  s.emit (packet s.cfg.cmdPaset (be16 first ++ be16 last))

/-- The MADCTL packet of an orientation byte, R92. -/
def State.sendMadctl (orient : Byte) (s : State) : State := s.emit (packet s.cfg.cmdMadctl [orient])

/-- The RAMWR packet, R93. -/
def State.sendRamwr (s : State) : State := s.emit (packet s.cfg.cmdRamwr [])

/-- A whole DATA burst, R94. -/
def State.sendData (bytes : List Byte) (s : State) : State := s.emit (burst bytes)

/-- The PIXSET packet that selects an encoding, R95. -/
def State.sendPixset (enc : PixEnc) (s : State) : State := s.emit (packet s.cfg.cmdPixset [enc.payload s.cfg])

/-! ### Bulk transfer (20_memory.md R57, R58) -/

/-- A transfer damages the buffer it sends: `XFER = BULK` on a Transport with the defect. -/
def State.corrupting (s : State) : Bool := decide (s.xfer = .bulk) && s.cfg.bulkCorrupts

/-! ### The staging buffer (10_state.md R33, 20_memory.md R68) -/

/-- `STAGE[0 .. n-1] <- bytes`, `n` the number of bytes; the rest of the buffer stays as it is. -/
def stageFill (stage bytes : List Byte) : List Byte := bytes ++ stage.drop bytes.length

/-- After a draw the contents of the staging buffer are unspecified (10_state.md R33, 45_stream_emitter.md R179):
every byte of it becomes a free value (log 8). -/
def State.releaseStage (s : State) : State :=
  { s with stage := freeBytes s.draws s.stage.length, draws := s.draws + s.stage.length }

end Sys2Proof.Machine
end

