-- ==== Sys2Proof/Machine/Operands.lean ====
section
/-! DEFINITION. Operands: what acceptance copies into the latch (30_encoding.md R82, R86 (4), R88), and what the host
reads back (10_state.md R27 to R30). -/

namespace Sys2Proof.Machine

/-- The operand fields a request names (30_encoding.md R82); `none` for a field it does not name. -/
structure Operands where
  a : Option Half := none
  b : Option Half := none
  c : Option Half := none
  d : Option Half := none
  p : Option Word := none
  q : Option Word := none
  s : Option Word := none
  deriving DecidableEq, Repr

/-- The latch of an accepted request, 30_encoding.md R86 (4): `KIND <- OP[1:0]`, `FLAGS <- FLAGS[2:0]`, and `X0 <- A`,
`Y0 <- B`, `X1LEN <- C`, `Y1 <- D`, `BASE <- P`, `L <- Q`, `OREQ <- S`, "each only if the request names that field; an
unnamed latch register becomes unspecified": a free value (log 6). -/
def latchOf (opLow : BitVec 2) (flags : BitVec 3) (o : Operands) (k : Nat) : Latch where
  kind := kindOfCode opLow
  x0 := o.a.getD (Config.freeHalf k)
  y0 := o.b.getD (Config.freeHalf (k + 1))
  x1len := o.c.getD (Config.freeHalf (k + 2))
  y1 := o.d.getD (Config.freeHalf (k + 3))
  flags := flags
  base := o.p.getD (Config.freeWord (k + 4))
  l := o.q.getD (Config.freeWord (k + 5))
  oreq := o.s.getD (Config.freeWord (k + 6))

/-- Acceptance of a request, 30_encoding.md R86 (4). -/
def State.accept (opLow : BitVec 2) (flags : BitVec 3) (o : Operands) (s : State) : State :=
  { s with latch := latchOf opLow flags o s.draws, draws := s.draws + 7 }

/-- The registers the host can read (10_state.md R21, R27, R28, R29). -/
inductive HostReg where
  | fmt
  | npix
  | remain
  | curO
  | winCs
  | winCe
  | winRs
  | winRe
  | winOvr
  | winOrient
  | resB0
  | resB1
  | resB2
  | resN
  | resRun
  | resO
  deriving DecidableEq, Repr

/-- The value a register holds, as a number. -/
def State.regValue (s : State) : HostReg → Nat
  | .fmt => s.fmt.code.toNat
  | .npix => s.npix.toNat
  | .remain => s.remain.toNat
  | .curO => s.curO.toNat
  | .winCs => s.win.cs.toNat
  | .winCe => s.win.ce.toNat
  | .winRs => s.win.rs.toNat
  | .winRe => s.win.re.toNat
  | .winOvr => s.win.ovr.toNat
  | .winOrient => s.win.orient.toNat
  | .resB0 => s.resB0.toNat
  | .resB1 => s.resB1.toNat
  | .resB2 => s.resB2.toNat
  | .resN => s.resN.toNat
  | .resRun => s.resRun.toNat
  | .resO => s.resO.toNat

/-- Has reset or a request given the register a value (log 13)? -/
def State.holdsValue (s : State) : HostReg → Bool
  | .fmt => true
  | .npix => s.written.stream
  | .remain => s.written.stream
  | .curO => s.written.stream
  | .winCs => s.written.win
  | .winCe => s.written.win
  | .winRs => s.written.win
  | .winRe => s.written.win
  | .winOvr => s.written.win
  | .winOrient => s.written.win
  | .resB0 => s.written.resB
  | .resB1 => s.written.resB
  | .resB2 => s.written.resB
  | .resN => s.written.resB
  | .resRun => s.written.resRun
  | .resO => s.written.resO

/-- A number of its own for each register. -/
def HostReg.index : HostReg → Nat
  | .fmt => 0
  | .npix => 1
  | .remain => 2
  | .curO => 3
  | .winCs => 4
  | .winCe => 5
  | .winRs => 6
  | .winRe => 7
  | .winOvr => 8
  | .winOrient => 9
  | .resB0 => 10
  | .resB1 => 11
  | .resB2 => 12
  | .resN => 13
  | .resRun => 14
  | .resO => 15

/-- The width of a register in bits (10_state.md R21, R27, R28, R29). -/
def HostReg.width : HostReg → Nat
  | .fmt => 2
  | .npix => 32
  | .remain => 32
  | .curO => 32
  | .winCs => 16
  | .winCe => 16
  | .winRs => 16
  | .winRe => 16
  | .winOvr => 3
  | .winOrient => 8
  | .resB0 => 8
  | .resB1 => 8
  | .resB2 => 8
  | .resN => 2
  | .resRun => 32
  | .resO => 32

/-- What a register that nothing has written since reset number `k` reads as: "the hardware returns some bits"
(10_state.md R30), "`any value` chosen at reset" (93_implementation_defined.md U11), as wide as the register: a free
value (log 13). -/
def unspecifiedValue (k : Nat) (r : HostReg) : Nat := (Config.resetBits k r.index).toNat % 2 ^ r.width

/-- What the host reads in a register: only at a request boundary (70_reset_and_hazards.md R223); what reset or a
request wrote, or, where nothing has been written since reset, the value chosen at reset (10_state.md R30,
93_implementation_defined.md U11). -/
def hostRead (r : HostReg) (s : State) : Except Refusal Nat :=
  if s.phase ≠ .idle then .error .readDuringDraw
  else if s.holdsValue r then .ok (s.regValue r)
  else .ok (unspecifiedValue s.resets r)

end Sys2Proof.Machine
end

