-- ==== Sys2Proof/Machine/ColorCodec.lean ====
section
/-! DEFINITION. ColorCodec: ENCODE and ENCHSV (41_color_codec.md). -/

namespace Sys2Proof.Machine

/-- `byte0` of `enc16`, R110: `(r & 0xF8) | (g >> 5)`. -/
def enc16Byte0 (r g : Byte) : Byte := (r &&& 0xF8) ||| (g >>> 5)

/-- `byte1` of `enc16`, R110: `((g & 0x1C) << 3) | (b >> 3)`. -/
def enc16Byte1 (g b : Byte) : Byte := ((g &&& 0x1C) <<< 3) ||| (b >>> 3)

/-- `enc16(r, g, b)`, R110: 5-6-5 truncation, `byte0` first. -/
def enc16 (c : RGB) : List Byte := [enc16Byte0 c.r c.g, enc16Byte1 c.g c.b]

/-- `enc18(r, g, b)`, R111: the three channels unchanged. -/
def enc18 (c : RGB) : List Byte := [c.r, c.g, c.b]

/-- The effect ENCODE and ENCHSV share, R112: the colour in the active format, to the result registers. -/
def encodeColour (c : RGB) (s : State) : Host.Outcome State Fault Refusal :=
  match s.fmt with
  | .unset => .refused .formatUnset
  | .fmt16 =>
    .next { s with
      resB0 := enc16Byte0 c.r c.g, resB1 := enc16Byte1 c.g c.b, resB2 := 0, resN := 2
      written := { s.written with resB := true } }
  | .fmt18 =>
    .next { s with
      resB0 := c.r, resB1 := c.g, resB2 := c.b, resN := 3
      written := { s.written with resB := true } }

/-- ENCODE, R112. -/
def execEncode (r g b : Byte) (s : State) : Host.Outcome State Fault Refusal :=
  encodeColour ⟨r, g, b⟩
    (s.accept 0 0 { a := some (r.setWidth 16), b := some (g.setWidth 16), c := some (b.setWidth 16) })

/-- ENCHSV, R113: ENCODE of `HSV2RGB(h, s, v)`. -/
def execEnchsv (hue : Half) (sat val : Byte) (s : State) : Host.Outcome State Fault Refusal :=
  encodeColour (Config.hsv2rgb hue sat val)
    (s.accept 1 0 { a := some hue, b := some (sat.setWidth 16), c := some (val.setWidth 16) })

end Sys2Proof.Machine
end

