-- ==== Sys2Proof/Machine/Packets.lean ====
section
/-! DEFINITION. The six device packets as instructions (30_encoding.md R90 to R95, log 3). A packet alone puts exactly
its bracket on the Transport; it is no request, so it does not touch the latch. -/

namespace Sys2Proof.Machine

/-- CASET, R91. -/
def execCaset (first last : Half) (s : State) : Host.Outcome State Fault Refusal := .next (s.sendCaset first last)

/-- PASET, R91. -/
def execPaset (first last : Half) (s : State) : Host.Outcome State Fault Refusal := .next (s.sendPaset first last)

/-- MADCTL, R92. -/
def execMadctl (orient : Byte) (s : State) : Host.Outcome State Fault Refusal := .next (s.sendMadctl orient)

/-- RAMWR, R93. -/
def execRamwr (s : State) : Host.Outcome State Fault Refusal := .next s.sendRamwr

/-- DATA, R94: a burst's length is "never 0", so an empty one is no packet. -/
def execData (bytes : List Byte) (s : State) : Host.Outcome State Fault Refusal :=
  if bytes = [] then .refused .notAPacket else .next (s.sendData bytes)

/-- PIXSET, R95. -/
def execPixset (enc : PixEnc) (s : State) : Host.Outcome State Fault Refusal := .next (s.sendPixset enc)

end Sys2Proof.Machine
end

