-- ==== Sys2Proof/Machine/PixelFormat.lean ====
section
/-! DEFINITION. PixelFormatState and the configuration requests: SETFMT and SETXFER (42_pixel_format_config.md). -/

namespace Sys2Proof.Machine

/-- The encoding a SETFMT code selects (30_encoding.md R87); the codes 0 and 3 are reserved. -/
def encOfCode (code : BitVec 2) : Option PixEnc :=
  if code = 1 then some .bits16 else if code = 2 then some .bits18 else none

/-- SETFMT, R120: record the format and tell the device. The decoder has refused the codes 0 and 3 already. -/
def execSetfmt (code : BitVec 2) (s : State) : Host.Outcome State Fault Refusal :=
  match encOfCode code with
  | none => .refused .reservedEncoding
  | some enc =>
    let s1 := s.accept 1 0 { a := some (code.setWidth 16) }
    .next (State.sendPixset enc { s1 with fmt := Fmt.ofEnc enc })

/-- SETXFER, R121. -/
def execSetxfer (bulk : Bool) (s : State) : Host.Outcome State Fault Refusal :=
  let s1 := s.accept 2 0 { a := some (if bulk then 1 else 0) }
  .next { s1 with xfer := Xfer.ofBulk bulk }

end Sys2Proof.Machine
end

