-- ==== Sys2Proof/Machine/AddressWindow.lean ====
section
/-! DEFINITION. AddressWindow: AWPIXEL, AWHLINE, AWVLINE, AWFILL and the window function the draws share
(44_address_window.md). All arithmetic is exact on natural numbers (00_scope.md R13); a result is narrowed only as it
becomes a register value, and fits there by 00_scope.md R7. -/

namespace Sys2Proof.Machine

/-- What `window` returns, R140. -/
inductive WindowResult where
  /-- The request covers no pixel. -/
  | empty
  /-- The request is outside the device extent. -/
  | outOfExtent
  /-- The six window registers. -/
  | window (w : Window)
  deriving DecidableEq, Repr

/-- A request's geometry as natural numbers: the anchor, `c` (`len` or `x1`), `d` (`y1`) and the flags, R140. -/
structure Geometry where
  kind : Kind
  x0 : Nat
  y0 : Nat
  c : Nat
  d : Nat
  flags : BitVec 3
  deriving DecidableEq, Repr

/-- The emptiness test, R149. -/
def Geometry.isEmpty (g : Geometry) : Bool :=
  match g.kind with
  | .pixel => false
  | .hline => decide (g.c = 0)
  | .vline => decide (g.c = 0)
  | .fill => decide (g.c < g.x0) || decide (g.d < g.y0)

/-- The extent test of a non-empty request, R141, row by row; `x <= W - 1` is written `x < W`, and
`x + len - 1 <= W - 1` is `x + len <= W`. -/
def Geometry.inExtent (p : Params) (g : Geometry) : Bool :=
  match g.kind with
  | .pixel => decide (g.x0 < p.devWidth) && decide (g.y0 < p.devHeight)
  | .hline =>
    if hasRH g.flags then
      decide (g.x0 < p.devWidth) && decide (g.c ≤ g.x0 + 1) && decide (g.y0 < p.devHeight)
    else decide (g.x0 + g.c ≤ p.devWidth) && decide (g.y0 < p.devHeight)
  | .vline =>
    if hasRV g.flags then
      decide (g.x0 < p.devWidth) && decide (g.y0 < p.devHeight) && decide (g.c ≤ g.y0 + 1)
    else decide (g.x0 < p.devWidth) && decide (g.y0 + g.c ≤ p.devHeight)
  | .fill =>
    decide (g.x0 ≤ g.c) && decide (g.c < p.devWidth) && decide (g.y0 ≤ g.d) && decide (g.d < p.devHeight)

/-- The mirrored column `x0' = (W - 1) - x0`, R143. -/
def mirrorX (p : Params) (x0 : Nat) : Nat := p.devWidth - 1 - x0

/-- The mirrored row `y0' = (H - 1) - y0`, R144. -/
def mirrorY (p : Params) (y0 : Nat) : Nat := p.devHeight - 1 - y0

/-- A window record from natural-number ranges. -/
def windowOfRanges (cs ce rs re : Nat) (ovr : BitVec 3) (orient : Byte) : Window where
  cs := BitVec.ofNat 16 cs
  ce := BitVec.ofNat 16 ce
  rs := BitVec.ofNat 16 rs
  re := BitVec.ofNat 16 re
  ovr := ovr
  orient := orient

/-- The per-kind computation, R142 to R147, of a non-empty request in extent. -/
def Geometry.ranges (p : Params) (orientBase : Byte) (g : Geometry) : Window :=
  match g.kind with
  | .pixel => windowOfRanges g.x0 g.x0 g.y0 g.y0 0 orientBase
  | .hline =>
    if hasRH g.flags then
      windowOfRanges (mirrorX p g.x0) (mirrorX p g.x0 + g.c - 1) g.y0 g.y0 flagRH (orientReverseH orientBase)
    else windowOfRanges g.x0 (g.x0 + g.c - 1) g.y0 g.y0 0 orientBase
  | .vline =>
    if hasRV g.flags then
      windowOfRanges g.x0 g.x0 (mirrorY p g.y0) (mirrorY p g.y0 + g.c - 1) flagRV (orientReverseV orientBase)
    else windowOfRanges g.x0 g.x0 g.y0 (g.y0 + g.c - 1) 0 orientBase
  | .fill =>
    if hasTP g.flags then windowOfRanges g.y0 g.d g.x0 g.c flagTP (orientTranspose p orientBase)
    else windowOfRanges g.x0 g.c g.y0 g.d 0 orientBase

/-- `window(kind, x0, y0, c, d, flags)`, R140: the emptiness test, the extent test, the computation, in this order. -/
def windowOf (p : Params) (orientBase : Byte) (g : Geometry) : WindowResult :=
  if g.isEmpty then .empty
  else if g.inExtent p then .window (g.ranges p orientBase)
  else .outOfExtent

/-- The geometry the latch holds. -/
def Latch.geometry (r : Latch) : Geometry where
  kind := r.kind
  x0 := r.x0.toNat
  y0 := r.y0.toNat
  c := r.x1len.toNat
  d := r.y1.toNat
  flags := r.flags

/-- `(WIN_CS, …, WIN_ORIENT) <- w`. -/
def State.setWindow (w : Window) (s : State) : State :=
  { s with win := w, written := { s.written with win := true } }

/-- The common pseudocode of the four AW requests (44_address_window.md part 3), the request in the latch. -/
def addressWindow (s : State) : Host.Outcome State Fault Refusal :=
  match windowOf s.cfg s.orientBase s.latch.geometry with
  | .empty => .next s
  | .outOfExtent => .refused .outOfExtent
  | .window w => .next (s.setWindow w)

/-- AWPIXEL, R142. -/
def execAwpixel (x0 y0 : Half) (s : State) : Host.Outcome State Fault Refusal :=
  addressWindow (s.accept (kindCode .pixel) 0 { a := some x0, b := some y0 })

/-- AWHLINE, R143. -/
def execAwhline (x0 y0 len : Half) (rev : Bool) (s : State) : Host.Outcome State Fault Refusal :=
  addressWindow (s.accept (kindCode .hline) (flagIf flagRH rev) { a := some x0, b := some y0, c := some len })

/-- AWVLINE, R144. -/
def execAwvline (x0 y0 len : Half) (rev : Bool) (s : State) : Host.Outcome State Fault Refusal :=
  addressWindow (s.accept (kindCode .vline) (flagIf flagRV rev) { a := some x0, b := some y0, c := some len })

/-- AWFILL, R145. -/
def execAwfill (x0 y0 x1 y1 : Half) (xpose : Bool) (s : State) : Host.Outcome State Fault Refusal :=
  addressWindow (s.accept (kindCode .fill) (flagIf flagTP xpose)
    { a := some x0, b := some y0, c := some x1, d := some y1 })

end Sys2Proof.Machine
end

