-- ==== Sys2Proof/Machine/ColorCycleCursor.lean ====
section
/-! DEFINITION. ColorCycleCursor: CURNORM and CURRUN (43_color_cycle_cursor.md). -/

namespace Sys2Proof.Machine

/-- `cursor_norm(L, O) = O mod L`, R131, for `L >= 1`. -/
def cursorNorm (l o : Nat) : Nat := o % l

/-- The run of `cursor_run`, R130: the whole of `remaining` when `L = 1`, else what is left before the wrap. -/
def cursorRunLength (l o remaining : Nat) : Nat := if l = 1 then remaining else min (l - o) remaining

/-- The next offset of `cursor_run`, R130. -/
def cursorRunNext (l o remaining : Nat) : Nat := (o + cursorRunLength l o remaining) % l

/-- CURNORM, R131. -/
def execCurnorm (l o : Word) (s : State) : Host.Outcome State Fault Refusal :=
  let s1 := s.accept 0 0 { q := some l, s := some o }
  if l = 0 then .refused .zeroCycle
  else .next { s1 with
    resO := BitVec.ofNat 32 (cursorNorm l.toNat o.toNat)
    written := { s1.written with resO := true } }

/-- CURRUN, R132: the offset is normalised first. -/
def execCurrun (l o remaining : Word) (s : State) : Host.Outcome State Fault Refusal :=
  let s1 := s.accept 1 0 { p := some remaining, q := some l, s := some o }
  if l = 0 then .refused .zeroCycle
  else
    let o0 := cursorNorm l.toNat o.toNat
    .next { s1 with
      resRun := BitVec.ofNat 32 (cursorRunLength l.toNat o0 remaining.toNat)
      resO := BitVec.ofNat 32 (cursorRunNext l.toNat o0 remaining.toNat)
      written := { s1.written with resRun := true, resO := true } }

end Sys2Proof.Machine
end

