-- ==== Sys2Proof/Machine/StreamEmitter.lean ====
section
/-! DEFINITION. StreamEmitter: DRAWPIXEL, DRAWHLINE, DRAWVLINE, DRAWFILL (45_stream_emitter.md).

`draw` is the algorithm of R160 in its own order of steps; `phaseStep` is the state machine of R170, one transition at
a time, built from the same operations. -/

namespace Sys2Proof.Machine

/-! ### Steps 1 to 4 and 8 -/

/-- The requested length `N = npix(kind)`, R162. -/
def Geometry.npix (g : Geometry) : Nat :=
  match g.kind with
  | .pixel => 1
  | .hline => g.c
  | .vline => g.c
  | .fill => if g.c < g.x0 ∨ g.d < g.y0 then 0 else (g.c - g.x0 + 1) * (g.d - g.y0 + 1)

/-- Step 1, R160, R164: `NPIX <- N; REMAIN <- N; CUR_O <- cursor_norm(L, OREQ)`. -/
def State.loadStream (n : Nat) (s : State) : State :=
  { s with
    npix := BitVec.ofNat 32 n
    remain := BitVec.ofNat 32 n
    curO := BitVec.ofNat 32 (cursorNorm s.latch.l.toNat s.latch.oreq.toNat)
    written := { s.written with stream := true } }

/-- The override packet of step 2, if the window needs one, and `OVR <- WIN_OVR` as it is emitted, R165. -/
def State.applyOverride (s : State) : State :=
  if s.win.ovr = 0 then s else { s.sendMadctl s.win.orient with ovr := s.win.ovr }

/-- Step 2, R165: the override, the column range, the row range, in this order. -/
def State.programWindow (w : Window) (s : State) : State :=
  let s1 := (s.setWindow w).applyOverride
  let s2 := (s1.sendCaset w.cs w.ce).sendPaset w.rs w.re
  { s2 with phase := .windowProgrammed }

/-- Step 3, R176. -/
def State.armRam (s : State) : State := { s.sendRamwr with phase := .ramArmed }

/-- Step 4, R160: the `Sel` that opens the burst. -/
def State.openBurst (s : State) : State := { s.emit [.sel] with phase := .streaming }

/-- Step 8, R169: the revert, if an override is outstanding. -/
def State.revertOverride (s : State) : State :=
  if s.ovr = 0 then s else { s.sendMadctl s.orientBase with ovr := 0 }

/-- The `Desel` that closes the burst, then step 8, then `PHASE <- Idle`; the staging buffer's contents are
unspecified from here on (R179, log 8). -/
def State.closeBurst (s : State) : State :=
  { (s.emit [.desel]).revertOverride.releaseStage with phase := .idle }

/-! ### Steps 5 to 7 -/

/-- One transfer of `bytes` from the ColorSource at `addr`: the `Dat` events, then the damage of 20_memory.md R58. -/
def State.transferSource (addr : Nat) (bytes : List Byte) (s : State) : State :=
  let s1 := s.emit (bytes.map .dat)
  if s.corrupting then
    { s1 with
      mem := Memory.writeBytes s1.mem addr (freeBytes s1.draws bytes.length)
      draws := s1.draws + bytes.length }
  else s1

/-- One transfer of the staging buffer's first `n` bytes, R167: the `Dat` events, then the damage of 20_memory.md
R58, which falls on the staging buffer. -/
def State.transferStage (n : Nat) (s : State) : State :=
  let s1 := s.emit ((s.stage.take n).map .dat)
  if s.corrupting then
    { s1 with stage := stageFill s1.stage (freeBytes s1.draws n), draws := s1.draws + n }
  else s1

/-- Step 5, the fast path, R167: one pixel read once, replicated into the staging buffer, sent as one transfer. -/
def fastPath (bpp : Nat) (s : State) : Host.Outcome State Fault Refusal :=
  let a := addressOf s.latch.base bpp s.curO.toNat
  match Memory.readBytes s.mem a bpp with
  | none => .fault (.unreadable (Memory.firstUnreadable s.mem a bpp))
  | some px =>
    let filled := { s with stage := stageFill s.stage (List.replicate s.npix.toNat px).flatten }
    .next { filled.transferStage (s.npix.toNat * bpp) with remain := 0, curO := 0 }

/-- One round of step 6, R168: the cursor's next run, its bytes read and sent in one transfer, `REMAIN` and `CUR_O`
advanced. -/
def transferChunk (bpp : Nat) (s : State) : Host.Outcome State Fault Refusal :=
  let l := s.latch.l.toNat
  let run := cursorRunLength l s.curO.toNat s.remain.toNat
  let a := addressOf s.latch.base bpp s.curO.toNat
  match Memory.readBytes s.mem a (run * bpp) with
  | none => .fault (.unreadable (Memory.firstUnreadable s.mem a (run * bpp)))
  | some bytes =>
    .next { s.transferSource a bytes with
      remain := BitVec.ofNat 32 (s.remain.toNat - run)
      curO := BitVec.ofNat 32 (cursorRunNext l s.curO.toNat s.remain.toNat) }

/-- Step 6, the general path, R168: chunks until `REMAIN` is 0. Each chunk sends at least one pixel, so `REMAIN`
rounds are enough fuel. -/
def generalPath (bpp : Nat) : Nat → State → Host.Outcome State Fault Refusal
  | 0, s => .next s
  | fuel + 1, s =>
    if s.remain = 0 then .next s
    else
      match transferChunk bpp s with
      | .next s1 => generalPath bpp fuel s1
      | .fault f => .fault f
      | .refused r => .refused r

/-- Steps 5 to 7, R160: the fast path exactly when `L = 1`. -/
def stream (bpp : Nat) (s : State) : Host.Outcome State Fault Refusal :=
  if s.latch.l = 1 then fastPath bpp s else generalPath bpp s.remain.toNat s

/-! ### The draw algorithm -/

/-- What the tests before the first event decide, R160, R161, R163. -/
inductive DrawCheck where
  /-- A void pattern or a length below 1: a silent no-op. -/
  | noop
  /-- A refusal. -/
  | refuse (r : Refusal)
  /-- The draw streams `n` pixels of `bpp` bytes through this window. -/
  | go (bpp n : Nat) (w : Window)
  deriving DecidableEq, Repr

/-- The tests of R160, in its order (60_exceptions.md R197). -/
def drawCheck (s : State) : DrawCheck :=
  let n := s.latch.geometry.npix
  if s.latch.base = 0 ∨ s.latch.l = 0 then .noop
  else if n < 1 then .noop
  else
    match s.fmt.bpp with
    | none => .refuse .formatUnset
    | some bpp =>
      match windowOf s.cfg s.orientBase s.latch.geometry with
      | .empty => .noop
      | .outOfExtent => .refuse .outOfExtent
      | .window w =>
        if addressLimit ≤ s.latch.base.toNat + s.latch.l.toNat * bpp - 1 then .refuse .addressOverflow
        else if s.latch.l = 1 ∧ s.cfg.stageMaxPixels < n then .refuse .stageOverflow
        else .go bpp n w

/-- Steps 1 and 2: the transition from Idle to WindowProgrammed, R170. -/
def State.beginDraw (n : Nat) (w : Window) (s : State) : State := (s.loadStream n).programWindow w

/-- A draw whose tests have passed, steps 1 to 8. -/
def runDraw (bpp n : Nat) (w : Window) (s : State) : Host.Outcome State Fault Refusal :=
  match stream bpp (s.beginDraw n w).armRam.openBurst with
  | .next s1 => .next s1.closeBurst
  | .fault f => .fault f
  | .refused r => .refused r

/-- `DRAW(kind)`, R160, the request in the latch. -/
def draw (s : State) : Host.Outcome State Fault Refusal :=
  match drawCheck s with
  | .noop => .next s
  | .refuse r => .refused r
  | .go bpp n w => runDraw bpp n w s

/-! ### The state machine of R170 -/

/-- One transition of the draw in progress, R170. From Idle nothing happens: the engine waits for a request
(70_reset_and_hazards.md R210). In Streaming with `REMAIN > 0` one transfer is sent, the whole stream on the fast path;
with `REMAIN = 0` the burst is closed. -/
def phaseStep (s : State) : Host.Outcome State Fault Refusal :=
  match s.phase with
  | .idle => .next s
  | .windowProgrammed => .next s.armRam
  | .ramArmed => .next s.openBurst
  | .streaming =>
    if s.remain = 0 then .next s.closeBurst
    else if s.latch.l.toNat ≤ s.curO.toNat then .fault .brokenDraw
    else
      match s.fmt.bpp with
      | none => .fault .brokenDraw
      | some bpp => if s.latch.l = 1 then fastPath bpp s else transferChunk bpp s

/-! ### The four requests -/

/-- DRAWPIXEL, R171. -/
def execDrawpixel (x0 y0 : Half) (base l o : Word) (s : State) : Host.Outcome State Fault Refusal :=
  draw (s.accept (kindCode .pixel) 0
    { a := some x0, b := some y0, p := some base, q := some l, s := some o })

/-- DRAWHLINE, R172. -/
def execDrawhline (x0 y0 len : Half) (base l o : Word) (rev : Bool) (s : State) :
    Host.Outcome State Fault Refusal :=
  draw (s.accept (kindCode .hline) (flagIf flagRH rev)
    { a := some x0, b := some y0, c := some len, p := some base, q := some l, s := some o })

/-- DRAWVLINE, R173. -/
def execDrawvline (x0 y0 len : Half) (base l o : Word) (rev : Bool) (s : State) :
    Host.Outcome State Fault Refusal :=
  draw (s.accept (kindCode .vline) (flagIf flagRV rev)
    { a := some x0, b := some y0, c := some len, p := some base, q := some l, s := some o })

/-- DRAWFILL, R174. -/
def execDrawfill (x0 y0 x1 y1 : Half) (base l o : Word) (xpose : Bool) (s : State) :
    Host.Outcome State Fault Refusal :=
  draw (s.accept (kindCode .fill) (flagIf flagTP xpose)
    { a := some x0, b := some y0, c := some x1, d := some y1, p := some base, q := some l, s := some o })

end Sys2Proof.Machine
end

