-- ==== Sys2Proof/Machine/Dispatch.lean ====
section
/-! DEFINITION. One arm per instruction. -/

namespace Sys2Proof.Machine

def exec (i : Instr) (s : State) : Host.Outcome State Fault Refusal :=
  match i with
  | .setfmt code => Sys2Proof.Machine.execSetfmt code s
  | .setxfer bulk => Sys2Proof.Machine.execSetxfer bulk s
  | .encode r g b => Sys2Proof.Machine.execEncode r g b s
  | .enchsv hue sat val => Sys2Proof.Machine.execEnchsv hue sat val s
  | .curnorm l o => Sys2Proof.Machine.execCurnorm l o s
  | .currun l o remaining => Sys2Proof.Machine.execCurrun l o remaining s
  | .awpixel x0 y0 => Sys2Proof.Machine.execAwpixel x0 y0 s
  | .awhline x0 y0 len rev => Sys2Proof.Machine.execAwhline x0 y0 len rev s
  | .awvline x0 y0 len rev => Sys2Proof.Machine.execAwvline x0 y0 len rev s
  | .awfill x0 y0 x1 y1 xpose => Sys2Proof.Machine.execAwfill x0 y0 x1 y1 xpose s
  | .drawpixel x0 y0 base l o => Sys2Proof.Machine.execDrawpixel x0 y0 base l o s
  | .drawhline x0 y0 len base l o rev => Sys2Proof.Machine.execDrawhline x0 y0 len base l o rev s
  | .drawvline x0 y0 len base l o rev => Sys2Proof.Machine.execDrawvline x0 y0 len base l o rev s
  | .drawfill x0 y0 x1 y1 base l o xpose => Sys2Proof.Machine.execDrawfill x0 y0 x1 y1 base l o xpose s
  | .caset first last => Sys2Proof.Machine.execCaset first last s
  | .paset first last => Sys2Proof.Machine.execPaset first last s
  | .madctl orient => Sys2Proof.Machine.execMadctl orient s
  | .ramwr => Sys2Proof.Machine.execRamwr s
  | .data bytes => Sys2Proof.Machine.execData bytes s
  | .pixset enc => Sys2Proof.Machine.execPixset enc s

end Sys2Proof.Machine
end

