-- ==== Sys2Proof/Machine/HostPort.lean ====
section
/-! DEFINITION. Where the outside world meets the engine: acceptance of an encoded instruction (30_encoding.md R86),
the host's stores to the ColorSource (20_memory.md R61) and the reset input (70_reset_and_hazards.md R210). -/

namespace Sys2Proof.Machine

/-- The refusal of an encoded form the decoder rejects: `reserved_encoding` for a descriptor (30_encoding.md R85). -/
def refusalOf (r : Reject) : Refusal := if r.ofDescriptor then .reservedEncoding else .notAPacket

/-- An encoded instruction is presented, 30_encoding.md R86: (1) re-entry "whatever its bytes", (2) (3) decode, (4)
the instruction runs. -/
def runWire (w : Wire) (s : State) : Host.Outcome State Fault Refusal :=
  if s.phase ≠ .idle then .refused .reentry
  else
    match decode s.cfg w with
    | .error r => .refused (refusalOf r)
    | .ok i => exec i s

/-- The host writes the ColorSource between requests (20_memory.md R61, log 10). -/
def hostStore (addr : Nat) (bytes : List Byte) (s : State) : Host.Outcome State Fault Refusal :=
  if s.phase ≠ .idle then .refused .storeDuringDraw
  else if addressLimit < addr + bytes.length then .fault (.noSuchAddress (max addr addressLimit))
  else .next { s with mem := Memory.writeBytes s.mem addr bytes }

/-- The engine is reset (70_reset_and_hazards.md R210, R211, R219; log 11): the engine's registers are as after reset
with this `ORIENT_DEFAULT`; nothing is emitted, and the trace sent so far, the host's memory and the host's further
inputs are not the engine's to change. The registers without a reset value read as new free values
(log 13), and the staging buffer holds new free values (log 8). -/
def resetEngine (orientDefault : Byte) (s : State) : State :=
  { State.resetOf { s.cfg with orientDefault := orientDefault } with
    mem := s.mem, trace := s.trace, inbox := s.inbox, resets := s.resets + 1
    stage := freeBytes s.draws s.cfg.stageSize, draws := s.draws + s.cfg.stageSize }

/-- What the next step does: the host's next input; with none, the draw in progress goes on, or the engine waits. -/
def runInput (s : State) : Host.Outcome State Fault Refusal :=
  match s.inbox with
  | [] => phaseStep s
  | .present w :: rest => runWire w { s with inbox := rest }
  | .store addr bytes :: rest => hostStore addr bytes { s with inbox := rest }
  | .reset orientDefault :: rest => .next (resetEngine orientDefault { s with inbox := rest })

/-- The state with an input put before the others. -/
def State.presentNext (w : Wire) (s : State) : State := { s with inbox := .present w :: s.inbox }

end Sys2Proof.Machine
end

