-- ==== Sys2Proof/Machine/Step.lean ====
section
/-! DEFINITION. One step of the machine: one request run to completion (00_scope.md R18). -/

namespace Sys2Proof.Machine

/-- One step. -/
def step (s : State) : Host.Outcome State Fault Refusal := runInput s

/-- The state with one instruction, given by its opcode-table bits, as the host's next input, so that the next step
takes and runs exactly it (log 16). Nothing else changes. -/
def State.withFetchWord (s : State) (nbits w : Nat) : State := s.presentNext (tableWire s.cfg nbits w)

end Sys2Proof.Machine
end

