-- ==== Sys2Proof/Safety.lean ====
section
/-! DEFINITION. The terms that claims about the machine use: what it means that a part of the state is unchanged, the
invariant of a request boundary, the closed forms the spec gives for what a draw sends, and what the device was last
sent. -/

namespace Sys2Proof.Machine

/-! ### Frames: parts of the state that an instruction leaves alone -/

/-- The parts of the state, as the write table of 10_state.md R30 groups them. -/
inductive Part where
  /-- The parameters. -/
  | params
  /-- `FMT`. -/
  | fmt
  /-- `XFER`. -/
  | xfer
  /-- `ORIENT_BASE`. -/
  | orientBase
  /-- `OVR`. -/
  | ovr
  /-- `PHASE`. -/
  | phase
  /-- The nine registers of the request latch. -/
  | latch
  /-- `NPIX`, `REMAIN`, `CUR_O`. -/
  | stream
  /-- The six window registers. -/
  | window
  /-- `RES_B0`, `RES_B1`, `RES_B2`, `RES_N`. -/
  | colour
  /-- `RES_RUN`. -/
  | run
  /-- `RES_O`. -/
  | offset
  /-- `STAGE`. -/
  | stage
  /-- The ColorSource memory. -/
  | memory
  /-- The Transport trace: nothing is emitted. -/
  | trace
  /-- The host's further inputs. -/
  | inbox
  /-- Which reset the machine is after, so what registers nothing has written read as (log 13). -/
  | resets
  deriving DecidableEq, Repr

/-- The part is as it was; for a group of registers that a request may not have written yet (log 13), whether one has
is as it was too. Memory is compared byte by byte, through the model's read of one byte. -/
def Part.Unchanged (s t : State) : Part → Prop
  | .params => t.cfg = s.cfg
  | .fmt => t.fmt = s.fmt
  | .xfer => t.xfer = s.xfer
  | .orientBase => t.orientBase = s.orientBase
  | .ovr => t.ovr = s.ovr
  | .phase => t.phase = s.phase
  | .latch => t.latch = s.latch
  | .stream =>
    t.npix = s.npix ∧ t.remain = s.remain ∧ t.curO = s.curO ∧ t.written.stream = s.written.stream
  | .window => t.win = s.win ∧ t.written.win = s.written.win
  | .colour =>
    t.resB0 = s.resB0 ∧ t.resB1 = s.resB1 ∧ t.resB2 = s.resB2 ∧ t.resN = s.resN ∧ t.written.resB = s.written.resB
  | .run => t.resRun = s.resRun ∧ t.written.resRun = s.written.resRun
  | .offset => t.resO = s.resO ∧ t.written.resO = s.written.resO
  | .stage => t.stage = s.stage
  | .memory => ∀ a : Nat, Memory.read t.mem a = Memory.read s.mem a
  | .trace => t.trace = s.trace
  | .inbox => t.inbox = s.inbox
  | .resets => t.resets = s.resets

/-- Every part but those listed is as it was. -/
def UnchangedExcept (parts : List Part) (s t : State) : Prop := ∀ p : Part, p ∉ parts → p.Unchanged s t

/-- What a request may write, 10_state.md R30, row by row, with the latch (R30: "Every accepted request also overwrites
the latch"), the trace (R36: "written by SETFMT and the DRAW requests") and, for the draws, the ColorSource
(20_memory.md R58). The six packets have no row in R30: that a packet alone writes the trace and nothing else is the
model's DESIGN CHOICE (log 3). -/
def mayWrite : Instr → List Part
  | .setfmt _ => [.latch, .fmt, .trace]
  | .setxfer _ => [.latch, .xfer]
  | .encode _ _ _ => [.latch, .colour]
  | .enchsv _ _ _ => [.latch, .colour]
  | .curnorm _ _ => [.latch, .offset]
  | .currun _ _ _ => [.latch, .run, .offset]
  | .awpixel _ _ => [.latch, .window]
  | .awhline _ _ _ _ => [.latch, .window]
  | .awvline _ _ _ _ => [.latch, .window]
  | .awfill _ _ _ _ _ => [.latch, .window]
  | .drawpixel _ _ _ _ _ => [.latch, .window, .stream, .ovr, .phase, .stage, .memory, .trace]
  | .drawhline _ _ _ _ _ _ _ => [.latch, .window, .stream, .ovr, .phase, .stage, .memory, .trace]
  | .drawvline _ _ _ _ _ _ _ => [.latch, .window, .stream, .ovr, .phase, .stage, .memory, .trace]
  | .drawfill _ _ _ _ _ _ _ _ => [.latch, .window, .stream, .ovr, .phase, .stage, .memory, .trace]
  | .caset _ _ => [.trace]
  | .paset _ _ => [.trace]
  | .madctl _ => [.trace]
  | .ramwr => [.trace]
  | .data _ => [.trace]
  | .pixset _ => [.trace]

/-! ### The latch after acceptance (30_encoding.md R86) -/

/-- The latch registers of a window or draw request: its kind, its flags, its anchor. -/
def LatchesAnchor (t : State) (kind : Kind) (flags : BitVec 3) (x0 y0 : Half) : Prop :=
  t.latch.kind = kind ∧ t.latch.flags = flags ∧ t.latch.x0 = x0 ∧ t.latch.y0 = y0

/-- The latch registers of a draw's pattern. -/
def LatchesPattern (t : State) (base l o : Word) : Prop :=
  t.latch.base = base ∧ t.latch.l = l ∧ t.latch.oreq = o

/-! ### Reserved encodings -/

/-- The flag bits a request takes, by its opcode: the column "flags allowed" of 30_encoding.md R84. -/
def flagsAllowed (op : Byte) : Byte :=
  if op = 0x31 ∨ op = 0x41 then 0x01
  else if op = 0x32 ∨ op = 0x42 then 0x02
  else if op = 0x33 ∨ op = 0x43 then 0x04
  else 0x00

/-- A descriptor that uses a reserved encoding: 30_encoding.md R85 (the opcodes it lists; a flag the request does not
take or a reserved flag bit, R81), R82 (a "must be 0" operand part), R87 (SETFMT codes 0 and 3). -/
def UsesReserved (f : Fields) : Prop :=
  (f.op = 0x00 ∨ (0x03 ≤ f.op ∧ f.op ≤ 0x0F) ∨ (0x12 ≤ f.op ∧ f.op ≤ 0x1F) ∨ (0x22 ≤ f.op ∧ f.op ≤ 0x2F) ∨
    (0x34 ≤ f.op ∧ f.op ≤ 0x3F) ∨ 0x44 ≤ f.op) ∨
  f.flags &&& ~~~(flagsAllowed f.op) ≠ 0 ∨
  (f.op = 0x01 ∧ f.a ≠ 1 ∧ f.a ≠ 2) ∨
  (f.op = 0x02 ∧ f.a ≠ 0 ∧ f.a ≠ 1) ∨
  (f.op = 0x10 ∧ (hi f.a ≠ 0 ∨ hi f.b ≠ 0 ∨ hi f.c ≠ 0)) ∨
  (f.op = 0x11 ∧ (hi f.b ≠ 0 ∨ hi f.c ≠ 0))

/-! ### The request boundary -/

/-- At most one override bit is 1 (10_state.md R24). -/
def OneOverride (v : BitVec 3) : Prop := v = 0 ∨ v = flagRH ∨ v = flagRV ∨ v = flagTP

/-- The window registers hold ranges in order, inside the device's extent; those of a transposed fill are exchanged
(44_address_window.md R141, R145). -/
def Window.InExtent (p : Params) (w : Window) : Prop :=
  w.cs ≤ w.ce ∧ w.rs ≤ w.re ∧
    (if w.ovr = flagTP then w.ce.toNat < p.devHeight ∧ w.re.toNat < p.devWidth
      else w.ce.toNat < p.devWidth ∧ w.re.toNat < p.devHeight)

/-- The invariant of the machine at a request boundary. -/
structure State.Inv (s : State) : Prop where
  /-- The parameters meet 00_scope.md R7 and R9. -/
  params : s.cfg.wf = true
  /-- 10_state.md R40. -/
  idle : s.phase = .idle
  /-- 10_state.md R40. -/
  reverted : s.ovr = 0
  /-- The memory is in canonical form. -/
  memory : Memory.wf s.mem = true
  /-- 10_state.md R23: `ORIENT_BASE` is constant after reset. -/
  orient : s.orientBase = s.cfg.orientDefault
  /-- 10_state.md R33: the staging buffer holds `STAGE_MAX_PIXELS * 3` bytes. -/
  stage : s.stage.length = s.cfg.stageSize
  /-- 20_memory.md R63: the trace is a sequence of complete brackets. -/
  bracketed : (brackets s.trace).isSome = true
  /-- 10_state.md R28: written window registers hold a window the device can have, with at most one override. -/
  window : s.written.win = true → OneOverride s.win.ovr ∧ s.win.InExtent s.cfg
  /-- 10_state.md R27: after a draw nothing remains to be sent. -/
  remain : s.written.stream = true → s.remain = 0
  /-- 10_state.md R29: written result bytes number 2 or 3. -/
  resN : s.written.resB = true → s.resN = 2 ∨ s.resN = 3

/-! ### What a draw sends -/

/-- Every one of the `n` addresses from `addr` up is readable (20_memory.md R52). -/
def Readable (m : Memory) (addr n : Nat) : Prop :=
  ∀ a, addr ≤ a → a < addr + n → (Memory.read m a).isSome = true

/-- The pixel at pattern position `k`: `MemRead(BASE + k * bpp, bpp)` (20_memory.md R50). -/
def pixelAt (m : Memory) (base : Word) (bpp k : Nat) : List Byte :=
  (Memory.readBytes m (addressOf base bpp k) bpp).getD []

/-- `stream_bytes` of 45_stream_emitter.md R166: pixel `i` is pattern position `(O + i) mod L`. -/
def streamBytes (m : Memory) (base : Word) (bpp l o n : Nat) : List Byte :=
  (List.range n).flatMap fun i => pixelAt m base bpp ((o + i) % l)

/-- The bytes of a stream whose every transfer damages the pattern's bytes it has sent (45_stream_emitter.md R168,
R177 (a), with 20_memory.md R58): the first `l` pixels are the pattern's, as it stood; pixel `i` from the `l`-th on
re-reads the position of pixel `i - l` and is what the damage left there. The damage is the free bytes from number `k`
on, in the order in which they were sent. -/
def damagedStreamBytes (m : Memory) (base : Word) (bpp l o n k : Nat) : List Byte :=
  (List.range n).flatMap fun i =>
    if i < l then pixelAt m base bpp ((o + i) % l) else freeBytes (k + (i - l) * bpp) bpp

/-- What such a stream leaves in memory (45_stream_emitter.md R177 (b)): each position sent holds the damage of the
last pixel sent from it. -/
def HoldsDamage (m : Memory) (base : Word) (bpp l o n k : Nat) : Prop :=
  ∀ i b, i < n → n ≤ i + l → b < bpp →
    Memory.read m (addressOf base bpp ((o + i) % l) + b) = some (Config.freeByte (k + i * bpp + b))

/-- The chunks `(O_k, run_k)` of a stream (43_color_cycle_cursor.md R135), at most `fuel` of them. -/
def chunks (l : Nat) : Nat → Nat → Nat → List (Nat × Nat)
  | 0, _, _ => []
  | fuel + 1, o, remaining =>
    if remaining = 0 then []
    else
      let run := cursorRunLength l o remaining
      (o, run) :: chunks l fuel (cursorRunNext l o remaining) (remaining - run)

/-- The whole trace of a draw that ends ok, 45_stream_emitter.md R178, with `bytes` the bytes sent. -/
def drawTrace (p : Params) (orientBase : Byte) (w : Window) (bytes : List Byte) : List Event :=
  (if w.ovr = 0 then [] else packet p.cmdMadctl [w.orient]) ++
  packet p.cmdCaset (be16 w.cs ++ be16 w.ce) ++
  packet p.cmdPaset (be16 w.rs ++ be16 w.re) ++
  packet p.cmdRamwr [] ++
  burst bytes ++
  (if w.ovr = 0 then [] else packet p.cmdMadctl [orientBase])

/-- The byte of an event, if it carries one: the byte-level projection of a trace (00_scope.md R16). -/
def eventByte : Event → Option Byte
  | .sel => none
  | .desel => none
  | .cmd b => some b
  | .dat b => some b

/-- The byte-level projection of a trace: `Sel` and `Desel` dropped. -/
def traceBytes (t : List Event) : List Byte := t.filterMap eventByte

/-- The events of a bracket; a descriptor has none. -/
def bracketEvents : Wire → List Event
  | .descriptor _ => []
  | .bracket events => events

/-- The packets a draw that streams puts on the Transport, in order (30_encoding.md R90, 45_stream_emitter.md R178). -/
def drawPackets (orientBase : Byte) (w : Window) (bytes : List Byte) : List Instr :=
  (if w.ovr = 0 then [] else [.madctl w.orient]) ++
  [.caset w.cs w.ce, .paset w.rs w.re, .ramwr, .data bytes] ++
  (if w.ovr = 0 then [] else [.madctl orientBase])

/-! ### What the device was last sent (10_state.md R34) -/

/-- The device's registers as far as the engine knows them: what was last sent, if anything was. -/
structure DeviceView where
  column : Option (Half × Half)
  row : Option (Half × Half)
  orient : Option Byte
  format : Option PixEnc
  deriving DecidableEq, Repr

/-- The view after one more packet. -/
def DeviceView.after (v : DeviceView) : Instr → DeviceView
  | .caset first last => { v with column := some (first, last) }
  | .paset first last => { v with row := some (first, last) }
  | .madctl orient => { v with orient := some orient }
  | .pixset enc => { v with format := some enc }
  | .ramwr => v
  | .data _ => v
  | .setfmt _ => v
  | .setxfer _ => v
  | .encode _ _ _ => v
  | .enchsv _ _ _ => v
  | .curnorm _ _ => v
  | .currun _ _ _ => v
  | .awpixel _ _ => v
  | .awhline _ _ _ _ => v
  | .awvline _ _ _ _ => v
  | .awfill _ _ _ _ _ => v
  | .drawpixel _ _ _ _ _ => v
  | .drawhline _ _ _ _ _ _ _ => v
  | .drawvline _ _ _ _ _ _ _ => v
  | .drawfill _ _ _ _ _ _ _ _ => v

/-- What the device was last sent in a trace; `none` if the trace is no sequence of packets. -/
def lastSent (p : Params) (v : DeviceView) (t : List Event) : Option DeviceView :=
  (packetsOfTrace p t).map fun is => is.foldl DeviceView.after v

/-! ### The draw requests -/

/-- The operands of a draw request, its kind and flags as the latch holds them. -/
structure DrawRequest where
  kind : Kind
  flags : BitVec 3
  x0 : Half
  y0 : Half
  c : Half
  d : Half
  base : Word
  l : Word
  o : Word
  deriving DecidableEq, Repr

/-- A draw request's operands; fields the request does not have are 0. `none` for every other instruction. -/
def drawRequestOf : Instr → Option DrawRequest
  | .drawpixel x0 y0 base l o => some { kind := .pixel, flags := 0, x0, y0, c := 0, d := 0, base, l, o }
  | .drawhline x0 y0 len base l o rev =>
    some { kind := .hline, flags := flagIf flagRH rev, x0, y0, c := len, d := 0, base, l, o }
  | .drawvline x0 y0 len base l o rev =>
    some { kind := .vline, flags := flagIf flagRV rev, x0, y0, c := len, d := 0, base, l, o }
  | .drawfill x0 y0 x1 y1 base l o xpose =>
    some { kind := .fill, flags := flagIf flagTP xpose, x0, y0, c := x1, d := y1, base, l, o }
  | .setfmt _ => none
  | .setxfer _ => none
  | .encode _ _ _ => none
  | .enchsv _ _ _ => none
  | .curnorm _ _ => none
  | .currun _ _ _ => none
  | .awpixel _ _ => none
  | .awhline _ _ _ _ => none
  | .awvline _ _ _ _ => none
  | .awfill _ _ _ _ _ => none
  | .caset _ _ => none
  | .paset _ _ => none
  | .madctl _ => none
  | .ramwr => none
  | .data _ => none
  | .pixset _ => none

/-- The geometry of an AW request; `none` for every other instruction. Fields the request does not have are 0. -/
def windowRequestOf : Instr → Option Geometry
  | .awpixel x0 y0 => some { kind := .pixel, x0 := x0.toNat, y0 := y0.toNat, c := 0, d := 0, flags := 0 }
  | .awhline x0 y0 len rev =>
    some { kind := .hline, x0 := x0.toNat, y0 := y0.toNat, c := len.toNat, d := 0, flags := flagIf flagRH rev }
  | .awvline x0 y0 len rev =>
    some { kind := .vline, x0 := x0.toNat, y0 := y0.toNat, c := len.toNat, d := 0, flags := flagIf flagRV rev }
  | .awfill x0 y0 x1 y1 xpose =>
    some { kind := .fill, x0 := x0.toNat, y0 := y0.toNat, c := x1.toNat, d := y1.toNat, flags := flagIf flagTP xpose }
  | .setfmt _ => none
  | .setxfer _ => none
  | .encode _ _ _ => none
  | .enchsv _ _ _ => none
  | .curnorm _ _ => none
  | .currun _ _ _ => none
  | .drawpixel _ _ _ _ _ => none
  | .drawhline _ _ _ _ _ _ _ => none
  | .drawvline _ _ _ _ _ _ _ => none
  | .drawfill _ _ _ _ _ _ _ _ => none
  | .caset _ _ => none
  | .paset _ _ => none
  | .madctl _ => none
  | .ramwr => none
  | .data _ => none
  | .pixset _ => none

/-- The geometry of a draw request. -/
def DrawRequest.geometry (r : DrawRequest) : Geometry where
  kind := r.kind
  x0 := r.x0.toNat
  y0 := r.y0.toNat
  c := r.c.toNat
  d := r.d.toNat
  flags := r.flags

/-- The number of pixels of a draw request, 45_stream_emitter.md R162. -/
def DrawRequest.npix (r : DrawRequest) : Nat := r.geometry.npix

/-- The window of a draw request (44_address_window.md R142 to R145). -/
def DrawRequest.window (p : Params) (orientBase : Byte) (r : DrawRequest) : Window := r.geometry.ranges p orientBase

/-- A draw passes the tests of R160, on the request, the parameters and the format alone: it is not void, not empty
(R161), and none of the four refusals (R163) holds. -/
structure DrawRequest.Passes (r : DrawRequest) (s : State) (bpp : Nat) : Prop where
  present : r.base ≠ 0
  cycle : r.l ≠ 0
  pixels : 1 ≤ r.npix
  format : s.fmt.bpp = some bpp
  extent : r.geometry.inExtent s.cfg = true
  space : r.base.toNat + r.l.toNat * bpp ≤ addressLimit
  staging : r.l = 1 → r.npix ≤ s.cfg.stageMaxPixels

/-- The conditions under which a draw streams: it passes the tests, and the whole pattern is readable, as
70_reset_and_hazards.md R220 asks of the host. -/
structure DrawRequest.Streams (r : DrawRequest) (s : State) (bpp : Nat) : Prop where
  passes : r.Passes s bpp
  readable : Readable s.mem r.base.toNat (r.l.toNat * bpp)

/-- Pattern position of the `i`-th pixel sent: `(O + i) mod L` (45_stream_emitter.md R166). -/
def DrawRequest.position (r : DrawRequest) (i : Nat) : Nat := (r.o.toNat + i) % r.l.toNat

/-- The address of the `i`-th pixel sent (20_memory.md R50). -/
def DrawRequest.address (r : DrawRequest) (bpp i : Nat) : Nat := addressOf r.base bpp (r.position i)

/-- The bytes the spec says a draw sends, 45_stream_emitter.md R166, "with memory taken as it stood when the draw
began". -/
def DrawRequest.streamBytes (r : DrawRequest) (s : State) (bpp : Nat) : List Byte :=
  Machine.streamBytes s.mem r.base bpp r.l.toNat r.o.toNat r.npix

/-- No position of the pattern is sent from a damaged byte (45_stream_emitter.md R166): the transfer mode or the
Transport does no damage, or the fast path is taken, or nothing is read twice. -/
def DrawRequest.Intact (r : DrawRequest) (s : State) : Prop :=
  s.xfer = .bytewise ∨ s.cfg.bulkCorrupts = false ∨ r.l = 1 ∨ r.npix ≤ r.l.toNat

/-- The state after a draw that ends ok, 45_stream_emitter.md R179, with `bytes` the bytes sent: every register, the
trace of R178, and the frame. A latch register the request does not name holds a free value (30_encoding.md R86,
log 6): `X1LEN` of a pixel, `Y1` of all but a fill; every byte of the staging buffer holds a free value (R179, log 8). The memory is not in it: see R58 and R177. -/
structure DrawRequest.Drawn (r : DrawRequest) (s t : State) (bpp : Nat) (bytes : List Byte) : Prop where
  idle : t.phase = .idle
  reverted : t.ovr = 0
  remain : t.remain = 0
  npix : t.npix.toNat = r.npix
  curO : t.curO.toNat = (r.o.toNat + r.npix) % r.l.toNat
  streamWritten : t.written.stream = true
  win : t.win = r.window s.cfg s.orientBase
  winWritten : t.written.win = true
  anchor : LatchesAnchor t r.kind r.flags r.x0 r.y0
  x1len : r.kind ≠ .pixel → t.latch.x1len = r.c
  y1 : r.kind = .fill → t.latch.y1 = r.d
  pattern : LatchesPattern t r.base r.l r.o
  trace : t.trace = s.trace ++ drawTrace s.cfg s.orientBase (r.window s.cfg s.orientBase) bytes
  count : bytes.length = r.npix * bpp
  stage : s.stage.length = s.cfg.stageSize → ∃ k, t.stage = freeBytes k s.cfg.stageSize
  frame : UnchangedExcept [.latch, .window, .stream, .ovr, .phase, .stage, .memory, .trace] s t

/-- R160 of 45_stream_emitter.md for one request `i`, in its own order of tests: a draw of `n` pixels, whose extent
condition is `inside` and whose window is `w`. A draw that passes every test, with its pattern readable, sends the whole
trace of R178, with the bytes of R166 where no byte is read after it was damaged, and with those of R168 and R177 (a)
where the transfers damage what they send. -/
def DrawMeaning (i : Instr) (base l o : Word) (n : Nat) (inside : Prop) (w : Window) (s : State) : Prop :=
  (base = 0 ∨ l = 0 ∨ n < 1 → ∃ t, exec i s = .next t ∧ UnchangedExcept [.latch] s t) ∧
  (base ≠ 0 → l ≠ 0 → 1 ≤ n →
    (s.fmt = .unset → exec i s = .refused .formatUnset) ∧
    ∀ bpp, s.fmt.bpp = some bpp →
      (¬ inside → exec i s = .refused .outOfExtent) ∧
      (inside → addressLimit ≤ base.toNat + l.toNat * bpp - 1 → exec i s = .refused .addressOverflow) ∧
      (inside → base.toNat + l.toNat * bpp - 1 < addressLimit →
        (l = 1 ∧ s.cfg.stageMaxPixels < n → exec i s = .refused .stageOverflow) ∧
        (¬ (l = 1 ∧ s.cfg.stageMaxPixels < n) → Readable s.mem base.toNat (l.toNat * bpp) →
          ∃ t bytes, exec i s = .next t ∧
            t.phase = .idle ∧ t.ovr = 0 ∧ t.npix.toNat = n ∧ t.remain = 0 ∧
            t.curO.toNat = (o.toNat + n) % l.toNat ∧ t.win = w ∧
            t.trace = s.trace ++ drawTrace s.cfg s.orientBase w bytes ∧ bytes.length = n * bpp ∧
            (s.xfer = .bytewise ∨ s.cfg.bulkCorrupts = false ∨ l = 1 ∨ n ≤ l.toNat →
              bytes = streamBytes s.mem base bpp l.toNat o.toNat n) ∧
            (s.xfer = .bulk → s.cfg.bulkCorrupts = true → l ≠ 1 →
              ∃ k, s.draws ≤ k ∧ bytes = damagedStreamBytes s.mem base bpp l.toNat o.toNat n k ∧
                HoldsDamage t.mem base bpp l.toNat o.toNat n k))))

/-! ### What the host reads -/

/-- The host reads this window in the six window registers (10_state.md R28). -/
def ReadsWindow (t : State) (w : Window) : Prop :=
  hostRead .winCs t = .ok w.cs.toNat ∧ hostRead .winCe t = .ok w.ce.toNat ∧
    hostRead .winRs t = .ok w.rs.toNat ∧ hostRead .winRe t = .ok w.re.toNat ∧
    hostRead .winOvr t = .ok w.ovr.toNat ∧ hostRead .winOrient t = .ok w.orient.toNat

/-! ### Several steps -/

/-- `k` steps of the machine, as far as they answer a next state. -/
def stepMany : Nat → State → Host.Outcome State Fault Refusal
  | 0, s => .next s
  | k + 1, s =>
    match step s with
    | .next t => stepMany k t
    | .fault f => .fault f
    | .refused r => .refused r

/-! ### What a refusal says -/

/-- The refusal reasons of an instruction and when each is given: 60_exceptions.md R191 and R193, without the reasons
that are given before an instruction runs (`reentry`) or to the host, and with one reason that R193 does not list, the
model's own `notAPacket` (DESIGN CHOICE, log 3), for a packet that is ill formed: an instruction gives no other. -/
def RefusesOnlyWhen (i : Instr) (s : State) : Refusal → Prop
  | .reservedEncoding => i.wf = false ∧ i.isRequest = true
  | .formatUnset =>
    s.fmt = .unset ∧ ((∃ r g b, i = .encode r g b) ∨ (∃ h c v, i = .enchsv h c v) ∨
      ∃ r, drawRequestOf i = some r ∧ r.base ≠ 0 ∧ r.l ≠ 0 ∧ 1 ≤ r.npix)
  | .zeroCycle => (∃ o, i = .curnorm 0 o) ∨ ∃ o n, i = .currun 0 o n
  | .outOfExtent =>
    (∃ r, drawRequestOf i = some r ∧ r.geometry.inExtent s.cfg = false ∧ s.fmt ≠ .unset ∧
      r.base ≠ 0 ∧ r.l ≠ 0 ∧ 1 ≤ r.npix) ∨
    ∃ g, windowRequestOf i = some g ∧ g.isEmpty = false ∧ g.inExtent s.cfg = false
  | .addressOverflow =>
    ∃ r bpp, drawRequestOf i = some r ∧ s.fmt.bpp = some bpp ∧ addressLimit < r.base.toNat + r.l.toNat * bpp
  | .stageOverflow => ∃ r, drawRequestOf i = some r ∧ r.l = 1 ∧ s.cfg.stageMaxPixels < r.npix
  | .notAPacket => i.wf = false ∧ i.isRequest = false
  | _ => False

end Sys2Proof.Machine
end

