-- ==== Sys2Proof/Certificates/Slice0/Obligations.lean ====
section
/-! DEFINITION. The statements for the provers, file by file of the spec. -/

section

open Sys2Proof Sys2Proof.Machine

/-! ### Reset (70_reset_and_hazards.md, 10_state.md) -/

/-- R210, R211: what reset leaves; the staging buffer has all its bytes (R33, their values log 8's); `FMT` reads UNSET, and a register without a reset value reads as some bits of its
width, the free value chosen at reset (U11; the model's choice of form, log 13); the engine waits for a request, as a
step that changes nothing (log 1). -/
def Obligations.ResetState : Prop :=
  ∀ p : Params,
    (State.resetOf p).fmt = .unset ∧ (State.resetOf p).xfer = .bytewise ∧
    (State.resetOf p).orientBase = p.orientDefault ∧ (State.resetOf p).ovr = 0 ∧ (State.resetOf p).phase = .idle ∧
    (State.resetOf p).trace = [] ∧ (State.resetOf p).stage.length = p.stageMaxPixels * 3 ∧
    hostRead .fmt (State.resetOf p) = .ok 0 ∧
    (∀ r : HostReg, r ≠ .fmt → ∃ k, hostRead r (State.resetOf p) = .ok (unspecifiedValue k r) ∧
      unspecifiedValue k r < 2 ^ r.width) ∧
    step (State.resetOf p) = .next (State.resetOf p)

/-- A reset input, in any state (R210, R219; that memory and the trace so far are kept is the model's choice, log 11,
and that each reset chooses the unspecified registers' bits anew, log 13). -/
def Obligations.ResetInput : Prop :=
  ∀ (s : State) (d : Byte) (rest : List Input), s.inbox = .reset d :: rest →
    ∃ t, step s = .next t ∧ t.fmt = .unset ∧ t.xfer = .bytewise ∧ t.orientBase = d ∧ t.ovr = 0 ∧ t.phase = .idle ∧
      t.trace = s.trace ∧ (∀ a, Memory.read t.mem a = Memory.read s.mem a) ∧ t.inbox = rest ∧
      t.stage.length = s.cfg.stageMaxPixels * 3 ∧ hostRead .fmt t = .ok 0 ∧ t.resets = s.resets + 1 ∧
      ∀ r : HostReg, r ≠ .fmt → hostRead r t = .ok (unspecifiedValue t.resets r)

/-- The invariant of a request boundary holds after reset. -/
def Obligations.ResetInv : Prop := ∀ p : Params, p.wf = true → (State.resetOf p).Inv

/-! ### Encodings (30_encoding.md) -/

/-- Decoding an encoded well-formed instruction gives it back, whatever the parameters. -/
def Obligations.DecodeEncode : Prop :=
  ∀ (p : Params) (i : Instr), p.wf = true → i.wf = true → decode p (encode p i) = .ok i

/-- A bracket that decodes is exactly the encoding of what it decodes to: no two brackets are one packet. -/
def Obligations.BracketIsItsEncoding : Prop :=
  ∀ (p : Params) (events : List Event) (i : Instr), decode p (.bracket events) = .ok i →
    i.isRequest = false ∧ encode p i = .bracket events

/-- The decoder is sound: what it gives is well formed, and a descriptor it reads has 22 bytes (R80). -/
def Obligations.DecodedIsWellFormed : Prop :=
  ∀ (p : Params) (w : Wire) (i : Instr), decode p w = .ok i →
    i.wf = true ∧ ∀ bytes, w = .descriptor bytes → bytes.length = 22 ∧ i.isRequest = true

/-- R82: the fields each request takes its operands from; a part that must be 0 and is not makes the descriptor
refused, and no other field matters (the right sides name no other). -/
def Obligations.OperandAssignment : Prop :=
  ∀ (p : Params) (f : Fields),
    (UsesReserved f → ∃ r : Reject, r.ofDescriptor = true ∧ decode p (.descriptor (bytesOfFields f)) = .error r) ∧
    (¬ UsesReserved f →
      (f.op = 0x01 → decode p (.descriptor (bytesOfFields f)) = .ok (.setfmt (f.a.setWidth 2))) ∧
      (f.op = 0x02 → decode p (.descriptor (bytesOfFields f)) = .ok (.setxfer (f.a.getLsbD 0))) ∧
      (f.op = 0x10 → decode p (.descriptor (bytesOfFields f)) = .ok (.encode (lo f.a) (lo f.b) (lo f.c))) ∧
      (f.op = 0x11 → decode p (.descriptor (bytesOfFields f)) = .ok (.enchsv f.a (lo f.b) (lo f.c))) ∧
      (f.op = 0x20 → decode p (.descriptor (bytesOfFields f)) = .ok (.curnorm f.q f.s)) ∧
      (f.op = 0x21 → decode p (.descriptor (bytesOfFields f)) = .ok (.currun f.q f.s f.p)) ∧
      (f.op = 0x30 → decode p (.descriptor (bytesOfFields f)) = .ok (.awpixel f.a f.b)) ∧
      (f.op = 0x31 →
        decode p (.descriptor (bytesOfFields f)) = .ok (.awhline f.a f.b f.c (f.flags.getLsbD 0))) ∧
      (f.op = 0x32 →
        decode p (.descriptor (bytesOfFields f)) = .ok (.awvline f.a f.b f.c (f.flags.getLsbD 1))) ∧
      (f.op = 0x33 →
        decode p (.descriptor (bytesOfFields f)) = .ok (.awfill f.a f.b f.c f.d (f.flags.getLsbD 2))) ∧
      (f.op = 0x40 → decode p (.descriptor (bytesOfFields f)) = .ok (.drawpixel f.a f.b f.p f.q f.s)) ∧
      (f.op = 0x41 →
        decode p (.descriptor (bytesOfFields f)) = .ok (.drawhline f.a f.b f.c f.p f.q f.s (f.flags.getLsbD 0))) ∧
      (f.op = 0x42 →
        decode p (.descriptor (bytesOfFields f)) = .ok (.drawvline f.a f.b f.c f.p f.q f.s (f.flags.getLsbD 1))) ∧
      (f.op = 0x43 →
        decode p (.descriptor (bytesOfFields f)) = .ok (.drawfill f.a f.b f.c f.d f.p f.q f.s (f.flags.getLsbD 2))))

/-- R85: a descriptor presented to an idle engine is refused as `reserved_encoding` exactly if it uses a reserved
encoding, and then by the decoder; else it decodes. -/
def Obligations.ReservedEncodingsRefused : Prop :=
  ∀ (s : State) (f : Fields) (rest : List Input), s.phase = .idle →
    s.inbox = .present (.descriptor (bytesOfFields f)) :: rest →
    (UsesReserved f → step s = .refused .reservedEncoding) ∧
    (¬ UsesReserved f → ∃ i, decode s.cfg (.descriptor (bytesOfFields f)) = .ok i ∧
      step s = exec i { s with inbox := rest })

/-- "The masks make the rows disjoint, so at most one row matches" (R86). -/
def Obligations.OpcodeRowsDisjoint : Prop :=
  opcodeMap.Pairwise fun a b => ∀ v : Half, ¬ (v &&& a.mask = a.pattern ∧ v &&& b.mask = b.pattern)

/-- Descriptors and brackets written out from the tables of R80 to R95, the parameters at the spec's defaults. -/
def Obligations.EncodingWords : Prop :=
  decode Params.default (.descriptor
    [0x01, 0x00, 0x00, 0x02, 0, 0, 0, 0, 0, 0, 0, 0, 0, 0, 0, 0, 0, 0, 0, 0, 0, 0]) = .ok (.setfmt 2) ∧
  decode Params.default (.descriptor
    [0x10, 0x00, 0x00, 0xFF, 0x00, 0x80, 0x00, 0x10, 0, 0, 0, 0, 0, 0, 0, 0, 0, 0, 0, 0, 0, 0])
      = .ok (.encode 0xFF 0x80 0x10) ∧
  decode Params.default (.descriptor
    [0x21, 0x00, 0, 0, 0, 0, 0, 0, 0, 0, 0x00, 0x00, 0x00, 0x07, 0x00, 0x00, 0x00, 0x03, 0x00, 0x00, 0x00, 0x02])
      = .ok (.currun 3 2 7) ∧
  decode Params.default (.descriptor
    [0x33, 0x04, 0x00, 0x05, 0x00, 0x02, 0x00, 0x09, 0x00, 0x06, 0, 0, 0, 0, 0, 0, 0, 0, 0, 0, 0, 0])
      = .ok (.awfill 5 2 9 6 true) ∧
  decode Params.default (.descriptor
    [0x41, 0x01, 0x00, 0x09, 0x00, 0x05, 0x00, 0x0A, 0x00, 0x00, 0x00, 0x00, 0x20, 0x00, 0x00, 0x00, 0x00, 0x01,
      0x00, 0x00, 0x00, 0x00]) = .ok (.drawhline 9 5 10 0x2000 1 0 true) ∧
  decode Params.default (.bracket [.sel, .cmd 0x2B, .dat 0x01, .dat 0x35, .dat 0x01, .dat 0x37, .desel])
      = .ok (.paset 309 311)

/-- R97: a trace is read as a list of packets exactly if it is the concatenation of their brackets, so in one way at
most; the payload length of a command packet is fixed by its command byte. -/
def Obligations.TraceParsesUniquely : Prop :=
  ∀ p : Params, p.wf = true →
    (∀ (t : List Event) (is : List Instr), packetsOfTrace p t = some is ↔
      (∀ i ∈ is, i.wf = true ∧ i.isRequest = false) ∧ t = is.flatMap fun i => bracketEvents (encode p i)) ∧
    payloadLength p p.cmdCaset = some 4 ∧ payloadLength p p.cmdPaset = some 4 ∧
    payloadLength p p.cmdMadctl = some 1 ∧ payloadLength p p.cmdRamwr = some 0 ∧ payloadLength p p.cmdPixset = some 1

/-! ### One step (00_scope.md, 30_encoding.md, 60_exceptions.md) -/

/-- A step runs the decoded instruction. Both forms are the model's choice: that what is presented stands in the inbox,
and is taken from it, is log 1's DESIGN CHOICE; that `withFetchWord` makes an opcode-table word the next is log 16's. -/
def Obligations.StepRunsDecoded : Prop :=
  (∀ (s : State) (w : Wire) (rest : List Input) (i : Instr), s.phase = .idle → s.inbox = .present w :: rest →
    decode s.cfg w = .ok i → step s = exec i { s with inbox := rest }) ∧
  (∀ (s : State) (nbits w : Nat) (i : Instr), s.phase = .idle → decode s.cfg (tableWire s.cfg nbits w) = .ok i →
    step (s.withFetchWord nbits w) = exec i s)

/-- R86 (1), R195: anything presented while `PHASE` is not Idle is refused, whatever its bytes. -/
def Obligations.ReentryRefused : Prop :=
  ∀ (s : State) (w : Wire) (rest : List Input), s.phase ≠ .idle → s.inbox = .present w :: rest →
    step s = .refused .reentry

/-- The host writes the ColorSource between requests (R61; the form of the input is the model's, log 10): the bytes are
there, nothing else changes, and during a draw the store is refused. -/
def Obligations.HostStore : Prop :=
  ∀ (s : State) (addr : Nat) (bytes : List Byte) (rest : List Input), s.inbox = .store addr bytes :: rest →
    (s.phase = .idle → addr + bytes.length ≤ addressLimit →
      ∃ t, step s = .next t ∧ Memory.readBytes t.mem addr bytes.length = some bytes ∧
        (∀ a, a < addr ∨ addr + bytes.length ≤ a → Memory.read t.mem a = Memory.read s.mem a) ∧
        t.inbox = rest ∧ UnchangedExcept [.memory, .inbox] s t) ∧
    (s.phase = .idle → addressLimit < addr + bytes.length →
      ∃ a, addressLimit ≤ a ∧ step s = .fault (.noSuchAddress a)) ∧
    (s.phase ≠ .idle → step s = .refused .storeDuringDraw)

/-- What the host reads (R27, R28, R29, R30, R223): each register that a request wrote reads as its result, request by
request. That at a request boundary every register reads (the first clause), also one that nothing has written since
reset, is the model's own choice (log 13): R30 gives such a read as `Refuse(unwritten)` in the model, and U11 allows a
value chosen at reset instead. That a read during a draw is refused as `readDuringDraw` is the
model's own choice (log 13): R223 says results are read at request boundaries only, and R193 lists no reason for it. -/
def Obligations.HostReadsResults : Prop :=
  (∀ (s : State) (reg : HostReg), s.phase = .idle → ∃ v, hostRead reg s = .ok v ∧ v < 2 ^ reg.width) ∧
  (∀ (s : State) (code : BitVec 2), s.phase = .idle → code = 1 ∨ code = 2 →
    ∃ t, exec (.setfmt code) s = .next t ∧ hostRead .fmt t = .ok code.toNat) ∧
  (∀ (s : State) (l o : Word), s.phase = .idle → l ≠ 0 →
    ∃ t, exec (.curnorm l o) s = .next t ∧ hostRead .resO t = .ok (o.toNat % l.toNat)) ∧
  (∀ (s : State) (l o remaining : Word), s.phase = .idle → l ≠ 0 →
    ∃ t, exec (.currun l o remaining) s = .next t ∧
      hostRead .resRun t = .ok (cursorRunLength l.toNat (o.toNat % l.toNat) remaining.toNat) ∧
      hostRead .resO t = .ok (cursorRunNext l.toNat (o.toNat % l.toNat) remaining.toNat)) ∧
  (∀ (s : State) (r g b : Byte), s.phase = .idle → s.fmt = .fmt16 →
    ∃ t byte0 byte1, exec (.encode r g b) s = .next t ∧ enc16 ⟨r, g, b⟩ = [byte0, byte1] ∧
      hostRead .resB0 t = .ok byte0.toNat ∧ hostRead .resB1 t = .ok byte1.toNat ∧
      hostRead .resB2 t = .ok 0 ∧ hostRead .resN t = .ok 2) ∧
  (∀ (s : State) (r g b : Byte), s.phase = .idle → s.fmt = .fmt18 →
    ∃ t, exec (.encode r g b) s = .next t ∧ hostRead .resB0 t = .ok r.toNat ∧ hostRead .resB1 t = .ok g.toNat ∧
      hostRead .resB2 t = .ok b.toNat ∧ hostRead .resN t = .ok 3) ∧
  (∀ (s : State) (h : Half) (c v : Byte), s.phase = .idle → s.fmt ≠ .unset →
    ∃ t u, exec (.enchsv h c v) s = .next t ∧
      exec (.encode (Config.hsv2rgb h c v).r (Config.hsv2rgb h c v).g (Config.hsv2rgb h c v).b) s = .next u ∧
      ∀ reg, hostRead reg t = hostRead reg u) ∧
  (∀ (s : State) (i : Instr) (g : Geometry) (w : Window), s.phase = .idle → windowRequestOf i = some g →
    windowOf s.cfg s.orientBase g = .window w → ∃ t, exec i s = .next t ∧ ReadsWindow t w) ∧
  (∀ (s : State) (i : Instr) (r : DrawRequest) (bpp : Nat), s.cfg.wf = true → s.ovr = 0 →
    drawRequestOf i = some r → r.Streams s bpp →
    ∃ t, exec i s = .next t ∧ hostRead .npix t = .ok r.npix ∧ hostRead .remain t = .ok 0 ∧
      hostRead .curO t = .ok ((r.o.toNat + r.npix) % r.l.toNat) ∧ ReadsWindow t (r.window s.cfg s.orientBase)) ∧
  (∀ (s : State) (r : HostReg), s.phase ≠ .idle → hostRead r s = .error .readDuringDraw)

/-! ### ColorCodec (41_color_codec.md) -/

/-- R110: the two bytes of `enc16` and their four bit fields, `byte0` first, and the rule's own instance. -/
def Obligations.Enc16Bits : Prop :=
  enc16 ⟨0xFF, 0x80, 0x10⟩ = [0xFC, 0x02] ∧
  ∀ r g b : Byte, ∃ byte0 byte1 : Byte, enc16 ⟨r, g, b⟩ = [byte0, byte1] ∧
    byte0 = (r &&& 0xF8) ||| (g >>> 5) ∧ byte1 = ((g &&& 0x1C) <<< 3) ||| (b >>> 3) ∧
    byte0.extractLsb 7 3 = r.extractLsb 7 3 ∧ byte0.extractLsb 2 0 = g.extractLsb 7 5 ∧
    byte1.extractLsb 7 5 = g.extractLsb 4 2 ∧ byte1.extractLsb 4 0 = b.extractLsb 7 3

/-- R112: ENCODE. -/
def Obligations.EncodeCompletes : Prop :=
  ∀ (s : State) (r g b : Byte),
    (s.fmt = .unset → exec (.encode r g b) s = .refused .formatUnset) ∧
    (s.fmt = .fmt16 → ∃ t, exec (.encode r g b) s = .next t ∧
      [t.resB0, t.resB1] = enc16 ⟨r, g, b⟩ ∧ t.resB2 = 0 ∧ t.resN = 2 ∧ t.written.resB = true ∧
      UnchangedExcept [.latch, .colour] s t) ∧
    (s.fmt = .fmt18 → ∃ t, exec (.encode r g b) s = .next t ∧
      [t.resB0, t.resB1, t.resB2] = enc18 ⟨r, g, b⟩ ∧ t.resN = 3 ∧ t.written.resB = true ∧
      UnchangedExcept [.latch, .colour] s t)

/-- R113: ENCHSV leaves the same result registers as ENCODE of `HSV2RGB(h, s, v)`, for every `HSV2RGB`. -/
def Obligations.EnchsvCompletes : Prop :=
  ∀ (s : State) (h : Half) (c v : Byte),
    (s.fmt = .unset → exec (.enchsv h c v) s = .refused .formatUnset) ∧
    (s.fmt ≠ .unset → ∃ t u,
      exec (.enchsv h c v) s = .next t ∧
      exec (.encode (Config.hsv2rgb h c v).r (Config.hsv2rgb h c v).g (Config.hsv2rgb h c v).b) s = .next u ∧
      t.resB0 = u.resB0 ∧ t.resB1 = u.resB1 ∧ t.resB2 = u.resB2 ∧ t.resN = u.resN ∧ t.written.resB = true ∧
      UnchangedExcept [.latch, .colour] s t)

/-! ### PixelFormatState (42_pixel_format_config.md) -/

/-- R120: SETFMT records the format and tells the device, in one PIXSET packet; the codes 0 and 3, and any SETFMT during
a draw, are refused before it runs. -/
def Obligations.SetfmtCompletes : Prop :=
  (∀ s : State, ∃ t, exec (.setfmt 1) s = .next t ∧ t.fmt = .fmt16 ∧
    t.trace = s.trace ++ [.sel, .cmd s.cfg.cmdPixset, .dat s.cfg.pxlfmt16Code, .desel] ∧
    UnchangedExcept [.latch, .fmt, .trace] s t) ∧
  (∀ s : State, ∃ t, exec (.setfmt 2) s = .next t ∧ t.fmt = .fmt18 ∧
    t.trace = s.trace ++ [.sel, .cmd s.cfg.cmdPixset, .dat s.cfg.pxlfmt18Code, .desel] ∧
    UnchangedExcept [.latch, .fmt, .trace] s t) ∧
  (∀ (s : State) (code : BitVec 2), code = 0 ∨ code = 3 → exec (.setfmt code) s = .refused .reservedEncoding) ∧
  (∀ (p : Params) (f : Fields), f.op = 0x01 → f.flags = 0 → f.a.setWidth 2 = (0 : BitVec 2) ∨ f.a.setWidth 2 = (3 : BitVec 2) →
    ∃ r : Reject, r.ofDescriptor = true ∧ decode p (.descriptor (bytesOfFields f)) = .error r) ∧
  (∀ (s : State) (f : Fields) (rest : List Input), f.op = 0x01 → s.phase ≠ .idle →
    s.inbox = .present (.descriptor (bytesOfFields f)) :: rest → step s = .refused .reentry)

/-- R121: SETXFER. -/
def Obligations.SetxferCompletes : Prop :=
  ∀ s : State,
    (∃ t, exec (.setxfer false) s = .next t ∧ t.xfer = .bytewise ∧ UnchangedExcept [.latch, .xfer] s t) ∧
    (∃ t, exec (.setxfer true) s = .next t ∧ t.xfer = .bulk ∧ UnchangedExcept [.latch, .xfer] s t) ∧
    (∀ (p : Params) (f : Fields), f.op = 0x02 → f.flags = 0 → f.a >>> 1 ≠ 0 →
      ∃ r : Reject, r.ofDescriptor = true ∧ decode p (.descriptor (bytesOfFields f)) = .error r) ∧
    (∀ (f : Fields) (rest : List Input), f.op = 0x02 → s.phase ≠ .idle →
      s.inbox = .present (.descriptor (bytesOfFields f)) :: rest → step s = .refused .reentry)

/-! ### ColorCycleCursor (43_color_cycle_cursor.md) -/

/-- R130: `cursor_run`, with its special case and its bounds. -/
def Obligations.CursorRun : Prop :=
  ∀ l o remaining : Nat, 1 ≤ l → o < l →
    (l = 1 → cursorRunLength l o remaining = remaining ∧ cursorRunNext l o remaining = 0) ∧
    (1 < l → cursorRunLength l o remaining = min (l - o) remaining ∧
      o + cursorRunLength l o remaining ≤ l ∧
      cursorRunNext l o remaining =
        if o + cursorRunLength l o remaining < l then o + cursorRunLength l o remaining else 0) ∧
    cursorRunNext l o remaining = (o + cursorRunLength l o remaining) % l ∧
    (remaining = 0 → cursorRunLength l o remaining = 0 ∧ cursorRunNext l o remaining = o)

/-- R131: CURNORM. -/
def Obligations.CurnormCompletes : Prop :=
  ∀ (s : State) (l o : Word),
    (l = 0 → exec (.curnorm l o) s = .refused .zeroCycle) ∧
    (l ≠ 0 → ∃ t, exec (.curnorm l o) s = .next t ∧ t.resO.toNat = o.toNat % l.toNat ∧ t.written.resO = true ∧
      UnchangedExcept [.latch, .offset] s t)

/-- R132: CURRUN normalises the offset, then steps the cursor once. -/
def Obligations.CurrunCompletes : Prop :=
  ∀ (s : State) (l o remaining : Word),
    (l = 0 → exec (.currun l o remaining) s = .refused .zeroCycle) ∧
    (l ≠ 0 → ∃ t, exec (.currun l o remaining) s = .next t ∧
      t.resRun.toNat = cursorRunLength l.toNat (o.toNat % l.toNat) remaining.toNat ∧
      t.resO.toNat = cursorRunNext l.toNat (o.toNat % l.toNat) remaining.toNat ∧
      t.written.resRun = true ∧ t.written.resO = true ∧ UnchangedExcept [.latch, .run, .offset] s t)

/-- R133, the cursor wrap law: after any number of runs, `k` pixels in all, the offset is `(O + k) mod L`. -/
def Obligations.CursorWrapLaw : Prop :=
  ∀ (l o n fuel : Nat) (before after : List (Nat × Nat)) (offset run : Nat), 1 ≤ l → o < l →
    chunks l fuel o n = before ++ (offset, run) :: after →
    offset = (o + (before.map Prod.snd).sum) % l ∧
      cursorRunNext l offset (n - (before.map Prod.snd).sum) = (o + (before.map Prod.snd).sum + run) % l

/-- R135: the chunk sequence of a stream. -/
def Obligations.ChunkSequence : Prop :=
  ∀ l o n fuel : Nat, o < l → 1 ≤ n → n ≤ fuel →
    (1 < l →
      (∀ c ∈ chunks l fuel o n, 1 ≤ c.2) ∧
      ((chunks l fuel o n).map Prod.snd).sum = n ∧
      (chunks l fuel o n).head? = some (o, min (l - o) n) ∧
      (∀ c ∈ (chunks l fuel o n).tail, c.1 = 0) ∧
      (∀ c ∈ (chunks l fuel o n).tail.dropLast, c.2 = l) ∧
      (chunks l fuel o n).length = (if n ≤ l - o then 1 else 1 + (n - (l - o) + (l - 1)) / l) ∧
      ∀ c, (chunks l fuel o n).getLast? = some c → (c.1 + c.2) % l = (o + n) % l) ∧
    (l = 1 → chunks l fuel o n = [(0, n)])

/-! ### AddressWindow (44_address_window.md) -/

/-- R142: AWPIXEL. -/
def Obligations.AwpixelCompletes : Prop :=
  ∀ (s : State) (x0 y0 : Half), s.cfg.wf = true →
    if x0.toNat ≤ s.cfg.devWidth - 1 ∧ y0.toNat ≤ s.cfg.devHeight - 1 then
      ∃ t, exec (.awpixel x0 y0) s = .next t ∧ t.win.cs = x0 ∧ t.win.ce = x0 ∧ t.win.rs = y0 ∧ t.win.re = y0 ∧
        t.win.ovr = 0 ∧ t.win.orient = s.orientBase ∧ t.written.win = true ∧ LatchesAnchor t .pixel 0 x0 y0 ∧
        UnchangedExcept [.latch, .window] s t
    else exec (.awpixel x0 y0) s = .refused .outOfExtent

/-- R143: AWHLINE, unreversed and reversed. -/
def Obligations.AwhlineCompletes : Prop :=
  ∀ (s : State) (x0 y0 len : Half), s.cfg.wf = true →
    (∀ rev, len = 0 → ∃ t, exec (.awhline x0 y0 len rev) s = .next t ∧ UnchangedExcept [.latch] s t) ∧
    (len ≠ 0 →
      if x0.toNat + len.toNat - 1 ≤ s.cfg.devWidth - 1 ∧ y0.toNat ≤ s.cfg.devHeight - 1 then
        ∃ t, exec (.awhline x0 y0 len false) s = .next t ∧ t.win.cs = x0 ∧
          t.win.ce.toNat = x0.toNat + len.toNat - 1 ∧ t.win.rs = y0 ∧ t.win.re = y0 ∧ t.win.ovr = 0 ∧
          t.win.orient = s.orientBase ∧ t.written.win = true ∧ LatchesAnchor t .hline 0 x0 y0 ∧ t.latch.x1len = len ∧
          UnchangedExcept [.latch, .window] s t
      else exec (.awhline x0 y0 len false) s = .refused .outOfExtent) ∧
    (len ≠ 0 →
      if x0.toNat ≤ s.cfg.devWidth - 1 ∧ len.toNat - 1 ≤ x0.toNat ∧ y0.toNat ≤ s.cfg.devHeight - 1 then
        ∃ t, exec (.awhline x0 y0 len true) s = .next t ∧ t.win.cs.toNat = s.cfg.devWidth - 1 - x0.toNat ∧
          t.win.ce.toNat = s.cfg.devWidth - 1 - x0.toNat + len.toNat - 1 ∧ t.win.rs = y0 ∧ t.win.re = y0 ∧
          t.win.ovr = 1 ∧ t.win.orient = s.orientBase ^^^ 0x40 ∧ t.written.win = true ∧
          LatchesAnchor t .hline 1 x0 y0 ∧ t.latch.x1len = len ∧ UnchangedExcept [.latch, .window] s t
      else exec (.awhline x0 y0 len true) s = .refused .outOfExtent)

/-- R144: AWVLINE, unreversed and reversed. -/
def Obligations.AwvlineCompletes : Prop :=
  ∀ (s : State) (x0 y0 len : Half), s.cfg.wf = true →
    (∀ rev, len = 0 → ∃ t, exec (.awvline x0 y0 len rev) s = .next t ∧ UnchangedExcept [.latch] s t) ∧
    (len ≠ 0 →
      if x0.toNat ≤ s.cfg.devWidth - 1 ∧ y0.toNat + len.toNat - 1 ≤ s.cfg.devHeight - 1 then
        ∃ t, exec (.awvline x0 y0 len false) s = .next t ∧ t.win.cs = x0 ∧ t.win.ce = x0 ∧ t.win.rs = y0 ∧
          t.win.re.toNat = y0.toNat + len.toNat - 1 ∧ t.win.ovr = 0 ∧ t.win.orient = s.orientBase ∧
          t.written.win = true ∧ LatchesAnchor t .vline 0 x0 y0 ∧ t.latch.x1len = len ∧
          UnchangedExcept [.latch, .window] s t
      else exec (.awvline x0 y0 len false) s = .refused .outOfExtent) ∧
    (len ≠ 0 →
      if x0.toNat ≤ s.cfg.devWidth - 1 ∧ y0.toNat ≤ s.cfg.devHeight - 1 ∧ len.toNat - 1 ≤ y0.toNat then
        ∃ t, exec (.awvline x0 y0 len true) s = .next t ∧ t.win.cs = x0 ∧ t.win.ce = x0 ∧
          t.win.rs.toNat = s.cfg.devHeight - 1 - y0.toNat ∧
          t.win.re.toNat = s.cfg.devHeight - 1 - y0.toNat + len.toNat - 1 ∧ t.win.ovr = 2 ∧
          t.win.orient = s.orientBase ^^^ 0x80 ∧ t.written.win = true ∧ LatchesAnchor t .vline 2 x0 y0 ∧
          t.latch.x1len = len ∧ UnchangedExcept [.latch, .window] s t
      else exec (.awvline x0 y0 len true) s = .refused .outOfExtent)

/-- R145: AWFILL, plain and transposed. -/
def Obligations.AwfillCompletes : Prop :=
  ∀ (s : State) (x0 y0 x1 y1 : Half), s.cfg.wf = true →
    (∀ xpose, x1.toNat < x0.toNat ∨ y1.toNat < y0.toNat →
      ∃ t, exec (.awfill x0 y0 x1 y1 xpose) s = .next t ∧ UnchangedExcept [.latch] s t) ∧
    (x0.toNat ≤ x1.toNat → y0.toNat ≤ y1.toNat →
      if x1.toNat ≤ s.cfg.devWidth - 1 ∧ y1.toNat ≤ s.cfg.devHeight - 1 then
        (∃ t, exec (.awfill x0 y0 x1 y1 false) s = .next t ∧ t.win.cs = x0 ∧ t.win.ce = x1 ∧ t.win.rs = y0 ∧
          t.win.re = y1 ∧ t.win.ovr = 0 ∧ t.win.orient = s.orientBase ∧ t.written.win = true ∧
          LatchesAnchor t .fill 0 x0 y0 ∧ t.latch.x1len = x1 ∧ t.latch.y1 = y1 ∧
          UnchangedExcept [.latch, .window] s t) ∧
        (∃ t, exec (.awfill x0 y0 x1 y1 true) s = .next t ∧ t.win.cs = y0 ∧ t.win.ce = y1 ∧ t.win.rs = x0 ∧
          t.win.re = x1 ∧ t.win.ovr = 4 ∧
          t.win.orient = (if s.cfg.xposeForceMirror then s.orientBase ||| 0xE0 else s.orientBase ||| 0x20) ∧
          t.written.win = true ∧ LatchesAnchor t .fill 4 x0 y0 ∧ t.latch.x1len = x1 ∧ t.latch.y1 = y1 ∧
          UnchangedExcept [.latch, .window] s t)
      else ∀ xpose, exec (.awfill x0 y0 x1 y1 xpose) s = .refused .outOfExtent)

/-- R141, R150: every window the engine computes lies in the device's extent (a transposed fill's on the exchanged
axes), with at most one override. -/
def Obligations.WindowsInExtent : Prop :=
  ∀ (p : Params) (orientBase : Byte) (g : Geometry) (w : Window), p.wf = true → windowOf p orientBase g = .window w →
    OneOverride w.ovr ∧ w.InExtent p

/-- R146, R147, R151: the bits of every orientation byte the engine computes. -/
def Obligations.OrientationBits : Prop :=
  ∀ (p : Params) (orientBase : Byte) (g : Geometry) (w : Window), windowOf p orientBase g = .window w →
    (∀ k, k < 5 → w.orient.getLsbD k = orientBase.getLsbD k) ∧
    (w.ovr = 0 → w.orient = orientBase) ∧
    (w.ovr = flagRH → w.orient.getLsbD 6 = !orientBase.getLsbD 6 ∧
      w.orient.getLsbD 7 = orientBase.getLsbD 7 ∧ w.orient.getLsbD 5 = orientBase.getLsbD 5) ∧
    (w.ovr = flagRV → w.orient.getLsbD 7 = !orientBase.getLsbD 7 ∧
      w.orient.getLsbD 6 = orientBase.getLsbD 6 ∧ w.orient.getLsbD 5 = orientBase.getLsbD 5) ∧
    (w.ovr = flagTP → w.orient.getLsbD 5 = true ∧
      w.orient.getLsbD 6 = (p.xposeForceMirror || orientBase.getLsbD 6) ∧
      w.orient.getLsbD 7 = (p.xposeForceMirror || orientBase.getLsbD 7))

/-! ### StreamEmitter (45_stream_emitter.md) -/

/-- R161, R192: a void or empty draw is a silent no-op, whatever the format, the geometry and the memory. -/
def Obligations.VoidDrawIsNoop : Prop :=
  ∀ (s : State) (i : Instr) (r : DrawRequest), drawRequestOf i = some r →
    r.base = 0 ∨ r.l = 0 ∨ r.npix < 1 →
    ∃ t, exec i s = .next t ∧ UnchangedExcept [.latch] s t

/-- R162: the requested length of each kind; it is below 1 exactly where the window is empty, and never above the
device's extent. -/
def Obligations.RequestedLength : Prop :=
  ∀ (x0 y0 c d : Half) (base l o : Word) (flag : Bool),
    (drawRequestOf (.drawpixel x0 y0 base l o)).map DrawRequest.npix = some 1 ∧
    (drawRequestOf (.drawhline x0 y0 c base l o flag)).map DrawRequest.npix = some c.toNat ∧
    (drawRequestOf (.drawvline x0 y0 c base l o flag)).map DrawRequest.npix = some c.toNat ∧
    (drawRequestOf (.drawfill x0 y0 c d base l o flag)).map DrawRequest.npix =
      some (if c.toNat < x0.toNat ∨ d.toNat < y0.toNat then 0
        else (c.toNat - x0.toNat + 1) * (d.toNat - y0.toNat + 1)) ∧
    ∀ (p : Params) (i : Instr) (r : DrawRequest), drawRequestOf i = some r → p.wf = true →
      (r.npix < 1 ↔ r.geometry.isEmpty = true) ∧
        (r.geometry.inExtent p = true → r.npix ≤ p.devWidth * p.devHeight ∧ r.npix < 2 ^ 32)

/-- R163, R197: the refusals of a draw that is neither void nor empty, in the order tested. -/
def Obligations.DrawRefusalOrder : Prop :=
  ∀ (s : State) (i : Instr) (r : DrawRequest), drawRequestOf i = some r → r.base ≠ 0 → r.l ≠ 0 → 1 ≤ r.npix →
    (s.fmt = .unset → exec i s = .refused .formatUnset) ∧
    (∀ bpp, s.fmt.bpp = some bpp →
      (r.geometry.inExtent s.cfg = false → exec i s = .refused .outOfExtent) ∧
      (r.geometry.inExtent s.cfg = true →
        (addressLimit ≤ r.base.toNat + r.l.toNat * bpp - 1 → exec i s = .refused .addressOverflow) ∧
        (r.base.toNat + r.l.toNat * bpp - 1 < addressLimit → r.l = 1 → s.cfg.stageMaxPixels < r.npix →
          exec i s = .refused .stageOverflow)))

/-- R171: DRAWPIXEL (the form of damaged bytes: log 7). -/
def Obligations.DrawpixelMeaning : Prop :=
  ∀ (s : State) (x0 y0 : Half) (base l o : Word), s.cfg.wf = true → s.ovr = 0 →
    DrawMeaning (.drawpixel x0 y0 base l o) base l o 1
      (x0.toNat ≤ s.cfg.devWidth - 1 ∧ y0.toNat ≤ s.cfg.devHeight - 1)
      { cs := x0, ce := x0, rs := y0, re := y0, ovr := 0, orient := s.orientBase } s

/-- R172: DRAWHLINE, unreversed and reversed (the form of damaged bytes: log 7). -/
def Obligations.DrawhlineMeaning : Prop :=
  ∀ (s : State) (x0 y0 len : Half) (base l o : Word), s.cfg.wf = true → s.ovr = 0 →
    DrawMeaning (.drawhline x0 y0 len base l o false) base l o len.toNat
      (x0.toNat + len.toNat - 1 ≤ s.cfg.devWidth - 1 ∧ y0.toNat ≤ s.cfg.devHeight - 1)
      { cs := x0, ce := BitVec.ofNat 16 (x0.toNat + len.toNat - 1), rs := y0, re := y0, ovr := 0,
        orient := s.orientBase } s ∧
    DrawMeaning (.drawhline x0 y0 len base l o true) base l o len.toNat
      (x0.toNat ≤ s.cfg.devWidth - 1 ∧ len.toNat - 1 ≤ x0.toNat ∧ y0.toNat ≤ s.cfg.devHeight - 1)
      { cs := BitVec.ofNat 16 (s.cfg.devWidth - 1 - x0.toNat)
        ce := BitVec.ofNat 16 (s.cfg.devWidth - 1 - x0.toNat + len.toNat - 1), rs := y0, re := y0, ovr := 1,
        orient := s.orientBase ^^^ 0x40 } s

/-- R173: DRAWVLINE, unreversed and reversed (the form of damaged bytes: log 7). -/
def Obligations.DrawvlineMeaning : Prop :=
  ∀ (s : State) (x0 y0 len : Half) (base l o : Word), s.cfg.wf = true → s.ovr = 0 →
    DrawMeaning (.drawvline x0 y0 len base l o false) base l o len.toNat
      (x0.toNat ≤ s.cfg.devWidth - 1 ∧ y0.toNat + len.toNat - 1 ≤ s.cfg.devHeight - 1)
      { cs := x0, ce := x0, rs := y0, re := BitVec.ofNat 16 (y0.toNat + len.toNat - 1), ovr := 0,
        orient := s.orientBase } s ∧
    DrawMeaning (.drawvline x0 y0 len base l o true) base l o len.toNat
      (x0.toNat ≤ s.cfg.devWidth - 1 ∧ y0.toNat ≤ s.cfg.devHeight - 1 ∧ len.toNat - 1 ≤ y0.toNat)
      { cs := x0, ce := x0, rs := BitVec.ofNat 16 (s.cfg.devHeight - 1 - y0.toNat)
        re := BitVec.ofNat 16 (s.cfg.devHeight - 1 - y0.toNat + len.toNat - 1), ovr := 2,
        orient := s.orientBase ^^^ 0x80 } s

/-- R174: DRAWFILL, plain and transposed (the form of damaged bytes: log 7). -/
def Obligations.DrawfillMeaning : Prop :=
  ∀ (s : State) (x0 y0 x1 y1 : Half) (base l o : Word), s.cfg.wf = true → s.ovr = 0 →
    DrawMeaning (.drawfill x0 y0 x1 y1 base l o false) base l o
      (if x1.toNat < x0.toNat ∨ y1.toNat < y0.toNat then 0
        else (x1.toNat - x0.toNat + 1) * (y1.toNat - y0.toNat + 1))
      (x1.toNat ≤ s.cfg.devWidth - 1 ∧ y1.toNat ≤ s.cfg.devHeight - 1)
      { cs := x0, ce := x1, rs := y0, re := y1, ovr := 0, orient := s.orientBase } s ∧
    DrawMeaning (.drawfill x0 y0 x1 y1 base l o true) base l o
      (if x1.toNat < x0.toNat ∨ y1.toNat < y0.toNat then 0
        else (x1.toNat - x0.toNat + 1) * (y1.toNat - y0.toNat + 1))
      (x1.toNat ≤ s.cfg.devWidth - 1 ∧ y1.toNat ≤ s.cfg.devHeight - 1)
      { cs := y0, ce := y1, rs := x0, re := x1, ovr := 4,
        orient := if s.cfg.xposeForceMirror then s.orientBase ||| 0xE0 else s.orientBase ||| 0x20 } s

/-- R178, R179: a draw whose conditions hold ends ok, with this state (a latch register the request does not name left
free, R86), this trace, and this frame. -/
def Obligations.DrawEndsOk : Prop :=
  ∀ (s : State) (i : Instr) (r : DrawRequest) (bpp : Nat), s.cfg.wf = true → s.ovr = 0 →
    drawRequestOf i = some r → r.Streams s bpp →
    ∃ t bytes, exec i s = .next t ∧ r.Drawn s t bpp bytes

/-- R166: where no byte is read after it was damaged, the bytes sent are the pattern's, pixel `i` from position
`(O + i) mod L`, "with memory taken as it stood when the draw began". In the remaining case, where bulk transfers of the
general path damage what they send (R168, R177, with R58), the first `L` pixels sent are still the pattern's; every
later one re-reads a position sent `L` pixels before and sends the very free bytes that transfer left there; and each
position sent holds at the end the free bytes its last transfer left. That these are the constants `Config.freeByte` of
a counter, all of them fresh (from some `k` on that is no less than the count so far), is the model's choice of form
(log 7). -/
def Obligations.StreamBytes : Prop :=
  ∀ (s t : State) (i : Instr) (r : DrawRequest) (bpp : Nat), s.cfg.wf = true → s.ovr = 0 →
    drawRequestOf i = some r → r.Streams s bpp → exec i s = .next t →
    (r.Intact s →
      t.trace = s.trace ++ drawTrace s.cfg s.orientBase (r.window s.cfg s.orientBase) (r.streamBytes s bpp)) ∧
    (s.xfer = .bulk → s.cfg.bulkCorrupts = true → r.l ≠ 1 →
      ∃ k, s.draws ≤ k ∧
        t.trace = s.trace ++ drawTrace s.cfg s.orientBase (r.window s.cfg s.orientBase)
          (damagedStreamBytes s.mem r.base bpp r.l.toNat r.o.toNat r.npix k) ∧
        HoldsDamage t.mem r.base bpp r.l.toNat r.o.toNat r.npix k)

/-- R178: the number of command and data bytes of a draw, and of its brackets, with and without an override. -/
def Obligations.DrawByteCount : Prop :=
  ∀ (s : State) (i : Instr) (r : DrawRequest) (bpp : Nat), s.cfg.wf = true → s.ovr = 0 →
    drawRequestOf i = some r → r.Streams s bpp →
    ∃ t es, exec i s = .next t ∧ t.trace = s.trace ++ es ∧
      if (r.window s.cfg s.orientBase).ovr = 0 then
        (traceBytes es).length = 11 + r.npix * bpp ∧ (brackets es).map List.length = some 4
      else (traceBytes es).length = 15 + r.npix * bpp ∧ (brackets es).map List.length = some 6

/-- R52, R55: a draw that passes its tests goes through exactly if every pixel it sends is readable; at an unreadable
byte of one the engine is stuck. -/
def Obligations.DrawStuckOnUnreadable : Prop :=
  ∀ (s : State) (i : Instr) (r : DrawRequest) (bpp : Nat), s.cfg.wf = true → s.ovr = 0 →
    drawRequestOf i = some r → r.Passes s bpp →
    ((∀ k, k < r.npix → Readable s.mem (r.address bpp k) bpp) → ∃ t, exec i s = .next t) ∧
    ((∃ k, k < r.npix ∧ ¬ Readable s.mem (r.address bpp k) bpp) →
      ∃ a, r.base.toNat ≤ a ∧ a < r.base.toNat + r.l.toNat * bpp ∧ Memory.read s.mem a = none ∧
        exec i s = .fault (.unreadable a))

/-- R58, R177: what a draw does to memory. Nothing, unless a bulk transfer of the general path on a Transport with the
defect; then every byte of every pixel sent holds a free value, and every other byte what it held. -/
def Obligations.BulkDamage : Prop :=
  ∀ (s t : State) (i : Instr) (r : DrawRequest) (bpp : Nat), s.cfg.wf = true → s.ovr = 0 →
    drawRequestOf i = some r → r.Streams s bpp → exec i s = .next t →
    (s.xfer = .bytewise ∨ s.cfg.bulkCorrupts = false ∨ r.l = 1 → ∀ a, Memory.read t.mem a = Memory.read s.mem a) ∧
    (∀ a, (∀ k, k < r.npix → a < r.address bpp k ∨ r.address bpp k + bpp ≤ a) →
      Memory.read t.mem a = Memory.read s.mem a) ∧
    (s.xfer = .bulk → s.cfg.bulkCorrupts = true → r.l ≠ 1 →
      ∀ k a, k < r.npix → r.address bpp k ≤ a → a < r.address bpp k + bpp →
        ∃ n, Memory.read t.mem a = some (Config.freeByte n))

/-- R57: the transfer mode never changes the trace of a draw whose source bytes are intact. -/
def Obligations.TransferModesSendTheSame : Prop :=
  ∀ (s : State) (i : Instr) (r : DrawRequest) (bpp : Nat), s.cfg.wf = true → s.ovr = 0 →
    drawRequestOf i = some r → r.Streams s bpp →
    s.cfg.bulkCorrupts = false ∨ r.l = 1 ∨ r.npix ≤ r.l.toNat →
    ∃ t u, exec i { s with xfer := .bytewise } = .next t ∧ exec i { s with xfer := .bulk } = .next u ∧
      t.trace = u.trace

/-- R175: the fast path sends byte for byte what the general path sends. A solid draw and the same draw (pixel, line or
fill, reversed or transposed or not) with a pattern of `l` equal pixels put the same trace on the Transport, from
whatever offsets. -/
def Obligations.FastPathEquivalence : Prop :=
  ∀ (s t u : State) (i i' : Instr) (r : DrawRequest) (l o' : Word) (bpp : Nat), s.cfg.wf = true → s.ovr = 0 →
    drawRequestOf i = some r → r.l = 1 → drawRequestOf i' = some { r with l := l, o := o' } →
    s.fmt.bpp = some bpp → 2 ≤ l.toNat →
    (∀ k, k < l.toNat → pixelAt s.mem r.base bpp k = pixelAt s.mem r.base bpp 0) →
    Readable s.mem r.base.toNat (l.toNat * bpp) →
    s.xfer = .bytewise ∨ s.cfg.bulkCorrupts = false ∨ r.npix ≤ l.toNat →
    exec i s = .next t → exec i' s = .next u → t.trace = u.trace

/-- R170: the transitions of `PHASE` with the events each emits, while the host does nothing. That each transition of a
draw in progress is one step of the machine is the model's choice (log 2). The first, from Idle to WindowProgrammed, is
no step of its own but the function `State.beginDraw`, with which the step that runs a draw request begins; and the wait
of an idle engine (R210) is a step that changes nothing (log 1). -/
def Obligations.PhaseTransitions : Prop :=
  (∀ s : State, s.inbox = [] → s.phase = .idle → step s = .next s) ∧
  (∀ (s : State) (n : Nat) (w : Window), s.ovr = 0 →
    (s.beginDraw n w).phase = .windowProgrammed ∧
    (s.beginDraw n w).trace = s.trace ++ (if w.ovr = 0 then [] else packet s.cfg.cmdMadctl [w.orient]) ++
      packet s.cfg.cmdCaset (be16 w.cs ++ be16 w.ce) ++ packet s.cfg.cmdPaset (be16 w.rs ++ be16 w.re) ∧
    (s.beginDraw n w).ovr = w.ovr) ∧
  (∀ s : State, s.inbox = [] → s.phase = .windowProgrammed →
    ∃ t, step s = .next t ∧ t.phase = .ramArmed ∧ t.trace = s.trace ++ packet s.cfg.cmdRamwr []) ∧
  (∀ s : State, s.inbox = [] → s.phase = .ramArmed →
    ∃ t, step s = .next t ∧ t.phase = .streaming ∧ t.trace = s.trace ++ [.sel]) ∧
  (∀ (s : State) (bpp : Nat), s.inbox = [] → s.phase = .streaming → s.remain ≠ 0 → s.curO.toNat < s.latch.l.toNat →
    s.fmt.bpp = some bpp → Readable s.mem s.latch.base.toNat (s.latch.l.toNat * bpp) →
    (s.latch.l = 1 → s.npix = s.remain) →
    ∃ t, ∃ bytes : List Byte, step s = .next t ∧ t.phase = .streaming ∧ t.trace = s.trace ++ bytes.map Event.dat ∧
      bytes.length = cursorRunLength s.latch.l.toNat s.curO.toNat s.remain.toNat * bpp ∧
      t.remain.toNat = s.remain.toNat - cursorRunLength s.latch.l.toNat s.curO.toNat s.remain.toNat) ∧
  (∀ s : State, s.inbox = [] → s.phase = .streaming → s.remain = 0 →
    ∃ t, step s = .next t ∧ t.phase = .idle ∧ t.ovr = 0 ∧
      t.trace = s.trace ++ [.desel] ++ (if s.ovr = 0 then [] else packet s.cfg.cmdMadctl [s.orientBase]))

/-- R160, R170: the small-step machine, run by `step` with no input from the host, comes from the first transition of
a draw to the very state the draw request leaves. That one step runs a whole request, or one transition of R170 when a
draw is in progress, is the model's choice (log 2). -/
def Obligations.SmallStepsReachTheDraw : Prop :=
  ∀ (s t : State) (bpp n : Nat) (w : Window), s.inbox = [] → s.cfg.wf = true → s.ovr = 0 →
    drawCheck s = .go bpp n w → draw s = .next t →
    ∃ k, stepMany k (s.beginDraw n w) = .next t

/-! ### Device packets (30_encoding.md R89 to R96) -/

/-- CASET and PASET alone (R91 for the payload; that a packet can be presented alone is the model's choice, log 3). -/
def Obligations.RangePacketsComplete : Prop :=
  ∀ (s : State) (a b : Half),
    (∃ t, exec (.caset a b) s = .next t ∧ UnchangedExcept [.trace] s t ∧
      t.trace = s.trace ++ [.sel, .cmd s.cfg.cmdCaset, .dat (a.extractLsb 15 8), .dat (a.extractLsb 7 0),
        .dat (b.extractLsb 15 8), .dat (b.extractLsb 7 0), .desel]) ∧
    (∃ t, exec (.paset a b) s = .next t ∧ UnchangedExcept [.trace] s t ∧
      t.trace = s.trace ++ [.sel, .cmd s.cfg.cmdPaset, .dat (a.extractLsb 15 8), .dat (a.extractLsb 7 0),
        .dat (b.extractLsb 15 8), .dat (b.extractLsb 7 0), .desel])

/-- MADCTL, RAMWR and PIXSET alone (R92, R93, R95 for the payload; log 3). -/
def Obligations.ControlPacketsComplete : Prop :=
  ∀ s : State,
    (∀ v : Byte, ∃ t, exec (.madctl v) s = .next t ∧ UnchangedExcept [.trace] s t ∧
      t.trace = s.trace ++ [.sel, .cmd s.cfg.cmdMadctl, .dat v, .desel]) ∧
    (∃ t, exec .ramwr s = .next t ∧ UnchangedExcept [.trace] s t ∧
      t.trace = s.trace ++ [.sel, .cmd s.cfg.cmdRamwr, .desel]) ∧
    (∃ t, exec (.pixset .bits16) s = .next t ∧ UnchangedExcept [.trace] s t ∧
      t.trace = s.trace ++ [.sel, .cmd s.cfg.cmdPixset, .dat s.cfg.pxlfmt16Code, .desel]) ∧
    (∃ t, exec (.pixset .bits18) s = .next t ∧ UnchangedExcept [.trace] s t ∧
      t.trace = s.trace ++ [.sel, .cmd s.cfg.cmdPixset, .dat s.cfg.pxlfmt18Code, .desel])

/-- A DATA burst alone (R94 for the form; log 3): never empty. -/
def Obligations.DataPacketCompletes : Prop :=
  ∀ (s : State) (bytes : List Byte),
    (bytes ≠ [] → ∃ t, exec (.data bytes) s = .next t ∧ UnchangedExcept [.trace] s t ∧
      t.trace = s.trace ++ ([.sel] ++ bytes.map Event.dat ++ [.desel])) ∧
    (bytes = [] → exec (.data bytes) s = .refused .notAPacket)

/-- R90, R178: which packets each request puts on the Transport: SETFMT one PIXSET, with the format its code selects; a
draw that is void or empty nothing, any other its four or six; every other request nothing. -/
def Obligations.PacketsEmitted : Prop :=
  ∀ (i : Instr) (s t : State), s.cfg.wf = true → s.ovr = 0 → i.isRequest = true → exec i s = .next t →
    ∃ es is, t.trace = s.trace ++ es ∧ packetsOfTrace s.cfg es = some is ∧
      match drawRequestOf i with
      | some r =>
        if r.base = 0 ∨ r.l = 0 ∨ r.npix < 1 then is = []
        else ∃ bytes, bytes ≠ [] ∧ is = drawPackets s.orientBase (r.window s.cfg s.orientBase) bytes
      | none =>
        (∀ code, i = .setfmt code → ∃ enc, encOfCode code = some enc ∧ is = [.pixset enc] ∧ t.fmt = Fmt.ofEnc enc) ∧
          ((∀ code, i ≠ .setfmt code) → is = [])

/-! ### The whole machine -/

/-- The invariant of a request boundary: every step keeps it. -/
def Obligations.StepKeepsInv : Prop :=
  ∀ s t : State, s.Inv → step s = .next t → t.Inv

/-- R40, the boundary invariant: it holds at reset and every instruction keeps it. -/
def Obligations.BoundaryInvariant : Prop :=
  (∀ p : Params, (State.resetOf p).phase = .idle ∧ (State.resetOf p).ovr = 0) ∧
  ∀ (i : Instr) (s t : State), s.phase = .idle → s.ovr = 0 → exec i s = .next t → t.phase = .idle ∧ t.ovr = 0

/-- R30: "Table of who writes what (a request writes nothing outside its row)". The six packets have no row there:
that a packet presented alone writes the trace and nothing else (PIXSET leaves `FMT`) is the model's choice (log 3). -/
def Obligations.WritesOnlyItsRow : Prop :=
  ∀ (i : Instr) (s t : State), exec i s = .next t → UnchangedExcept (mayWrite i) s t

/-- R55: the only requests that access the ColorSource are the four draws: every other instruction does the same
whatever the memory holds, and leaves it alone. -/
def Obligations.OnlyDrawsAccessMemory : Prop :=
  ∀ (i : Instr) (s : State) (m : Memory), drawRequestOf i = none →
    (∀ t, exec i s = .next t → t.mem = s.mem ∧ exec i { s with mem := m } = .next { t with mem := m }) ∧
    (∀ r, exec i s = .refused r → exec i { s with mem := m } = .refused r) ∧
    ∀ f, exec i s ≠ .fault f

/-- R191, R193: an instruction is refused only for the reasons of R193's closed list, each only where its condition
holds, or, an ill-formed packet, as `notAPacket`, which R193 does not list and which is the model's choice (log 3); only
a draw can be stuck, and only on an unreadable byte. -/
def Obligations.StopsOnlyAsListed : Prop :=
  ∀ (i : Instr) (s : State), s.cfg.wf = true → s.ovr = 0 →
    (∀ r, exec i s = .refused r → RefusesOnlyWhen i s r) ∧
    (∀ f, exec i s = .fault f → ∃ r a, drawRequestOf i = some r ∧ f = .unreadable a ∧ Memory.read s.mem a = none)

/-- R148, R169, R219: what the device was last sent as its orientation is `ORIENT_BASE` after every request, if it was
before; and a draw that streams leaves the device's ranges at its window. -/
def Obligations.OrientationRestored : Prop :=
  (∀ (i : Instr) (s t : State) (v d : DeviceView), s.cfg.wf = true → s.ovr = 0 → i.isRequest = true →
    lastSent s.cfg v s.trace = some d → d.orient = some s.orientBase → exec i s = .next t →
    ∃ d', lastSent t.cfg v t.trace = some d' ∧ d'.orient = some t.orientBase) ∧
  (∀ (i : Instr) (s t : State) (r : DrawRequest) (bpp : Nat) (v d : DeviceView), s.cfg.wf = true → s.ovr = 0 →
    drawRequestOf i = some r → r.Streams s bpp → lastSent s.cfg v s.trace = some d → exec i s = .next t →
    ∃ d', lastSent t.cfg v t.trace = some d' ∧ d'.column = some (t.win.cs, t.win.ce) ∧
      d'.row = some (t.win.rs, t.win.re) ∧ d'.format = d.format)

/-- R120, R3: what the device was last sent as its pixel format is the engine's `FMT`, from the first SETFMT on. -/
def Obligations.FormatAgrees : Prop :=
  ∀ (i : Instr) (s t : State) (v d : DeviceView), s.cfg.wf = true → s.ovr = 0 → i.isRequest = true →
    lastSent s.cfg v s.trace = some d → (s.fmt ≠ .unset → d.format.map Fmt.ofEnc = some s.fmt) →
    exec i s = .next t →
    ∃ d', lastSent t.cfg v t.trace = some d' ∧ (t.fmt ≠ .unset → d'.format.map Fmt.ofEnc = some t.fmt)

/-- R112, R50, R171, the host's whole loop: a colour is encoded, its bytes are stored where the host likes, and a
draw of one pixel from there completes and sends exactly the codec's bytes. The form of the host's store is the model's
choice (log 10). -/
def Obligations.EncodeStoreDraw : Prop :=
  ∀ (s : State) (r g b : Byte) (x0 y0 : Half) (base o : Word) (w : Window), s.Inv → s.fmt ≠ .unset →
    base ≠ 0 → base.toNat + 3 ≤ addressLimit → 1 ≤ s.cfg.stageMaxPixels →
    windowOf s.cfg s.orientBase
      { kind := .pixel, x0 := x0.toNat, y0 := y0.toNat, c := 0, d := 0, flags := 0 } = .window w →
    ∃ s1 s2 s3,
      exec (.encode r g b) s = .next s1 ∧
      hostStore base.toNat ([s1.resB0, s1.resB1, s1.resB2].take s1.resN.toNat) s1 = .next s2 ∧
      exec (.drawpixel x0 y0 base 1 o) s2 = .next s3 ∧
      s3.trace = s.trace ++ drawTrace s.cfg s.orientBase w
        (if s.fmt = .fmt16 then enc16 ⟨r, g, b⟩ else enc18 ⟨r, g, b⟩)

end
end

