-- ==== Sys2Proof/Laws/State.lean ====
section
/-! SUPPORT. One lemma per field per named update of the state, true by rfl, so that no proof unfolds a record
update; and the equations of the updates that branch. -/

namespace Sys2Proof.Machine

/-! ### `State.emit` -/

@[simp] theorem State.emit_cfg (s : State) (es : List Event) : (s.emit es).cfg = s.cfg := rfl
@[simp] theorem State.emit_fmt (s : State) (es : List Event) : (s.emit es).fmt = s.fmt := rfl
@[simp] theorem State.emit_xfer (s : State) (es : List Event) : (s.emit es).xfer = s.xfer := rfl
@[simp] theorem State.emit_orientBase (s : State) (es : List Event) : (s.emit es).orientBase = s.orientBase := rfl
@[simp] theorem State.emit_ovr (s : State) (es : List Event) : (s.emit es).ovr = s.ovr := rfl
@[simp] theorem State.emit_phase (s : State) (es : List Event) : (s.emit es).phase = s.phase := rfl
@[simp] theorem State.emit_latch (s : State) (es : List Event) : (s.emit es).latch = s.latch := rfl
@[simp] theorem State.emit_npix (s : State) (es : List Event) : (s.emit es).npix = s.npix := rfl
@[simp] theorem State.emit_remain (s : State) (es : List Event) : (s.emit es).remain = s.remain := rfl
@[simp] theorem State.emit_curO (s : State) (es : List Event) : (s.emit es).curO = s.curO := rfl
@[simp] theorem State.emit_win (s : State) (es : List Event) : (s.emit es).win = s.win := rfl
@[simp] theorem State.emit_resB0 (s : State) (es : List Event) : (s.emit es).resB0 = s.resB0 := rfl
@[simp] theorem State.emit_resB1 (s : State) (es : List Event) : (s.emit es).resB1 = s.resB1 := rfl
@[simp] theorem State.emit_resB2 (s : State) (es : List Event) : (s.emit es).resB2 = s.resB2 := rfl
@[simp] theorem State.emit_resN (s : State) (es : List Event) : (s.emit es).resN = s.resN := rfl
@[simp] theorem State.emit_resRun (s : State) (es : List Event) : (s.emit es).resRun = s.resRun := rfl
@[simp] theorem State.emit_resO (s : State) (es : List Event) : (s.emit es).resO = s.resO := rfl
@[simp] theorem State.emit_stage (s : State) (es : List Event) : (s.emit es).stage = s.stage := rfl
@[simp] theorem State.emit_mem (s : State) (es : List Event) : (s.emit es).mem = s.mem := rfl
@[simp] theorem State.emit_trace (s : State) (es : List Event) : (s.emit es).trace = s.trace ++ es := rfl
@[simp] theorem State.emit_inbox (s : State) (es : List Event) : (s.emit es).inbox = s.inbox := rfl
@[simp] theorem State.emit_draws (s : State) (es : List Event) : (s.emit es).draws = s.draws := rfl
@[simp] theorem State.emit_written (s : State) (es : List Event) : (s.emit es).written = s.written := rfl
@[simp] theorem State.emit_resets (s : State) (es : List Event) : (s.emit es).resets = s.resets := rfl

/-! ### `State.accept` -/

@[simp] theorem State.accept_cfg (s : State) (k : BitVec 2) (f : BitVec 3) (o : Operands) : (s.accept k f o).cfg = s.cfg := rfl
@[simp] theorem State.accept_fmt (s : State) (k : BitVec 2) (f : BitVec 3) (o : Operands) : (s.accept k f o).fmt = s.fmt := rfl
@[simp] theorem State.accept_xfer (s : State) (k : BitVec 2) (f : BitVec 3) (o : Operands) : (s.accept k f o).xfer = s.xfer := rfl
@[simp] theorem State.accept_orientBase (s : State) (k : BitVec 2) (f : BitVec 3) (o : Operands) : (s.accept k f o).orientBase = s.orientBase := rfl
@[simp] theorem State.accept_ovr (s : State) (k : BitVec 2) (f : BitVec 3) (o : Operands) : (s.accept k f o).ovr = s.ovr := rfl
@[simp] theorem State.accept_phase (s : State) (k : BitVec 2) (f : BitVec 3) (o : Operands) : (s.accept k f o).phase = s.phase := rfl
@[simp] theorem State.accept_latch (s : State) (k : BitVec 2) (f : BitVec 3) (o : Operands) : (s.accept k f o).latch = latchOf k f o s.draws := rfl
@[simp] theorem State.accept_npix (s : State) (k : BitVec 2) (f : BitVec 3) (o : Operands) : (s.accept k f o).npix = s.npix := rfl
@[simp] theorem State.accept_remain (s : State) (k : BitVec 2) (f : BitVec 3) (o : Operands) : (s.accept k f o).remain = s.remain := rfl
@[simp] theorem State.accept_curO (s : State) (k : BitVec 2) (f : BitVec 3) (o : Operands) : (s.accept k f o).curO = s.curO := rfl
@[simp] theorem State.accept_win (s : State) (k : BitVec 2) (f : BitVec 3) (o : Operands) : (s.accept k f o).win = s.win := rfl
@[simp] theorem State.accept_resB0 (s : State) (k : BitVec 2) (f : BitVec 3) (o : Operands) : (s.accept k f o).resB0 = s.resB0 := rfl
@[simp] theorem State.accept_resB1 (s : State) (k : BitVec 2) (f : BitVec 3) (o : Operands) : (s.accept k f o).resB1 = s.resB1 := rfl
@[simp] theorem State.accept_resB2 (s : State) (k : BitVec 2) (f : BitVec 3) (o : Operands) : (s.accept k f o).resB2 = s.resB2 := rfl
@[simp] theorem State.accept_resN (s : State) (k : BitVec 2) (f : BitVec 3) (o : Operands) : (s.accept k f o).resN = s.resN := rfl
@[simp] theorem State.accept_resRun (s : State) (k : BitVec 2) (f : BitVec 3) (o : Operands) : (s.accept k f o).resRun = s.resRun := rfl
@[simp] theorem State.accept_resO (s : State) (k : BitVec 2) (f : BitVec 3) (o : Operands) : (s.accept k f o).resO = s.resO := rfl
@[simp] theorem State.accept_stage (s : State) (k : BitVec 2) (f : BitVec 3) (o : Operands) : (s.accept k f o).stage = s.stage := rfl
@[simp] theorem State.accept_mem (s : State) (k : BitVec 2) (f : BitVec 3) (o : Operands) : (s.accept k f o).mem = s.mem := rfl
@[simp] theorem State.accept_trace (s : State) (k : BitVec 2) (f : BitVec 3) (o : Operands) : (s.accept k f o).trace = s.trace := rfl
@[simp] theorem State.accept_inbox (s : State) (k : BitVec 2) (f : BitVec 3) (o : Operands) : (s.accept k f o).inbox = s.inbox := rfl
@[simp] theorem State.accept_draws (s : State) (k : BitVec 2) (f : BitVec 3) (o : Operands) : (s.accept k f o).draws = s.draws + 7 := rfl
@[simp] theorem State.accept_written (s : State) (k : BitVec 2) (f : BitVec 3) (o : Operands) : (s.accept k f o).written = s.written := rfl
@[simp] theorem State.accept_resets (s : State) (k : BitVec 2) (f : BitVec 3) (o : Operands) : (s.accept k f o).resets = s.resets := rfl

/-! ### `State.setWindow` -/

@[simp] theorem State.setWindow_cfg (s : State) (w : Window) : (s.setWindow w).cfg = s.cfg := rfl
@[simp] theorem State.setWindow_fmt (s : State) (w : Window) : (s.setWindow w).fmt = s.fmt := rfl
@[simp] theorem State.setWindow_xfer (s : State) (w : Window) : (s.setWindow w).xfer = s.xfer := rfl
@[simp] theorem State.setWindow_orientBase (s : State) (w : Window) : (s.setWindow w).orientBase = s.orientBase := rfl
@[simp] theorem State.setWindow_ovr (s : State) (w : Window) : (s.setWindow w).ovr = s.ovr := rfl
@[simp] theorem State.setWindow_phase (s : State) (w : Window) : (s.setWindow w).phase = s.phase := rfl
@[simp] theorem State.setWindow_latch (s : State) (w : Window) : (s.setWindow w).latch = s.latch := rfl
@[simp] theorem State.setWindow_npix (s : State) (w : Window) : (s.setWindow w).npix = s.npix := rfl
@[simp] theorem State.setWindow_remain (s : State) (w : Window) : (s.setWindow w).remain = s.remain := rfl
@[simp] theorem State.setWindow_curO (s : State) (w : Window) : (s.setWindow w).curO = s.curO := rfl
@[simp] theorem State.setWindow_win (s : State) (w : Window) : (s.setWindow w).win = w := rfl
@[simp] theorem State.setWindow_resB0 (s : State) (w : Window) : (s.setWindow w).resB0 = s.resB0 := rfl
@[simp] theorem State.setWindow_resB1 (s : State) (w : Window) : (s.setWindow w).resB1 = s.resB1 := rfl
@[simp] theorem State.setWindow_resB2 (s : State) (w : Window) : (s.setWindow w).resB2 = s.resB2 := rfl
@[simp] theorem State.setWindow_resN (s : State) (w : Window) : (s.setWindow w).resN = s.resN := rfl
@[simp] theorem State.setWindow_resRun (s : State) (w : Window) : (s.setWindow w).resRun = s.resRun := rfl
@[simp] theorem State.setWindow_resO (s : State) (w : Window) : (s.setWindow w).resO = s.resO := rfl
@[simp] theorem State.setWindow_stage (s : State) (w : Window) : (s.setWindow w).stage = s.stage := rfl
@[simp] theorem State.setWindow_mem (s : State) (w : Window) : (s.setWindow w).mem = s.mem := rfl
@[simp] theorem State.setWindow_trace (s : State) (w : Window) : (s.setWindow w).trace = s.trace := rfl
@[simp] theorem State.setWindow_inbox (s : State) (w : Window) : (s.setWindow w).inbox = s.inbox := rfl
@[simp] theorem State.setWindow_draws (s : State) (w : Window) : (s.setWindow w).draws = s.draws := rfl
@[simp] theorem State.setWindow_written (s : State) (w : Window) : (s.setWindow w).written = { s.written with win := true } := rfl
@[simp] theorem State.setWindow_resets (s : State) (w : Window) : (s.setWindow w).resets = s.resets := rfl

/-! ### `State.loadStream` -/

@[simp] theorem State.loadStream_cfg (s : State) (n : Nat) : (s.loadStream n).cfg = s.cfg := rfl
@[simp] theorem State.loadStream_fmt (s : State) (n : Nat) : (s.loadStream n).fmt = s.fmt := rfl
@[simp] theorem State.loadStream_xfer (s : State) (n : Nat) : (s.loadStream n).xfer = s.xfer := rfl
@[simp] theorem State.loadStream_orientBase (s : State) (n : Nat) : (s.loadStream n).orientBase = s.orientBase := rfl
@[simp] theorem State.loadStream_ovr (s : State) (n : Nat) : (s.loadStream n).ovr = s.ovr := rfl
@[simp] theorem State.loadStream_phase (s : State) (n : Nat) : (s.loadStream n).phase = s.phase := rfl
@[simp] theorem State.loadStream_latch (s : State) (n : Nat) : (s.loadStream n).latch = s.latch := rfl
@[simp] theorem State.loadStream_npix (s : State) (n : Nat) : (s.loadStream n).npix = BitVec.ofNat 32 n := rfl
@[simp] theorem State.loadStream_remain (s : State) (n : Nat) : (s.loadStream n).remain = BitVec.ofNat 32 n := rfl
@[simp] theorem State.loadStream_curO (s : State) (n : Nat) : (s.loadStream n).curO = BitVec.ofNat 32 (cursorNorm s.latch.l.toNat s.latch.oreq.toNat) := rfl
@[simp] theorem State.loadStream_win (s : State) (n : Nat) : (s.loadStream n).win = s.win := rfl
@[simp] theorem State.loadStream_resB0 (s : State) (n : Nat) : (s.loadStream n).resB0 = s.resB0 := rfl
@[simp] theorem State.loadStream_resB1 (s : State) (n : Nat) : (s.loadStream n).resB1 = s.resB1 := rfl
@[simp] theorem State.loadStream_resB2 (s : State) (n : Nat) : (s.loadStream n).resB2 = s.resB2 := rfl
@[simp] theorem State.loadStream_resN (s : State) (n : Nat) : (s.loadStream n).resN = s.resN := rfl
@[simp] theorem State.loadStream_resRun (s : State) (n : Nat) : (s.loadStream n).resRun = s.resRun := rfl
@[simp] theorem State.loadStream_resO (s : State) (n : Nat) : (s.loadStream n).resO = s.resO := rfl
@[simp] theorem State.loadStream_stage (s : State) (n : Nat) : (s.loadStream n).stage = s.stage := rfl
@[simp] theorem State.loadStream_mem (s : State) (n : Nat) : (s.loadStream n).mem = s.mem := rfl
@[simp] theorem State.loadStream_trace (s : State) (n : Nat) : (s.loadStream n).trace = s.trace := rfl
@[simp] theorem State.loadStream_inbox (s : State) (n : Nat) : (s.loadStream n).inbox = s.inbox := rfl
@[simp] theorem State.loadStream_draws (s : State) (n : Nat) : (s.loadStream n).draws = s.draws := rfl
@[simp] theorem State.loadStream_written (s : State) (n : Nat) : (s.loadStream n).written = { s.written with stream := true } := rfl
@[simp] theorem State.loadStream_resets (s : State) (n : Nat) : (s.loadStream n).resets = s.resets := rfl

/-! ### `State.releaseStage` -/

@[simp] theorem State.releaseStage_cfg (s : State) : s.releaseStage.cfg = s.cfg := rfl
@[simp] theorem State.releaseStage_fmt (s : State) : s.releaseStage.fmt = s.fmt := rfl
@[simp] theorem State.releaseStage_xfer (s : State) : s.releaseStage.xfer = s.xfer := rfl
@[simp] theorem State.releaseStage_orientBase (s : State) : s.releaseStage.orientBase = s.orientBase := rfl
@[simp] theorem State.releaseStage_ovr (s : State) : s.releaseStage.ovr = s.ovr := rfl
@[simp] theorem State.releaseStage_phase (s : State) : s.releaseStage.phase = s.phase := rfl
@[simp] theorem State.releaseStage_latch (s : State) : s.releaseStage.latch = s.latch := rfl
@[simp] theorem State.releaseStage_npix (s : State) : s.releaseStage.npix = s.npix := rfl
@[simp] theorem State.releaseStage_remain (s : State) : s.releaseStage.remain = s.remain := rfl
@[simp] theorem State.releaseStage_curO (s : State) : s.releaseStage.curO = s.curO := rfl
@[simp] theorem State.releaseStage_win (s : State) : s.releaseStage.win = s.win := rfl
@[simp] theorem State.releaseStage_resB0 (s : State) : s.releaseStage.resB0 = s.resB0 := rfl
@[simp] theorem State.releaseStage_resB1 (s : State) : s.releaseStage.resB1 = s.resB1 := rfl
@[simp] theorem State.releaseStage_resB2 (s : State) : s.releaseStage.resB2 = s.resB2 := rfl
@[simp] theorem State.releaseStage_resN (s : State) : s.releaseStage.resN = s.resN := rfl
@[simp] theorem State.releaseStage_resRun (s : State) : s.releaseStage.resRun = s.resRun := rfl
@[simp] theorem State.releaseStage_resO (s : State) : s.releaseStage.resO = s.resO := rfl
@[simp] theorem State.releaseStage_stage (s : State) : s.releaseStage.stage = freeBytes s.draws s.stage.length := rfl
@[simp] theorem State.releaseStage_mem (s : State) : s.releaseStage.mem = s.mem := rfl
@[simp] theorem State.releaseStage_trace (s : State) : s.releaseStage.trace = s.trace := rfl
@[simp] theorem State.releaseStage_inbox (s : State) : s.releaseStage.inbox = s.inbox := rfl
@[simp] theorem State.releaseStage_draws (s : State) : s.releaseStage.draws = s.draws + s.stage.length := rfl
@[simp] theorem State.releaseStage_written (s : State) : s.releaseStage.written = s.written := rfl
@[simp] theorem State.releaseStage_resets (s : State) : s.releaseStage.resets = s.resets := rfl

/-! ### `State.presentNext` -/

@[simp] theorem State.presentNext_cfg (s : State) (w : Wire) : (s.presentNext w).cfg = s.cfg := rfl
@[simp] theorem State.presentNext_fmt (s : State) (w : Wire) : (s.presentNext w).fmt = s.fmt := rfl
@[simp] theorem State.presentNext_xfer (s : State) (w : Wire) : (s.presentNext w).xfer = s.xfer := rfl
@[simp] theorem State.presentNext_orientBase (s : State) (w : Wire) : (s.presentNext w).orientBase = s.orientBase := rfl
@[simp] theorem State.presentNext_ovr (s : State) (w : Wire) : (s.presentNext w).ovr = s.ovr := rfl
@[simp] theorem State.presentNext_phase (s : State) (w : Wire) : (s.presentNext w).phase = s.phase := rfl
@[simp] theorem State.presentNext_latch (s : State) (w : Wire) : (s.presentNext w).latch = s.latch := rfl
@[simp] theorem State.presentNext_npix (s : State) (w : Wire) : (s.presentNext w).npix = s.npix := rfl
@[simp] theorem State.presentNext_remain (s : State) (w : Wire) : (s.presentNext w).remain = s.remain := rfl
@[simp] theorem State.presentNext_curO (s : State) (w : Wire) : (s.presentNext w).curO = s.curO := rfl
@[simp] theorem State.presentNext_win (s : State) (w : Wire) : (s.presentNext w).win = s.win := rfl
@[simp] theorem State.presentNext_resB0 (s : State) (w : Wire) : (s.presentNext w).resB0 = s.resB0 := rfl
@[simp] theorem State.presentNext_resB1 (s : State) (w : Wire) : (s.presentNext w).resB1 = s.resB1 := rfl
@[simp] theorem State.presentNext_resB2 (s : State) (w : Wire) : (s.presentNext w).resB2 = s.resB2 := rfl
@[simp] theorem State.presentNext_resN (s : State) (w : Wire) : (s.presentNext w).resN = s.resN := rfl
@[simp] theorem State.presentNext_resRun (s : State) (w : Wire) : (s.presentNext w).resRun = s.resRun := rfl
@[simp] theorem State.presentNext_resO (s : State) (w : Wire) : (s.presentNext w).resO = s.resO := rfl
@[simp] theorem State.presentNext_stage (s : State) (w : Wire) : (s.presentNext w).stage = s.stage := rfl
@[simp] theorem State.presentNext_mem (s : State) (w : Wire) : (s.presentNext w).mem = s.mem := rfl
@[simp] theorem State.presentNext_trace (s : State) (w : Wire) : (s.presentNext w).trace = s.trace := rfl
@[simp] theorem State.presentNext_inbox (s : State) (w : Wire) : (s.presentNext w).inbox = .present w :: s.inbox := rfl
@[simp] theorem State.presentNext_draws (s : State) (w : Wire) : (s.presentNext w).draws = s.draws := rfl
@[simp] theorem State.presentNext_written (s : State) (w : Wire) : (s.presentNext w).written = s.written := rfl
@[simp] theorem State.presentNext_resets (s : State) (w : Wire) : (s.presentNext w).resets = s.resets := rfl

/-! ### `State.armRam` -/

@[simp] theorem State.armRam_cfg (s : State) : s.armRam.cfg = s.cfg := rfl
@[simp] theorem State.armRam_fmt (s : State) : s.armRam.fmt = s.fmt := rfl
@[simp] theorem State.armRam_xfer (s : State) : s.armRam.xfer = s.xfer := rfl
@[simp] theorem State.armRam_orientBase (s : State) : s.armRam.orientBase = s.orientBase := rfl
@[simp] theorem State.armRam_ovr (s : State) : s.armRam.ovr = s.ovr := rfl
@[simp] theorem State.armRam_phase (s : State) : s.armRam.phase = .ramArmed := rfl
@[simp] theorem State.armRam_latch (s : State) : s.armRam.latch = s.latch := rfl
@[simp] theorem State.armRam_npix (s : State) : s.armRam.npix = s.npix := rfl
@[simp] theorem State.armRam_remain (s : State) : s.armRam.remain = s.remain := rfl
@[simp] theorem State.armRam_curO (s : State) : s.armRam.curO = s.curO := rfl
@[simp] theorem State.armRam_win (s : State) : s.armRam.win = s.win := rfl
@[simp] theorem State.armRam_resB0 (s : State) : s.armRam.resB0 = s.resB0 := rfl
@[simp] theorem State.armRam_resB1 (s : State) : s.armRam.resB1 = s.resB1 := rfl
@[simp] theorem State.armRam_resB2 (s : State) : s.armRam.resB2 = s.resB2 := rfl
@[simp] theorem State.armRam_resN (s : State) : s.armRam.resN = s.resN := rfl
@[simp] theorem State.armRam_resRun (s : State) : s.armRam.resRun = s.resRun := rfl
@[simp] theorem State.armRam_resO (s : State) : s.armRam.resO = s.resO := rfl
@[simp] theorem State.armRam_stage (s : State) : s.armRam.stage = s.stage := rfl
@[simp] theorem State.armRam_mem (s : State) : s.armRam.mem = s.mem := rfl
@[simp] theorem State.armRam_trace (s : State) : s.armRam.trace = s.trace ++ packet s.cfg.cmdRamwr [] := rfl
@[simp] theorem State.armRam_inbox (s : State) : s.armRam.inbox = s.inbox := rfl
@[simp] theorem State.armRam_draws (s : State) : s.armRam.draws = s.draws := rfl
@[simp] theorem State.armRam_written (s : State) : s.armRam.written = s.written := rfl
@[simp] theorem State.armRam_resets (s : State) : s.armRam.resets = s.resets := rfl

/-! ### `State.openBurst` -/

@[simp] theorem State.openBurst_cfg (s : State) : s.openBurst.cfg = s.cfg := rfl
@[simp] theorem State.openBurst_fmt (s : State) : s.openBurst.fmt = s.fmt := rfl
@[simp] theorem State.openBurst_xfer (s : State) : s.openBurst.xfer = s.xfer := rfl
@[simp] theorem State.openBurst_orientBase (s : State) : s.openBurst.orientBase = s.orientBase := rfl
@[simp] theorem State.openBurst_ovr (s : State) : s.openBurst.ovr = s.ovr := rfl
@[simp] theorem State.openBurst_phase (s : State) : s.openBurst.phase = .streaming := rfl
@[simp] theorem State.openBurst_latch (s : State) : s.openBurst.latch = s.latch := rfl
@[simp] theorem State.openBurst_npix (s : State) : s.openBurst.npix = s.npix := rfl
@[simp] theorem State.openBurst_remain (s : State) : s.openBurst.remain = s.remain := rfl
@[simp] theorem State.openBurst_curO (s : State) : s.openBurst.curO = s.curO := rfl
@[simp] theorem State.openBurst_win (s : State) : s.openBurst.win = s.win := rfl
@[simp] theorem State.openBurst_resB0 (s : State) : s.openBurst.resB0 = s.resB0 := rfl
@[simp] theorem State.openBurst_resB1 (s : State) : s.openBurst.resB1 = s.resB1 := rfl
@[simp] theorem State.openBurst_resB2 (s : State) : s.openBurst.resB2 = s.resB2 := rfl
@[simp] theorem State.openBurst_resN (s : State) : s.openBurst.resN = s.resN := rfl
@[simp] theorem State.openBurst_resRun (s : State) : s.openBurst.resRun = s.resRun := rfl
@[simp] theorem State.openBurst_resO (s : State) : s.openBurst.resO = s.resO := rfl
@[simp] theorem State.openBurst_stage (s : State) : s.openBurst.stage = s.stage := rfl
@[simp] theorem State.openBurst_mem (s : State) : s.openBurst.mem = s.mem := rfl
@[simp] theorem State.openBurst_trace (s : State) : s.openBurst.trace = s.trace ++ [.sel] := rfl
@[simp] theorem State.openBurst_inbox (s : State) : s.openBurst.inbox = s.inbox := rfl
@[simp] theorem State.openBurst_draws (s : State) : s.openBurst.draws = s.draws := rfl
@[simp] theorem State.openBurst_written (s : State) : s.openBurst.written = s.written := rfl
@[simp] theorem State.openBurst_resets (s : State) : s.openBurst.resets = s.resets := rfl

/-! ### Packets are emissions -/

@[simp] theorem State.sendCaset_eq (s : State) (first last : Half) :
    s.sendCaset first last = s.emit (packet s.cfg.cmdCaset (be16 first ++ be16 last)) := rfl
@[simp] theorem State.sendPaset_eq (s : State) (first last : Half) :
    s.sendPaset first last = s.emit (packet s.cfg.cmdPaset (be16 first ++ be16 last)) := rfl
@[simp] theorem State.sendMadctl_eq (s : State) (orient : Byte) :
    s.sendMadctl orient = s.emit (packet s.cfg.cmdMadctl [orient]) := rfl
@[simp] theorem State.sendRamwr_eq (s : State) : s.sendRamwr = s.emit (packet s.cfg.cmdRamwr []) := rfl
@[simp] theorem State.sendData_eq (s : State) (bytes : List Byte) : s.sendData bytes = s.emit (burst bytes) := rfl
@[simp] theorem State.sendPixset_eq (s : State) (enc : PixEnc) :
    s.sendPixset enc = s.emit (packet s.cfg.cmdPixset [enc.payload s.cfg]) := rfl

/-- Two emissions are one. -/
theorem State.emit_emit (s : State) (es fs : List Event) : (s.emit es).emit fs = s.emit (es ++ fs) := by
  simp [State.emit, List.append_assoc]

/-! ### Free bytes -/

@[simp] theorem freeBytes_length (k n : Nat) : (freeBytes k n).length = n := by
  induction n generalizing k with
  | zero => rfl
  | succ n ih => simp [freeBytes, ih]

/-! ### What the host reads -/

theorem hostRead_busy {s : State} (r : HostReg) (h : s.phase ≠ .idle) : hostRead r s = .error .readDuringDraw :=
  if_pos h

/-- A register that reset or a request wrote reads as what it holds. -/
theorem hostRead_held {s : State} {r : HostReg} (h : s.phase = .idle) (hr : s.holdsValue r = true) :
    hostRead r s = .ok (s.regValue r) := by
  simp [hostRead, h, hr]

/-- A register that nothing has written since reset reads as the value chosen at reset. -/
theorem hostRead_unspecified {s : State} {r : HostReg} (h : s.phase = .idle) (hr : s.holdsValue r = false) :
    hostRead r s = .ok (unspecifiedValue s.resets r) := by
  simp [hostRead, h, hr]

theorem unspecifiedValue_lt (k : Nat) (r : HostReg) : unspecifiedValue k r < 2 ^ r.width :=
  Nat.mod_lt _ (Nat.two_pow_pos _)

theorem State.regValue_lt (s : State) (r : HostReg) : s.regValue r < 2 ^ r.width := by
  cases r <;> exact BitVec.isLt _

/-- At a request boundary every register reads, as a number of its width. -/
theorem hostRead_idle {s : State} (r : HostReg) (h : s.phase = .idle) :
    ∃ v, hostRead r s = .ok v ∧ v < 2 ^ r.width := by
  cases hr : s.holdsValue r with
  | true => exact ⟨_, hostRead_held h hr, s.regValue_lt r⟩
  | false => exact ⟨_, hostRead_unspecified h hr, unspecifiedValue_lt _ r⟩

/-! ### The latch -/

@[simp] theorem kindOfCode_kindCode (k : Kind) : kindOfCode (kindCode k) = k := by cases k <;> rfl

/-- What `bpp()` can be (42_pixel_format_config.md R122). -/
theorem Fmt.bpp_eq_some {f : Fmt} {bpp : Nat} (h : f.bpp = some bpp) : bpp = 2 ∨ bpp = 3 := by
  cases f <;> simp [Fmt.bpp] at h <;> omega

end Sys2Proof.Machine
end

