-- ==== Sys2Proof/Laws/Memory.lean ====
section
/-! SUPPORT. The laws of the ColorSource memory: read after write, and that every operation keeps the canonical
form. -/

namespace Sys2Proof.Machine

/-! ### One byte -/

theorem Memory.read_write_same (m : Memory) (k : Nat) (v : Byte) : Memory.read (Memory.write m k v) k = some v := by
  induction m with
  | nil => simp [Memory.write, Memory.read]
  | cons c rest ih =>
    obtain ⟨a, b⟩ := c
    simp only [Memory.write]
    split
    · simp [Memory.read]
    · split
      · simp [Memory.read]
      · simp_all [Memory.read]

theorem Memory.read_write_other (m : Memory) {k a : Nat} (v : Byte) (h : a ≠ k) :
    Memory.read (Memory.write m k v) a = Memory.read m a := by
  induction m with
  | nil => simp [Memory.write, Memory.read, Ne.symm h]
  | cons c rest ih =>
    obtain ⟨x, b⟩ := c
    simp only [Memory.write]
    split
    · simp [Memory.read, Ne.symm h]
    · split
      · rename_i _ hx
        subst hx
        simp [Memory.read, Ne.symm h]
      · simp [Memory.read, ih]

theorem Memory.risingFrom_mono {m : Memory} {i j : Nat} (h : i ≤ j) (hm : Memory.risingFrom j m = true) :
    Memory.risingFrom i m = true := by
  cases m with
  | nil => rfl
  | cons c rest =>
    obtain ⟨a, b⟩ := c
    simp only [Memory.risingFrom, Bool.and_eq_true, decide_eq_true_eq] at hm ⊢
    exact ⟨⟨by omega, hm.1.2⟩, hm.2⟩

theorem Memory.risingFrom_write {m : Memory} {i k : Nat} (v : Byte) (hm : Memory.risingFrom i m = true)
    (hi : i ≤ k) (hk : k < addressLimit) : Memory.risingFrom i (Memory.write m k v) = true := by
  induction m generalizing i with
  | nil => simp [Memory.write, Memory.risingFrom, hi, hk]
  | cons c rest ih =>
    obtain ⟨a, b⟩ := c
    simp only [Memory.risingFrom, Bool.and_eq_true, decide_eq_true_eq] at hm
    simp only [Memory.write]
    split
    · rename_i h
      simp only [Memory.risingFrom, Bool.and_eq_true, decide_eq_true_eq]
      exact ⟨⟨hi, hk⟩, ⟨by omega, hm.1.2⟩, hm.2⟩
    · split
      · rename_i _ h
        subst h
        simp only [Memory.risingFrom, Bool.and_eq_true, decide_eq_true_eq]
        exact hm
      · rename_i h1 h2
        simp only [Memory.risingFrom, Bool.and_eq_true, decide_eq_true_eq]
        exact ⟨hm.1, ih hm.2 (by omega)⟩

/-- A write inside the address space keeps the canonical form. -/
theorem Memory.wf_write {m : Memory} {k : Nat} (v : Byte) (hm : Memory.wf m = true) (hk : k < addressLimit) :
    Memory.wf (Memory.write m k v) = true :=
  Memory.risingFrom_write v hm (Nat.zero_le k) hk

/-- A canonical memory lists no address outside the address space. -/
theorem Memory.read_of_risingFrom {m : Memory} {i a : Nat} (hm : Memory.risingFrom i m = true)
    (h : (Memory.read m a).isSome = true) : a < addressLimit := by
  induction m generalizing i with
  | nil => simp [Memory.read] at h
  | cons c rest ih =>
    obtain ⟨x, b⟩ := c
    simp only [Memory.risingFrom, Bool.and_eq_true, decide_eq_true_eq] at hm
    simp only [Memory.read] at h
    split at h
    · omega
    · exact ih hm.2 h

/-! ### Sequences of bytes -/

theorem Memory.wf_writeBytes {m : Memory} {addr : Nat} (bs : List Byte) (hm : Memory.wf m = true)
    (h : addr + bs.length ≤ addressLimit) : Memory.wf (Memory.writeBytes m addr bs) = true := by
  induction bs generalizing m addr with
  | nil => exact hm
  | cons b bs ih =>
    simp only [List.length_cons] at h
    exact ih (Memory.wf_write b hm (by omega)) (by omega)

theorem Memory.read_writeBytes_other (m : Memory) {addr a : Nat} (bs : List Byte)
    (h : a < addr ∨ addr + bs.length ≤ a) : Memory.read (Memory.writeBytes m addr bs) a = Memory.read m a := by
  induction bs generalizing m addr with
  | nil => rfl
  | cons b bs ih =>
    simp only [List.length_cons] at h
    simp only [Memory.writeBytes]
    rw [ih _ (by omega), Memory.read_write_other _ _ (by omega)]

theorem Memory.read_writeBytes_same (m : Memory) {addr : Nat} (bs : List Byte) {i : Nat} (h : i < bs.length) :
    Memory.read (Memory.writeBytes m addr bs) (addr + i) = bs[i]? := by
  induction bs generalizing m addr i with
  | nil => simp at h
  | cons b bs ih =>
    simp only [Memory.writeBytes]
    cases i with
    | zero =>
      rw [Memory.read_writeBytes_other _ _ (by omega)]
      simp [Memory.read_write_same]
    | succ i =>
      have h' : i < bs.length := by simpa using h
      have e : addr + (i + 1) = (addr + 1) + i := by omega
      rw [e, ih _ h']
      simp

/-- A write never makes an address unreadable. -/
theorem Memory.isSome_read_writeBytes (m : Memory) (addr a : Nat) (bs : List Byte)
    (h : (Memory.read m a).isSome = true) : (Memory.read (Memory.writeBytes m addr bs) a).isSome = true := by
  by_cases ha : a < addr ∨ addr + bs.length ≤ a
  · rw [Memory.read_writeBytes_other _ _ ha]
    exact h
  · have hi : a - addr < bs.length := by omega
    have e : a = addr + (a - addr) := by omega
    rw [e, Memory.read_writeBytes_same _ _ hi]
    simp [hi]

theorem freeBytes_getElem? (k : Nat) {n i : Nat} (h : i < n) : (freeBytes k n)[i]? = some (Config.freeByte (k + i)) := by
  induction n generalizing k i with
  | zero => omega
  | succ n ih =>
    cases i with
    | zero => simp [freeBytes]
    | succ i =>
      simp only [freeBytes, List.getElem?_cons_succ]
      rw [ih (k + 1) (by omega)]
      congr 2
      omega

/-- Free bytes just written are read back (20_memory.md R58). -/
theorem Memory.read_writeBytes_free (m : Memory) (addr k : Nat) {n i : Nat} (h : i < n) :
    Memory.read (Memory.writeBytes m addr (freeBytes k n)) (addr + i) = some (Config.freeByte (k + i)) := by
  rw [Memory.read_writeBytes_same _ _ (by rw [freeBytes_length]; exact h), freeBytes_getElem? k h]

/-- Where each of `n` bytes is a free byte, in order, the free bytes are what is read. -/
theorem Memory.readBytes_free {m : Memory} {addr k n : Nat}
    (h : ∀ b, b < n → Memory.read m (addr + b) = some (Config.freeByte (k + b))) :
    Memory.readBytes m addr n = some (freeBytes k n) := by
  induction n generalizing addr k with
  | zero => rfl
  | succ n ih =>
    have h0 : Memory.read m addr = some (Config.freeByte k) := h 0 (by omega)
    have hs := ih (addr := addr + 1) (k := k + 1) fun b hb => by
      rw [show addr + 1 + b = addr + (b + 1) by omega, show k + 1 + b = k + (b + 1) by omega]
      exact h (b + 1) (by omega)
    simp only [Memory.readBytes, h0, hs, freeBytes]

theorem Readable.writeBytes {m : Memory} {addr n : Nat} (a : Nat) (bs : List Byte) (h : Readable m addr n) :
    Readable (Memory.writeBytes m a bs) addr n :=
  fun x h1 h2 => Memory.isSome_read_writeBytes m a x bs (h x h1 h2)

theorem Readable.sub {m : Memory} {addr n addr' n' : Nat} (h : Readable m addr n) (h1 : addr ≤ addr')
    (h2 : addr' + n' ≤ addr + n) : Readable m addr' n' :=
  fun x hx1 hx2 => h x (by omega) (by omega)

theorem Memory.readBytes_length {m : Memory} {addr n : Nat} {bs : List Byte}
    (h : Memory.readBytes m addr n = some bs) : bs.length = n := by
  induction n generalizing addr bs with
  | zero => simp only [Memory.readBytes, Option.some.injEq] at h; simp [← h]
  | succ n ih =>
    simp only [Memory.readBytes] at h
    split at h
    · rename_i b bs' h1 h2
      simp only [Option.some.injEq] at h
      subst h
      simp [ih h2]
    · simp at h

/-- Reading a readable range gives bytes. -/
theorem Memory.readBytes_of_readable {m : Memory} {addr n : Nat} (h : Readable m addr n) :
    ∃ bs, Memory.readBytes m addr n = some bs := by
  induction n generalizing addr with
  | zero => exact ⟨[], rfl⟩
  | succ n ih =>
    obtain ⟨bs, hbs⟩ := ih (addr := addr + 1) (h.sub (by omega) (by omega))
    obtain ⟨b, hb⟩ := Option.isSome_iff_exists.mp (h addr (Nat.le_refl _) (by omega))
    exact ⟨b :: bs, by simp [Memory.readBytes, hb, hbs]⟩

/-- Bytes come only from a readable range. -/
theorem Memory.readable_of_readBytes {m : Memory} {addr n : Nat} {bs : List Byte}
    (h : Memory.readBytes m addr n = some bs) : Readable m addr n := by
  induction n generalizing addr bs with
  | zero => intro x h1 h2; omega
  | succ n ih =>
    simp only [Memory.readBytes] at h
    split at h
    · rename_i b bs' h1 h2
      intro x hx1 hx2
      by_cases hx : x = addr
      · subst hx; simp [h1]
      · exact ih h2 x (by omega) (by omega)
    · simp at h

/-- Two memories that read alike on a range give the same bytes. -/
theorem Memory.readBytes_congr {m m' : Memory} {addr n : Nat}
    (h : ∀ a, addr ≤ a → a < addr + n → Memory.read m' a = Memory.read m a) :
    Memory.readBytes m' addr n = Memory.readBytes m addr n := by
  induction n generalizing addr with
  | zero => rfl
  | succ n ih =>
    simp only [Memory.readBytes]
    rw [ih fun a h1 h2 => h a (by omega) (by omega), h addr (Nat.le_refl _) (by omega)]

/-- A longer read is two shorter ones. -/
theorem Memory.readBytes_append {m : Memory} {addr i j : Nat} {bs cs : List Byte}
    (h1 : Memory.readBytes m addr i = some bs) (h2 : Memory.readBytes m (addr + i) j = some cs) :
    Memory.readBytes m addr (i + j) = some (bs ++ cs) := by
  induction i generalizing addr bs with
  | zero =>
    simp only [Memory.readBytes, Option.some.injEq] at h1
    subst h1
    simpa using h2
  | succ i ih =>
    simp only [Memory.readBytes] at h1
    split at h1
    · rename_i b bs' hb hbs
      simp only [Option.some.injEq] at h1
      subst h1
      have e : i + 1 + j = (i + j) + 1 := by omega
      have e2 : addr + (i + 1) = (addr + 1) + i := by omega
      rw [e]
      rw [e2] at h2
      simp [Memory.readBytes, hb, ih hbs h2]
    · simp at h1

end Sys2Proof.Machine
end

