-- ==== Sys2Proof/Laws/Cursor.lean ====
section
/-! SUPPORT. What one step of the ColorCycleCursor can be (43_color_cycle_cursor.md R130), and the pattern positions
of a stream, chunk by chunk. -/

namespace Sys2Proof.Machine

/-! ### One step of the cursor -/

theorem cursorRunLength_le (l o n : Nat) : cursorRunLength l o n ≤ n := by
  unfold cursorRunLength
  split <;> omega

theorem cursorRunLength_pos {l o n : Nat} (ho : o < l) (hn : 1 ≤ n) : 1 ≤ cursorRunLength l o n := by
  unfold cursorRunLength
  split <;> omega

/-- For `L > 1` a run does not cross the wrap. -/
theorem cursorRunLength_wrap {l o : Nat} (n : Nat) (hl : 2 ≤ l) (ho : o < l) : o + cursorRunLength l o n ≤ l := by
  unfold cursorRunLength
  split <;> omega

theorem cursorRunNext_lt {l o n : Nat} (hl : 1 ≤ l) : cursorRunNext l o n < l := Nat.mod_lt _ hl

/-- A run that does not use up what remains ends at the wrap. -/
theorem cursorRunNext_of_lt {l o n : Nat} (hl : 2 ≤ l) (ho : o < l) (h : cursorRunLength l o n < n) :
    cursorRunNext l o n = 0 := by
  have e : o + cursorRunLength l o n = l := by
    unfold cursorRunLength at h ⊢
    split at h <;> split <;> omega
  unfold cursorRunNext
  rw [e, Nat.mod_self]

/-- The offset after a run and `k` more pixels. -/
theorem cursorRunNext_add (l o n k : Nat) :
    (cursorRunNext l o n + k) % l = (o + (cursorRunLength l o n + k)) % l := by
  unfold cursorRunNext
  rw [Nat.mod_add_mod]
  congr 1
  omega

/-! ### The bytes of a stream -/

theorem pixelAt_congr {m m' : Memory} {base : Word} {bpp k : Nat}
    (h : ∀ a, addressOf base bpp k ≤ a → a < addressOf base bpp k + bpp → Memory.read m' a = Memory.read m a) :
    pixelAt m' base bpp k = pixelAt m base bpp k := by
  unfold pixelAt
  rw [Memory.readBytes_congr h]

/-- Pixels inside a readable pattern are readable. -/
theorem readable_chunk {m : Memory} {base : Word} {bpp l o n : Nat}
    (h : Readable m base.toNat (l * bpp)) (hn : o + n ≤ l) : Readable m (addressOf base bpp o) (n * bpp) := by
  have e : (o + n) * bpp ≤ l * bpp := Nat.mul_le_mul_right bpp hn
  rw [Nat.add_mul] at e
  apply h.sub <;> unfold addressOf <;> omega

theorem pixelAt_length {m : Memory} {base : Word} {bpp l k : Nat}
    (h : Readable m base.toNat (l * bpp)) (hk : k < l) : (pixelAt m base bpp k).length = bpp := by
  have hr := readable_chunk (n := 1) (o := k) h (by omega)
  rw [Nat.one_mul] at hr
  obtain ⟨bs, hbs⟩ := Memory.readBytes_of_readable hr
  simp [pixelAt, hbs, Memory.readBytes_length hbs]

/-- A chunk's bytes are its pixels in order. -/
theorem readBytes_chunk {m : Memory} {base : Word} {bpp l o : Nat} (n : Nat)
    (h : Readable m base.toNat (l * bpp)) (hn : o + n ≤ l) :
    Memory.readBytes m (addressOf base bpp o) (n * bpp) =
      some ((List.range n).flatMap fun i => pixelAt m base bpp (o + i)) := by
  induction n with
  | zero => simp [Memory.readBytes]
  | succ n ih =>
    have hr := readable_chunk (n := 1) (o := o + n) h (by omega)
    rw [Nat.one_mul] at hr
    obtain ⟨bs, hbs⟩ := Memory.readBytes_of_readable hr
    have e : addressOf base bpp (o + n) = addressOf base bpp o + n * bpp := by
      unfold addressOf
      rw [Nat.add_mul]
      omega
    have hp : pixelAt m base bpp (o + n) = bs := by simp [pixelAt, hbs]
    rw [e] at hbs
    rw [Nat.succ_mul, Memory.readBytes_append (ih (by omega)) hbs, List.range_succ]
    simp [hp]

theorem streamBytes_length {m : Memory} {base : Word} {bpp l o n : Nat} (hl : 1 ≤ l)
    (h : Readable m base.toNat (l * bpp)) : (streamBytes m base bpp l o n).length = n * bpp := by
  unfold streamBytes
  rw [List.length_flatMap]
  have e : (List.range n).map (fun i => (pixelAt m base bpp ((o + i) % l)).length) = (List.range n).map fun _ => bpp :=
    List.map_congr_left fun i _ => pixelAt_length h (Nat.mod_lt _ hl)
  rw [e]
  simp

theorem streamBytes_congr {m m' : Memory} {base : Word} {bpp l o n : Nat}
    (h : ∀ i, i < n → pixelAt m' base bpp ((o + i) % l) = pixelAt m base bpp ((o + i) % l)) :
    streamBytes m' base bpp l o n = streamBytes m base bpp l o n := by
  unfold streamBytes
  rw [List.flatMap_def, List.flatMap_def]
  congr 1
  exact List.map_congr_left fun i hi => h i (List.mem_range.mp hi)

/-- A stream is the cursor's next chunk, then the rest from the cursor's next offset. -/
theorem streamBytes_chunk (m : Memory) (base : Word) (bpp : Nat) {l o : Nat} (n : Nat) (hl : 2 ≤ l) (ho : o < l) :
    streamBytes m base bpp l o n =
      ((List.range (cursorRunLength l o n)).flatMap fun i => pixelAt m base bpp (o + i)) ++
        streamBytes m base bpp l (cursorRunNext l o n) (n - cursorRunLength l o n) := by
  have hle := cursorRunLength_le l o n
  have hw := cursorRunLength_wrap n hl ho
  have hn : n = cursorRunLength l o n + (n - cursorRunLength l o n) := by omega
  unfold streamBytes
  conv => lhs; rw [hn, List.range_add]
  rw [List.flatMap_append]
  congr 1
  · rw [List.flatMap_def, List.flatMap_def]
    congr 1
    refine List.map_congr_left fun i hi => ?_
    have hi' := List.mem_range.mp hi
    rw [Nat.mod_eq_of_lt (by omega)]
  · rw [List.flatMap_map, List.flatMap_def, List.flatMap_def]
    congr 1
    refine List.map_congr_left fun i _ => ?_
    rw [cursorRunNext_add]

/-! ### The bytes of a stream that damages what it sends -/

/-- The address of a pixel further on in the pattern. -/
theorem addressOf_add (base : Word) (bpp o i : Nat) : addressOf base bpp (o + i) = addressOf base bpp o + i * bpp := by
  unfold addressOf
  rw [Nat.add_mul]
  omega

/-- Two pixels of the pattern do not overlap. -/
theorem addressOf_disjoint (base : Word) (bpp : Nat) {i j : Nat} (h : i < j) :
    addressOf base bpp i + bpp ≤ addressOf base bpp j := by
  have := Nat.mul_le_mul_right bpp (show i + 1 ≤ j from h)
  rw [Nat.add_mul] at this
  unfold addressOf
  omega

/-- A damaging stream is the cursor's next chunk, then the rest from the cursor's next offset, in a memory `m'` in which
the chunk's pixels hold the free bytes from number `k` on and every other pixel is as it was. -/
theorem damagedStreamBytes_chunk {m m' : Memory} {base : Word} {bpp k l o : Nat} (n : Nat) (hl : 2 ≤ l) (ho : o < l)
    (hin : ∀ i, i < cursorRunLength l o n → pixelAt m' base bpp (o + i) = freeBytes (k + i * bpp) bpp)
    (hout : ∀ p, p < o → pixelAt m' base bpp p = pixelAt m base bpp p) :
    damagedStreamBytes m base bpp l o n k =
      ((List.range (cursorRunLength l o n)).flatMap fun i => pixelAt m base bpp (o + i)) ++
        damagedStreamBytes m' base bpp l (cursorRunNext l o n) (n - cursorRunLength l o n)
          (k + cursorRunLength l o n * bpp) := by
  have hle := cursorRunLength_le l o n
  have hw := cursorRunLength_wrap n hl ho
  have hn : n = cursorRunLength l o n + (n - cursorRunLength l o n) := by omega
  unfold damagedStreamBytes
  conv => lhs; rw [hn, List.range_add]
  rw [List.flatMap_append]
  congr 1
  · rw [List.flatMap_def, List.flatMap_def]
    congr 1
    refine List.map_congr_left fun i hi => ?_
    have hi' := List.mem_range.mp hi
    rw [if_pos (by omega), Nat.mod_eq_of_lt (by omega)]
  · rw [List.flatMap_map, List.flatMap_def, List.flatMap_def]
    congr 1
    refine List.map_congr_left fun i hi => ?_
    have hi' := List.mem_range.mp hi
    have hz := cursorRunNext_of_lt (n := n) hl ho (by omega)
    have hrun : o + cursorRunLength l o n = l := by
      unfold cursorRunLength at hi' ⊢
      split at hi' <;> split <;> omega
    generalize cursorRunLength l o n = r at *
    rw [hz, Nat.zero_add]
    by_cases h1 : r + i < l
    · rw [if_pos h1, if_pos (by omega), Nat.mod_eq_of_lt (show i < l by omega), hout i (by omega)]
      rw [show o + (r + i) = l + i by omega, Nat.add_mod_left, Nat.mod_eq_of_lt (by omega)]
    · rw [if_neg h1]
      by_cases h2 : i < l
      · rw [if_pos h2, Nat.mod_eq_of_lt h2, show i = o + (r + i - l) by omega, hin _ (by omega)]
        congr 3
        omega
      · rw [if_neg h2]
        congr 1
        rw [show r + i - l = r + (i - l) by omega, Nat.add_mul]
        omega

end Sys2Proof.Machine
end

