-- ==== Sys2Proof/Laws/Encoding.lean ====
section
/-! SUPPORT. Lemmas about byte order, descriptor fields and Transport brackets, cited by the round-trip lemmas. -/

namespace Sys2Proof

/-! ### Byte order -/

theorem join16_be16 (v : Half) : join16 (hi v) (lo v) = v := by
  apply BitVec.eq_of_getLsbD_eq
  intro i h
  simp only [join16, hi, lo, BitVec.getLsbD_or, BitVec.getLsbD_shiftLeft, BitVec.getLsbD_setWidth,
    BitVec.getLsbD_ushiftRight]
  by_cases h8 : i < 8
  · simp [h8, h]
  · have h1 : i - 8 < 8 := by omega
    have h2 : i - 8 < 16 := by omega
    have h3 : 8 + (i - 8) = i := by omega
    simp [h8, h, h1, h2, h3]

theorem join32_be32 (v : Word) :
    join32 ((v >>> 24).setWidth 8) ((v >>> 16).setWidth 8) ((v >>> 8).setWidth 8) (v.setWidth 8) = v := by
  apply BitVec.eq_of_getLsbD_eq
  intro i h
  simp only [join32, BitVec.getLsbD_or, BitVec.getLsbD_shiftLeft, BitVec.getLsbD_setWidth,
    BitVec.getLsbD_ushiftRight]
  rcases Nat.lt_or_ge i 8 with h8 | h8
  · have : i < 16 := by omega
    have : i < 24 := by omega
    simp [*]
  rcases Nat.lt_or_ge i 16 with h16 | h16
  · have : i < 24 := by omega
    have : i - 8 < 8 := by omega
    have : i - 8 < 32 := by omega
    have : 8 + (i - 8) = i := by omega
    have : ¬ i < 8 := by omega
    simp [*]
  rcases Nat.lt_or_ge i 24 with h24 | h24
  · have : i - 16 < 8 := by omega
    have : i - 16 < 32 := by omega
    have : ¬ i - 8 < 8 := by omega
    have : 16 + (i - 16) = i := by omega
    have : ¬ i < 8 := by omega
    have : ¬ i < 16 := by omega
    simp [*]
  · have : i - 24 < 8 := by omega
    have : i - 24 < 32 := by omega
    have : ¬ i - 16 < 8 := by omega
    have : ¬ i - 8 < 8 := by omega
    have : 24 + (i - 24) = i := by omega
    have : ¬ i < 8 := by omega
    have : ¬ i < 16 := by omega
    have : ¬ i < 24 := by omega
    simp [*]

theorem be16_join16 (h l : Byte) : be16 (join16 h l) = [h, l] := by
  have h1 : hi (join16 h l) = h := by
    apply BitVec.eq_of_getLsbD_eq
    intro i hi8
    have : ¬ 8 + i < 8 := by omega
    have : 8 + i < 16 := by omega
    simp [hi, join16, *]
  have h2 : lo (join16 h l) = l := by
    apply BitVec.eq_of_getLsbD_eq
    intro i hi8
    have : i < 16 := by omega
    simp [lo, join16, *]
  simp [be16, h1, h2]

/-- The hi and lo bytes of a zero-extended byte. -/
theorem hi_setWidth (b : Byte) : hi (b.setWidth 16) = 0 := by
  apply BitVec.eq_of_getLsbD_eq
  intro i h
  simp [hi, h]

theorem lo_setWidth (b : Byte) : lo (b.setWidth 16) = b := by
  apply BitVec.eq_of_getLsbD_eq
  intro i h
  simp [lo, h]

/-! ### Descriptor fields -/

theorem fieldsOfBytes_bytesOfFields (f : Fields) : fieldsOfBytes (bytesOfFields f) = some f := by
  simp [bytesOfFields, be16, be32, fieldsOfBytes, join16_be16, join32_be32]

theorem bytesOfFields_length (f : Fields) : (bytesOfFields f).length = 22 := by
  simp [bytesOfFields, be16, be32]

/-- Only 22 bytes have fields (30_encoding.md R80). -/
theorem fieldsOfBytes_isSome_iff (bytes : List Byte) : (fieldsOfBytes bytes).isSome ↔ bytes.length = 22 := by
  constructor
  · unfold fieldsOfBytes
    split
    · simp
    · simp
  · intro h
    match bytes, h with
    | [b0, b1, b2, b3, b4, b5, b6, b7, b8, b9, b10, b11, b12, b13, b14, b15, b16, b17, b18, b19, b20, b21], _ =>
      simp [fieldsOfBytes]

/-- Decoding the bytes of some fields is the opcode map and the operand checks on those fields. -/
theorem decodeDescriptor_bytesOfFields (f : Fields) (op : Opcode)
    (h : lookupOpcode (join16 f.op f.flags) = some op) :
    decodeDescriptor (bytesOfFields f) = instrOfFields op f := by
  simp only [decodeDescriptor, fieldsOfBytes_bytesOfFields, h]

/-! ### Brackets -/

theorem datBytes_map_dat (d : List Byte) : datBytes (d.map .dat) = some d := by
  induction d with
  | nil => rfl
  | cons b bs ih => simp [datBytes, ih]

theorem datBytes_eq_some {es : List Event} {d : List Byte} (h : datBytes es = some d) : es = d.map .dat := by
  induction es generalizing d with
  | nil => simp [datBytes] at h; simp [← h]
  | cons e es ih =>
    cases e with
    | dat b =>
      simp only [datBytes, Option.map_eq_some_iff] at h
      obtain ⟨d', h', rfl⟩ := h
      simp [ih h']
    | sel => simp [datBytes] at h
    | desel => simp [datBytes] at h
    | cmd c => simp [datBytes] at h

/-- An event that may stand inside a bracket. -/
def Event.isInner : Event → Bool
  | .sel => false
  | .desel => false
  | .cmd _ => true
  | .dat _ => true

theorem scanBrackets_inner (inner rest : List Event) (o : List Event) (ds : List (List Event))
    (h : ∀ e ∈ inner, e.isInner = true)
    (hr : scanBrackets rest = some { opened := some o, done := ds }) :
    scanBrackets (inner ++ rest) = some { opened := some (inner ++ o), done := ds } := by
  induction inner with
  | nil => simpa using hr
  | cons e es ih =>
    have ih' := ih fun x hx => h x (by simp [hx])
    have he := h e (by simp)
    simp only [List.cons_append, scanBrackets, ih', Option.bind_some]
    cases e <;> simp_all [Event.isInner, BracketScan.before]

/-- A complete bracket before a bracketed trace. -/
theorem scanBrackets_bracket (inner rest : List Event) (ds : List (List Event))
    (h : ∀ e ∈ inner, e.isInner = true)
    (hr : scanBrackets rest = some { opened := none, done := ds }) :
    scanBrackets (.sel :: (inner ++ .desel :: rest)) = some { opened := none, done := inner :: ds } := by
  have h1 : scanBrackets (.desel :: rest) = some { opened := some [], done := ds } := by
    simp [scanBrackets, hr, BracketScan.before]
  have h2 := scanBrackets_inner inner (.desel :: rest) [] ds h h1
  simp [scanBrackets, h2, BracketScan.before]

theorem brackets_eq_some_iff (t : List Event) (bs : List (List Event)) :
    brackets t = some bs ↔ scanBrackets t = some { opened := none, done := bs } := by
  unfold brackets
  constructor
  · intro h
    split at h
    · simp_all
    · simp at h
  · intro h
    simp [h]

theorem brackets_nil : brackets [] = some [] := rfl

theorem brackets_bracket (inner rest : List Event) (bs : List (List Event))
    (h : ∀ e ∈ inner, e.isInner = true) (hr : brackets rest = some bs) :
    brackets (.sel :: (inner ++ .desel :: rest)) = some (inner :: bs) := by
  rw [brackets_eq_some_iff] at hr ⊢
  exact scanBrackets_bracket inner rest bs h hr

/-- A trace of complete brackets before another trace: what is scanned of the second stands behind it. -/
theorem scanBrackets_append (t u : List Event) (a b : BracketScan)
    (ht : scanBrackets t = some a) (hu : scanBrackets u = some { opened := none, done := b.done }) :
    scanBrackets (t ++ u) = some { opened := a.opened, done := a.done ++ b.done } := by
  induction t generalizing a with
  | nil =>
    simp only [scanBrackets, Option.some.injEq] at ht
    subst ht
    simpa using hu
  | cons e es ih =>
    simp only [scanBrackets] at ht
    cases hs : scanBrackets es with
    | none => simp [hs] at ht
    | some c =>
      simp only [hs, Option.bind_some] at ht
      simp only [List.cons_append, scanBrackets, ih c hs, Option.bind_some]
      obtain ⟨o, d⟩ := c
      cases e <;> cases o <;> simp_all [BracketScan.before] <;> subst ht <;> simp

theorem brackets_append {t u : List Event} {bs cs : List (List Event)}
    (ht : brackets t = some bs) (hu : brackets u = some cs) : brackets (t ++ u) = some (bs ++ cs) := by
  rw [brackets_eq_some_iff] at ht hu ⊢
  simpa using scanBrackets_append t u _ { opened := none, done := cs } ht hu

theorem isInner_map_dat (d : List Byte) : ∀ e ∈ d.map Event.dat, e.isInner = true := by
  intro e he
  obtain ⟨b, -, rfl⟩ := List.mem_map.mp he
  rfl

theorem brackets_packet (c : Byte) (payload : List Byte) :
    brackets (packet c payload) = some [.cmd c :: payload.map .dat] := by
  have h : ∀ e ∈ (Event.cmd c :: payload.map .dat), e.isInner = true := by
    intro e he
    rcases List.mem_cons.mp he with rfl | he
    · rfl
    · exact isInner_map_dat payload e he
  simpa [packet] using brackets_bracket _ [] [] h brackets_nil

theorem brackets_burst (d : List Byte) : brackets (burst d) = some [d.map .dat] := by
  simpa [burst] using brackets_bracket _ [] [] (isInner_map_dat d) brackets_nil

theorem decodeBracket_packet (p : Params) (c : Byte) (payload : List Byte) :
    decodeBracket p (packet c payload) = packetOfBytes p c payload := by
  simp [decodeBracket, brackets_packet, decodeInner, datBytes_map_dat]

theorem decodeBracket_burst (p : Params) (b : Byte) (bs : List Byte) :
    decodeBracket p (burst (b :: bs)) = .ok (.data (b :: bs)) := by
  simp [decodeBracket, brackets_burst, decodeInner, datBytes_map_dat]

/-- What has been scanned of a trace is the trace's own events. -/
theorem scanBrackets_events (t : List Event) (b : BracketScan) (h : scanBrackets t = some b) :
    t = (match b.opened with | none => [] | some inner => inner ++ [.desel]) ++
      b.done.flatMap (fun inner => .sel :: (inner ++ [.desel])) := by
  induction t generalizing b with
  | nil =>
    simp only [scanBrackets, Option.some.injEq] at h
    subst h
    rfl
  | cons e es ih =>
    simp only [scanBrackets, Option.bind_eq_some_iff] at h
    obtain ⟨b0, h0, h1⟩ := h
    have := ih b0 h0
    cases e <;> cases ho : b0.opened <;> simp [BracketScan.before, ho] at h1 <;> subst h1 <;>
      simp [ho] at this ⊢ <;> exact this

/-- A trace that scans as brackets is the concatenation of them. -/
theorem brackets_events {t : List Event} {bs : List (List Event)} (h : brackets t = some bs) :
    t = bs.flatMap fun inner => .sel :: (inner ++ [.desel]) := by
  rw [brackets_eq_some_iff] at h
  simpa using scanBrackets_events t _ h

/-! ### The opcode map (30_encoding.md R85) -/

/-- A pair of bytes matches a row exactly if each byte matches its half of it. -/
theorem join16_matches (o fl : Byte) (r : OpcodeRow) : (join16 o fl &&& r.mask == r.pattern) =
    ((o &&& hi r.mask == hi r.pattern) && (fl &&& lo r.mask == lo r.pattern)) := by
  have key : ∀ m1 m2 p1 p2 : Byte,
      (join16 o fl &&& join16 m1 m2 == join16 p1 p2) = ((o &&& m1 == p1) && (fl &&& m2 == p2)) := by
    intro m1 m2 p1 p2
    have h : join16 o fl &&& join16 m1 m2 = join16 (o &&& m1) (fl &&& m2) := by
      simp only [join16]
      ext i hi
      simp
      grind
    rw [h, Bool.eq_iff_iff]
    simp only [beq_iff_eq, Bool.and_eq_true]
    constructor
    · intro e
      have := congrArg be16 e
      rw [be16_join16, be16_join16] at this
      simpa using this
    · rintro ⟨rfl, rfl⟩
      rfl
  rw [← key, join16_be16, join16_be16]

/-! ### The parameters' distinctness (00_scope.md R9) -/

theorem Params.wf_commands {p : Params} (h : p.wf = true) :
    [p.cmdCaset, p.cmdPaset, p.cmdRamwr, p.cmdMadctl, p.cmdPixset].Nodup := by
  simp only [Params.wf, Bool.and_eq_true, decide_eq_true_eq] at h
  exact h.1.2

theorem Params.wf_codes {p : Params} (h : p.wf = true) : p.pxlfmt16Code ≠ p.pxlfmt18Code := by
  simp only [Params.wf, Bool.and_eq_true, decide_eq_true_eq] at h
  exact h.2

theorem Params.wf_width {p : Params} (h : p.wf = true) : 1 ≤ p.devWidth ∧ p.devWidth ≤ 65536 := by
  simp only [Params.wf, Bool.and_eq_true, decide_eq_true_eq] at h
  exact ⟨h.1.1.1.1.1.1, h.1.1.1.1.1.2⟩

theorem Params.wf_height {p : Params} (h : p.wf = true) : 1 ≤ p.devHeight ∧ p.devHeight ≤ 65536 := by
  simp only [Params.wf, Bool.and_eq_true, decide_eq_true_eq] at h
  exact ⟨h.1.1.1.1.2, h.1.1.1.2⟩

theorem Params.wf_area {p : Params} (h : p.wf = true) : p.devWidth * p.devHeight < 2 ^ 32 := by
  simp only [Params.wf, Bool.and_eq_true, decide_eq_true_eq] at h
  exact h.1.1.2

end Sys2Proof
end

