-- ==== Sys2Proof/Laws/Window.lean ====
section
/-! SUPPORT. What the window function gives (44_address_window.md R140): when it is empty, that a window in extent has
its ranges inside the device, and how many pixels it covers. -/

namespace Sys2Proof.Machine

/-- Empty is exactly "no pixel" (45_stream_emitter.md R162). -/
theorem Geometry.isEmpty_iff_npix (g : Geometry) : g.isEmpty = true ↔ g.npix = 0 := by
  unfold Geometry.isEmpty Geometry.npix
  cases g.kind with
  | pixel => simp
  | hline => simp
  | vline => simp
  | fill =>
    simp only [Bool.or_eq_true, decide_eq_true_eq]
    split
    · simp_all
    · rename_i h
      simp only [h, false_iff]
      exact Nat.mul_ne_zero (by omega) (by omega)

/-- The window of a request that covers a pixel and is in extent. -/
theorem windowOf_window {p : Params} {g : Geometry} (ob : Byte) (hn : 1 ≤ g.npix) (he : g.inExtent p = true) :
    windowOf p ob g = .window (g.ranges p ob) := by
  have h : g.isEmpty = false := by
    rw [← Bool.not_eq_true, Geometry.isEmpty_iff_npix]
    omega
  simp [windowOf, h, he]

theorem windowOf_empty {g : Geometry} (p : Params) (ob : Byte) (h : g.isEmpty = true) : windowOf p ob g = .empty := by
  simp [windowOf, h]

theorem windowOf_outOfExtent {p : Params} {g : Geometry} (ob : Byte) (h : g.isEmpty = false)
    (he : g.inExtent p = false) : windowOf p ob g = .outOfExtent := by
  simp [windowOf, h, he]

theorem windowOf_eq_window {p : Params} {ob : Byte} {g : Geometry} {w : Window} (h : windowOf p ob g = .window w) :
    g.isEmpty = false ∧ g.inExtent p = true ∧ w = g.ranges p ob := by
  unfold windowOf at h
  split at h
  · simp at h
  · split at h
    · rename_i h1 h2
      simp only [WindowResult.window.injEq] at h
      exact ⟨by simpa using h1, h2, h.symm⟩
    · simp at h

theorem toNat_half {n : Nat} (h : n < 65536) : (BitVec.ofNat 16 n).toNat = n := by
  rw [BitVec.toNat_ofNat]
  exact Nat.mod_eq_of_lt h

/-- A request in extent covers at most `W * H` pixels (45_stream_emitter.md R162). -/
theorem Geometry.npix_le {p : Params} {g : Geometry} (hp : p.wf = true) (he : g.inExtent p = true) :
    g.npix ≤ p.devWidth * p.devHeight := by
  obtain ⟨hw, -⟩ := Params.wf_width hp
  obtain ⟨hh, -⟩ := Params.wf_height hp
  have a1 : p.devWidth ≤ p.devWidth * p.devHeight := Nat.le_mul_of_pos_right _ hh
  have a2 : p.devHeight ≤ p.devWidth * p.devHeight := Nat.le_mul_of_pos_left _ hw
  unfold Geometry.inExtent at he
  unfold Geometry.npix
  cases hk : g.kind <;> simp only [hk] at he ⊢
  · omega
  · split at he <;> simp only [Bool.and_eq_true, decide_eq_true_eq] at he <;> omega
  · split at he <;> simp only [Bool.and_eq_true, decide_eq_true_eq] at he <;> omega
  · simp only [Bool.and_eq_true, decide_eq_true_eq] at he
    split
    · omega
    · exact Nat.mul_le_mul (by omega) (by omega)

theorem flagTP_ne_zero : (0 : BitVec 3) ≠ flagTP := by decide
theorem flagRH_ne_flagTP : flagRH ≠ flagTP := by decide
theorem flagRV_ne_flagTP : flagRV ≠ flagTP := by decide

/-- At most one override (44_address_window.md R150). -/
theorem Geometry.ranges_oneOverride (p : Params) (ob : Byte) (g : Geometry) : OneOverride (g.ranges p ob).ovr := by
  unfold Geometry.ranges OneOverride
  cases g.kind <;> simp only [windowOfRanges] <;> (try split) <;> simp

/-- The ranges of a window record, as numbers. -/
theorem windowOfRanges_inExtent {p : Params} {cs ce rs re : Nat} {ovr : BitVec 3} (orient : Byte)
    (hp : p.wf = true) (hc : cs ≤ ce) (hr : rs ≤ re)
    (h : if ovr = flagTP then ce < p.devHeight ∧ re < p.devWidth else ce < p.devWidth ∧ re < p.devHeight) :
    (windowOfRanges cs ce rs re ovr orient).InExtent p := by
  obtain ⟨-, hw⟩ := Params.wf_width hp
  obtain ⟨-, hh⟩ := Params.wf_height hp
  have hce : ce < 65536 := by split at h <;> omega
  have hre : re < 65536 := by split at h <;> omega
  simp only [Window.InExtent, windowOfRanges, BitVec.le_def]
  rw [toNat_half hce, toNat_half hre, toNat_half (Nat.lt_of_le_of_lt hc hce), toNat_half (Nat.lt_of_le_of_lt hr hre)]
  exact ⟨hc, hr, h⟩

/-- 44_address_window.md R141: the ranges of a request in extent lie inside the device. -/
theorem Geometry.ranges_inExtent {p : Params} {g : Geometry} (ob : Byte) (hp : p.wf = true)
    (hn : g.isEmpty = false) (he : g.inExtent p = true) : (g.ranges p ob).InExtent p := by
  unfold Geometry.inExtent at he
  unfold Geometry.isEmpty at hn
  unfold Geometry.ranges
  cases hk : g.kind <;> simp only [hk] at he hn ⊢
  · simp only [Bool.and_eq_true, decide_eq_true_eq] at he
    apply windowOfRanges_inExtent _ hp (Nat.le_refl _) (Nat.le_refl _)
    rw [if_neg flagTP_ne_zero]
    omega
  · simp only [decide_eq_false_iff_not] at hn
    split
    · rename_i hf
      simp only [hf, if_true, Bool.and_eq_true, decide_eq_true_eq] at he
      apply windowOfRanges_inExtent _ hp (by omega) (Nat.le_refl _)
      rw [if_neg flagRH_ne_flagTP]
      unfold mirrorX
      omega
    · rename_i hf
      simp only [hf, Bool.false_eq_true, if_false, Bool.and_eq_true, decide_eq_true_eq] at he
      apply windowOfRanges_inExtent _ hp (by omega) (Nat.le_refl _)
      rw [if_neg flagTP_ne_zero]
      omega
  · simp only [decide_eq_false_iff_not] at hn
    split
    · rename_i hf
      simp only [hf, if_true, Bool.and_eq_true, decide_eq_true_eq] at he
      apply windowOfRanges_inExtent _ hp (Nat.le_refl _) (by omega)
      rw [if_neg flagRV_ne_flagTP]
      unfold mirrorY
      omega
    · rename_i hf
      simp only [hf, Bool.false_eq_true, if_false, Bool.and_eq_true, decide_eq_true_eq] at he
      apply windowOfRanges_inExtent _ hp (Nat.le_refl _) (by omega)
      rw [if_neg flagTP_ne_zero]
      omega
  · simp only [Bool.and_eq_true, decide_eq_true_eq] at he
    split
    · apply windowOfRanges_inExtent _ hp (by omega) (by omega)
      rw [if_pos rfl]
      omega
    · apply windowOfRanges_inExtent _ hp (by omega) (by omega)
      rw [if_neg flagTP_ne_zero]
      omega

end Sys2Proof.Machine
end

