-- ==== Sys2Proof/Laws/Stream.lean ====
section
/-! SUPPORT. Everything the streaming step of a draw can do (45_stream_emitter.md R167, R168), said once for the fast
path, once for the general path, and then for both. -/

namespace Sys2Proof.Machine

/-- The state `t` is `s` after streaming `n` pixels of `bpp` bytes from pattern position `o` of a pattern of `l` pixels
at `base`; `bytes` are what was sent. -/
structure Streamed (s t : State) (base : Word) (bpp l o n : Nat) (bytes : List Byte) : Prop where
  /-- Only these fields can differ. -/
  shape : t = { s with
    trace := s.trace ++ bytes.map .dat, mem := t.mem, stage := t.stage, draws := t.draws
    remain := 0, curO := BitVec.ofNat 32 ((o + n) % l) }
  /-- "total bytes transferred equal `requestedLength × bytesPerPixel`". -/
  count : bytes.length = n * bpp
  /-- Memory changes at most in the positions sent (20_memory.md R58). -/
  frame : ∀ a, (∀ i, i < n → a < addressOf base bpp ((o + i) % l) ∨ addressOf base bpp ((o + i) % l) + bpp ≤ a) →
    Memory.read t.mem a = Memory.read s.mem a
  /-- The pattern stays readable. -/
  readable : Readable t.mem base.toNat (l * bpp)
  /-- The memory keeps its canonical form. -/
  wf : Memory.wf s.mem = true → base.toNat + l * bpp ≤ addressLimit → Memory.wf t.mem = true
  /-- Without damage, and on the fast path, memory is untouched. -/
  memory : s.corrupting = false ∨ l = 1 → t.mem = s.mem
  /-- Off the fast path the staging buffer is untouched. -/
  stage : l ≠ 1 → t.stage = s.stage
  /-- The buffer keeps its size, if what the fast path sends fits in it. -/
  stageLength : t.stage.length = if l = 1 then max s.stage.length (n * bpp) else s.stage.length
  /-- 45_stream_emitter.md R166: what is sent where nothing is read from a damaged byte. -/
  sent : s.corrupting = false ∨ l = 1 ∨ n ≤ l → bytes = streamBytes s.mem base bpp l o n
  /-- 45_stream_emitter.md R177: what is sent, and left in memory, where every transfer damages what it has sent. -/
  damaged : s.corrupting = true → l ≠ 1 →
    bytes = damagedStreamBytes s.mem base bpp l o n s.draws ∧ HoldsDamage t.mem base bpp l o n s.draws

/-! ### The general path -/

theorem transferChunk_next {bpp : Nat} {s : State} (hl : 2 ≤ s.latch.l.toNat)
    (ho : s.curO.toNat < s.latch.l.toNat) (hr : Readable s.mem s.latch.base.toNat (s.latch.l.toNat * bpp)) :
    transferChunk bpp s = .next
      { s.transferSource (addressOf s.latch.base bpp s.curO.toNat)
          ((List.range (cursorRunLength s.latch.l.toNat s.curO.toNat s.remain.toNat)).flatMap
            fun i => pixelAt s.mem s.latch.base bpp (s.curO.toNat + i)) with
        remain := BitVec.ofNat 32
          (s.remain.toNat - cursorRunLength s.latch.l.toNat s.curO.toNat s.remain.toNat)
        curO := BitVec.ofNat 32 (cursorRunNext s.latch.l.toNat s.curO.toNat s.remain.toNat) } := by
  have h := readBytes_chunk _ hr (cursorRunLength_wrap s.remain.toNat hl ho)
  simp only [transferChunk, h]

theorem toNat_word {n : Nat} (h : n < 2 ^ 32) : (BitVec.ofNat 32 n).toNat = n := by
  rw [BitVec.toNat_ofNat]
  exact Nat.mod_eq_of_lt h

/-- Nothing remains: nothing is sent. -/
theorem Streamed.refl {s : State} {base : Word} {bpp l : Nat} (ho : s.curO.toNat < l) (h0 : s.remain = 0)
    (hr : Readable s.mem base.toNat (l * bpp)) : Streamed s s base bpp l s.curO.toNat 0 [] where
  shape := by
    simp only [List.map_nil, List.append_nil, Nat.add_zero, Nat.mod_eq_of_lt ho, BitVec.ofNat_toNat,
      BitVec.setWidth_eq, ← h0]
  count := by simp
  frame := fun _ _ => rfl
  readable := hr
  wf := fun h _ => h
  memory := fun _ => rfl
  stage := fun _ => rfl
  stageLength := by simp
  sent := fun _ => by simp [streamBytes]
  damaged := fun _ _ => ⟨by simp [damagedStreamBytes], fun _ _ h => absurd h (Nat.not_lt_zero _)⟩

/-- A chunk's bytes lie where the pattern's positions do. -/
theorem outside_chunk {base : Word} {bpp l o n a : Nat} (hl : 2 ≤ l) (ho : o < l)
    (h : ∀ i, i < n → a < addressOf base bpp ((o + i) % l) ∨ addressOf base bpp ((o + i) % l) + bpp ≤ a)
    (hn : 1 ≤ n) :
    a < addressOf base bpp o ∨ addressOf base bpp o + cursorRunLength l o n * bpp ≤ a := by
  have hw := cursorRunLength_wrap n hl ho
  have hle := cursorRunLength_le l o n
  have key : ∀ k, k ≤ cursorRunLength l o n →
      a < addressOf base bpp o ∨ addressOf base bpp o + k * bpp ≤ a := by
    intro k hk
    induction k with
    | zero =>
      have h0 := h 0 (by omega)
      rw [Nat.add_zero, Nat.mod_eq_of_lt ho] at h0
      omega
    | succ k ih =>
      rcases ih (by omega) with h1 | h1
      · exact .inl h1
      · right
        have hk' := h k (by omega)
        rw [Nat.mod_eq_of_lt (by omega)] at hk'
        have e : addressOf base bpp (o + k) = addressOf base bpp o + k * bpp := by
          unfold addressOf; rw [Nat.add_mul]; omega
        rw [e] at hk'
        rw [Nat.succ_mul]
        omega
  exact key _ (Nat.le_refl _)

theorem transferSource_corrupting {s : State} (addr : Nat) (bytes : List Byte) (h : s.corrupting = true) :
    s.transferSource addr bytes = { s with
      trace := s.trace ++ bytes.map .dat
      mem := Memory.writeBytes s.mem addr (freeBytes s.draws bytes.length)
      draws := s.draws + bytes.length } := by
  simp [State.transferSource, h, State.emit]

theorem transferSource_intact {s : State} (addr : Nat) (bytes : List Byte) (h : s.corrupting = false) :
    s.transferSource addr bytes = { s with trace := s.trace ++ bytes.map .dat } := by
  simp [State.transferSource, h, State.emit]

/-- One chunk, then the rest of the stream. -/
theorem Streamed.chunk {s s1 t : State} {bpp n : Nat} {rest : List Byte}
    (hl : 2 ≤ s.latch.l.toNat) (ho : s.curO.toNat < s.latch.l.toNat) (hn : s.remain.toNat = n) (hn1 : 1 ≤ n)
    (hr : Readable s.mem s.latch.base.toNat (s.latch.l.toNat * bpp))
    (h1 : transferChunk bpp s = .next s1)
    (ht : Streamed s1 t s.latch.base bpp s.latch.l.toNat (cursorRunNext s.latch.l.toNat s.curO.toNat n)
      (n - cursorRunLength s.latch.l.toNat s.curO.toNat n) rest) :
    Streamed s t s.latch.base bpp s.latch.l.toNat s.curO.toNat n
      (((List.range (cursorRunLength s.latch.l.toNat s.curO.toNat n)).flatMap
        fun i => pixelAt s.mem s.latch.base bpp (s.curO.toNat + i)) ++ rest) := by
  rw [transferChunk_next hl ho hr, hn] at h1
  simp only [Host.Outcome.next.injEq] at h1
  generalize hb : ((List.range (cursorRunLength s.latch.l.toNat s.curO.toNat n)).flatMap
    fun i => pixelAt s.mem s.latch.base bpp (s.curO.toNat + i)) = first at h1 ⊢
  have hw := cursorRunLength_wrap n hl ho
  have hle := cursorRunLength_le s.latch.l.toNat s.curO.toNat n
  have hread := readBytes_chunk _ hr hw
  rw [hb] at hread
  have hlen := Memory.readBytes_length hread
  have hsp : addressOf s.latch.base bpp s.curO.toNat + cursorRunLength s.latch.l.toNat s.curO.toNat n * bpp ≤
      s.latch.base.toNat + s.latch.l.toNat * bpp := by
    have := Nat.mul_le_mul_right bpp hw
    rw [Nat.add_mul] at this
    unfold addressOf
    omega
  -- the offset after the whole stream
  have hoff : (cursorRunNext s.latch.l.toNat s.curO.toNat n +
      (n - cursorRunLength s.latch.l.toNat s.curO.toNat n)) % s.latch.l.toNat =
      (s.curO.toNat + n) % s.latch.l.toNat := by
    rw [cursorRunNext_add]
    congr 2
    omega
  -- every later position is one of the whole stream's
  have hpos : ∀ i, (cursorRunNext s.latch.l.toNat s.curO.toNat n + i) % s.latch.l.toNat =
      (s.curO.toNat + (cursorRunLength s.latch.l.toNat s.curO.toNat n + i)) % s.latch.l.toNat :=
    fun i => cursorRunNext_add _ _ _ i
  -- what the first chunk does to memory
  have hmem1 : ∀ a, (a < addressOf s.latch.base bpp s.curO.toNat ∨
      addressOf s.latch.base bpp s.curO.toNat + cursorRunLength s.latch.l.toNat s.curO.toNat n * bpp ≤ a) →
      Memory.read s1.mem a = Memory.read s.mem a := by
    intro a ha
    cases hc : s.corrupting
    · rw [← h1, transferSource_intact _ _ hc]
    · rw [← h1, transferSource_corrupting _ _ hc]
      apply Memory.read_writeBytes_other
      rw [freeBytes_length, hlen]
      exact ha
  have hcor : s1.corrupting = s.corrupting := by
    cases hc : s.corrupting
    · rw [← h1, transferSource_intact _ _ hc]; exact hc
    · rw [← h1, transferSource_corrupting _ _ hc]; exact hc
  refine ⟨?_, ?_, ?_, ht.readable, ?_, ?_, ?_, ?_, ?_, ?_⟩
  · have hs := ht.shape
    rw [hoff] at hs
    rw [hs, ← h1]
    cases hc : s.corrupting
    · rw [transferSource_intact _ _ hc]; simp
    · rw [transferSource_corrupting _ _ hc]; simp
  · rw [List.length_append, hlen, ht.count, Nat.sub_mul]
    have := Nat.mul_le_mul_right bpp hle
    omega
  · intro a ha
    rw [ht.frame a, hmem1 a (outside_chunk hl ho ha hn1)]
    intro i hi
    rw [hpos i]
    exact ha _ (by omega)
  · intro hwf hspace
    apply ht.wf _ hspace
    cases hc : s.corrupting
    · rw [← h1, transferSource_intact _ _ hc]; exact hwf
    · rw [← h1, transferSource_corrupting _ _ hc]
      apply Memory.wf_writeBytes _ hwf
      rw [freeBytes_length, hlen]
      omega
  · intro h
    rcases h with h | h
    · rw [ht.memory (.inl (hcor.trans h)), ← h1, transferSource_intact _ _ h]
    · omega
  · intro h
    rw [ht.stage h]
    cases hc : s.corrupting
    · rw [← h1, transferSource_intact _ _ hc]
    · rw [← h1, transferSource_corrupting _ _ hc]
  · have hst : t.stage = s.stage := by
      rw [ht.stage (by omega)]
      cases hc : s.corrupting
      · rw [← h1, transferSource_intact _ _ hc]
      · rw [← h1, transferSource_corrupting _ _ hc]
    rw [hst, if_neg (by omega)]
  · intro h
    rw [streamBytes_chunk s.mem s.latch.base bpp n hl ho, hb]
    congr 1
    have hrest : rest = streamBytes s1.mem s.latch.base bpp s.latch.l.toNat
        (cursorRunNext s.latch.l.toNat s.curO.toNat n) (n - cursorRunLength s.latch.l.toNat s.curO.toNat n) := by
      apply ht.sent
      rcases h with h | h | h
      · exact .inl (hcor.trans h)
      · exact .inr (.inl h)
      · exact .inr (.inr (by omega))
    rw [hrest]
    apply streamBytes_congr
    intro i hi
    rcases h with h | h | h
    · rw [← h1, transferSource_intact _ _ h]
    · omega
    · -- nothing is read twice: this position is not in the first chunk
      apply pixelAt_congr
      intro a ha1 ha2
      apply hmem1
      have hz : cursorRunNext s.latch.l.toNat s.curO.toNat n = 0 := cursorRunNext_of_lt hl ho (by omega)
      have hrun : cursorRunLength s.latch.l.toNat s.curO.toNat n = s.latch.l.toNat - s.curO.toNat := by
        unfold cursorRunLength at hi ⊢
        split at hi <;> split <;> omega
      rw [hz, Nat.zero_add, Nat.mod_eq_of_lt (by omega)] at ha1 ha2
      left
      have hi' : i + 1 ≤ s.curO.toNat := by omega
      have := Nat.mul_le_mul_right bpp hi'
      rw [Nat.add_mul] at this
      unfold addressOf at ha2 ⊢
      omega
  · intro hc hl1
    obtain ⟨hsent, hleft⟩ := ht.damaged (hcor.trans hc) hl1
    have hm : s1.mem = Memory.writeBytes s.mem (addressOf s.latch.base bpp s.curO.toNat)
        (freeBytes s.draws (cursorRunLength s.latch.l.toNat s.curO.toNat n * bpp)) := by
      rw [← h1, transferSource_corrupting _ _ hc, hlen]
    have hd : s1.draws = s.draws + cursorRunLength s.latch.l.toNat s.curO.toNat n * bpp := by
      rw [← h1, transferSource_corrupting _ _ hc, hlen]
    rw [hd] at hsent hleft
    -- the damage of the first chunk
    have hin : ∀ i b, i < cursorRunLength s.latch.l.toNat s.curO.toNat n → b < bpp →
        Memory.read s1.mem (addressOf s.latch.base bpp (s.curO.toNat + i) + b) =
          some (Config.freeByte (s.draws + i * bpp + b)) := by
      intro i b hi hbb
      have := Nat.mul_le_mul_right bpp (show i + 1 ≤ cursorRunLength s.latch.l.toNat s.curO.toNat n from hi)
      rw [Nat.add_mul] at this
      rw [addressOf_add, Nat.add_assoc, hm, Memory.read_writeBytes_free _ _ _ (by omega), ← Nat.add_assoc]
    constructor
    · rw [hsent, damagedStreamBytes_chunk (m' := s1.mem) n hl ho, hb]
      · intro i hi
        rw [pixelAt, Memory.readBytes_free (k := s.draws + i * bpp) fun b hbb => hin i b hi hbb]
        rfl
      · intro p hp
        apply pixelAt_congr
        intro a ha1 ha2
        apply hmem1
        have := addressOf_disjoint s.latch.base bpp hp
        omega
    · intro i b hi hil hbb
      by_cases hir : i < cursorRunLength s.latch.l.toNat s.curO.toNat n
      · -- the rest of the stream does not come back to this pixel
        rw [Nat.mod_eq_of_lt (by omega), ht.frame, hin i b hir hbb]
        intro j hj
        have hz : cursorRunNext s.latch.l.toNat s.curO.toNat n = 0 := cursorRunNext_of_lt hl ho (by omega)
        have hrun : s.curO.toNat + cursorRunLength s.latch.l.toNat s.curO.toNat n = s.latch.l.toNat := by
          unfold cursorRunLength at hj ⊢
          split at hj <;> split <;> omega
        rw [hz, Nat.zero_add, Nat.mod_eq_of_lt (by omega)]
        have := addressOf_disjoint s.latch.base bpp (show j < s.curO.toNat + i by omega)
        omega
      · have := hleft (i - cursorRunLength s.latch.l.toNat s.curO.toNat n) b (by omega) (by omega) hbb
        rw [hpos, show cursorRunLength s.latch.l.toNat s.curO.toNat n +
          (i - cursorRunLength s.latch.l.toNat s.curO.toNat n) = i by omega] at this
        rw [this, Nat.add_assoc s.draws, ← Nat.add_mul, show cursorRunLength s.latch.l.toNat s.curO.toNat n +
          (i - cursorRunLength s.latch.l.toNat s.curO.toNat n) = i by omega]

/-- The general path, R168: it terminates, and what it leaves. -/
theorem generalPath_streams {bpp : Nat} (fuel : Nat) {s : State} (hl : 2 ≤ s.latch.l.toNat)
    (ho : s.curO.toNat < s.latch.l.toNat) (hf : s.remain.toNat ≤ fuel)
    (hr : Readable s.mem s.latch.base.toNat (s.latch.l.toNat * bpp)) :
    ∃ t bytes, generalPath bpp fuel s = .next t ∧
      Streamed s t s.latch.base bpp s.latch.l.toNat s.curO.toNat s.remain.toNat bytes := by
  induction fuel generalizing s with
  | zero =>
    have h0 : s.remain = 0 := BitVec.eq_of_toNat_eq (by simpa using hf)
    refine ⟨s, [], rfl, ?_⟩
    rw [h0]
    exact Streamed.refl ho h0 hr
  | succ fuel ih =>
    by_cases h0 : s.remain = 0
    · refine ⟨s, [], by simp [generalPath, h0], ?_⟩
      rw [h0]
      exact Streamed.refl ho h0 hr
    · have hn1 : 1 ≤ s.remain.toNat := by
        rcases Nat.eq_zero_or_pos s.remain.toNat with h | h
        · exact absurd (BitVec.eq_of_toNat_eq (by simpa using h)) h0
        · exact h
      have hpos := cursorRunLength_pos ho hn1
      have hle := cursorRunLength_le s.latch.l.toNat s.curO.toNat s.remain.toNat
      have hnext : cursorRunNext s.latch.l.toNat s.curO.toNat s.remain.toNat < s.latch.l.toNat :=
        cursorRunNext_lt (by omega)
      have hc := transferChunk_next hl ho hr
      generalize hs1 : ({ s.transferSource (addressOf s.latch.base bpp s.curO.toNat)
          ((List.range (cursorRunLength s.latch.l.toNat s.curO.toNat s.remain.toNat)).flatMap
            fun i => pixelAt s.mem s.latch.base bpp (s.curO.toNat + i)) with
        remain := BitVec.ofNat 32
          (s.remain.toNat - cursorRunLength s.latch.l.toNat s.curO.toNat s.remain.toNat)
        curO := BitVec.ofNat 32 (cursorRunNext s.latch.l.toNat s.curO.toNat s.remain.toNat) } : State) = s1 at hc
      have hlatch : s1.latch = s.latch := by
        rw [← hs1]; unfold State.transferSource; split <;> rfl
      have hrem : s1.remain.toNat = s.remain.toNat - cursorRunLength s.latch.l.toNat s.curO.toNat s.remain.toNat := by
        rw [← hs1]
        exact toNat_word (by have := s.remain.isLt; omega)
      have hcur : s1.curO.toNat = cursorRunNext s.latch.l.toNat s.curO.toNat s.remain.toNat := by
        rw [← hs1]
        exact toNat_word (by have := s.latch.l.isLt; omega)
      have hr1 : Readable s1.mem s1.latch.base.toNat (s1.latch.l.toNat * bpp) := by
        rw [hlatch, ← hs1]
        unfold State.transferSource
        split
        · exact hr.writeBytes _ _
        · exact hr
      obtain ⟨t, rest, hgo, hst⟩ := ih (s := s1) (by rw [hlatch]; exact hl) (by rw [hlatch, hcur]; exact hnext)
        (by rw [hrem]; omega) hr1
      rw [hlatch, hcur, hrem] at hst
      refine ⟨t, _, ?_, Streamed.chunk hl ho rfl hn1 hr hc hst⟩
      rw [generalPath, if_neg h0, hc]
      exact hgo

/-! ### The fast path -/

theorem take_stageFill (stage bytes : List Byte) : (stageFill stage bytes).take bytes.length = bytes := by
  simp [stageFill]

theorem stageFill_length (stage bytes : List Byte) :
    (stageFill stage bytes).length = max stage.length bytes.length := by
  simp only [stageFill, List.length_append, List.length_drop]
  omega

/-- With one pixel in the pattern every position is that pixel (45_stream_emitter.md R175). -/
theorem streamBytes_one (m : Memory) (base : Word) (bpp o n : Nat) :
    streamBytes m base bpp 1 o n = (List.replicate n (pixelAt m base bpp 0)).flatten := by
  unfold streamBytes
  rw [List.flatMap_def]
  congr 1
  simp [Nat.mod_one, List.map_const']

/-- The fast path, R167: what it leaves. -/
theorem fastPath_streams {bpp : Nat} {s : State} (ho : s.curO = 0)
    (hr : Readable s.mem s.latch.base.toNat (1 * bpp)) :
    ∃ t bytes, fastPath bpp s = .next t ∧ Streamed s t s.latch.base bpp 1 0 s.npix.toNat bytes := by
  have ho0 : s.curO.toNat = 0 := by simp [ho]
  have hr0 : Readable s.mem (addressOf s.latch.base bpp s.curO.toNat) bpp := by
    have := readable_chunk (n := 1) (o := 0) hr (by omega)
    rwa [Nat.one_mul, ← ho0] at this
  obtain ⟨px, hpx⟩ := Memory.readBytes_of_readable hr0
  have hpix : pixelAt s.mem s.latch.base bpp 0 = px := by
    rw [ho0] at hpx
    simp [pixelAt, hpx]
  have hpl := Memory.readBytes_length hpx
  have hlen : ((List.replicate s.npix.toNat px).flatten).length = s.npix.toNat * bpp := by simp [hpl]
  have htake : (stageFill s.stage (List.replicate s.npix.toNat px).flatten).take (s.npix.toNat * bpp) =
      (List.replicate s.npix.toNat px).flatten := by
    rw [← hlen]
    exact take_stageFill _ _
  have hmod : (0 + s.npix.toNat) % 1 = 0 := Nat.mod_one _
  cases hc : s.corrupting
  · refine ⟨{ s with
      stage := stageFill s.stage (List.replicate s.npix.toNat px).flatten
      trace := s.trace ++ ((List.replicate s.npix.toNat px).flatten).map .dat
      remain := 0, curO := 0 }, (List.replicate s.npix.toNat px).flatten, ?_, ?_⟩
    · have hc' : State.corrupting { s with
          stage := stageFill s.stage (List.replicate s.npix.toNat px).flatten } = false := hc
      simp only [fastPath, hpx, State.transferStage, hc', Bool.false_eq_true, if_false, htake]
      rfl
    · refine ⟨by rw [hmod]; rfl, hlen, fun _ _ => rfl, hr, fun h _ => h, fun _ => rfl, fun h => absurd rfl h, ?_, ?_,
        fun _ h => absurd rfl h⟩
      · rw [← hlen]
        exact stageFill_length _ _
      · intro _
        rw [streamBytes_one, hpix]
  · refine ⟨{ s with
      stage := stageFill (stageFill s.stage (List.replicate s.npix.toNat px).flatten)
        (freeBytes s.draws (s.npix.toNat * bpp))
      draws := s.draws + s.npix.toNat * bpp
      trace := s.trace ++ ((List.replicate s.npix.toNat px).flatten).map .dat
      remain := 0, curO := 0 }, (List.replicate s.npix.toNat px).flatten, ?_, ?_⟩
    · have hc' : State.corrupting { s with
          stage := stageFill s.stage (List.replicate s.npix.toNat px).flatten } = true := hc
      simp only [fastPath, hpx, State.transferStage, hc', if_true, htake]
      rfl
    · refine ⟨by rw [hmod]; rfl, hlen, fun _ _ => rfl, hr, fun h _ => h, fun _ => rfl, fun h => absurd rfl h, ?_, ?_,
        fun _ h => absurd rfl h⟩
      · show (stageFill _ _).length = _
        rw [stageFill_length, stageFill_length, freeBytes_length, hlen, if_pos rfl]
        omega
      · intro _
        rw [streamBytes_one, hpix]

/-! ### Both -/

/-- Steps 5 to 7 of a draw: they complete, and what they leave. -/
theorem stream_streams {bpp : Nat} {s : State} (hl : 1 ≤ s.latch.l.toNat)
    (ho : s.curO.toNat < s.latch.l.toNat) (hn : s.remain = s.npix)
    (hr : Readable s.mem s.latch.base.toNat (s.latch.l.toNat * bpp)) :
    ∃ t bytes, stream bpp s = .next t ∧
      Streamed s t s.latch.base bpp s.latch.l.toNat s.curO.toNat s.npix.toNat bytes := by
  unfold stream
  by_cases h1 : s.latch.l = 1
  · have hl1 : s.latch.l.toNat = 1 := by simp [h1]
    rw [hl1] at ho hr ⊢
    have ho0 : s.curO = 0 := BitVec.eq_of_toNat_eq (by simpa using ho)
    have ho1 : s.curO.toNat = 0 := by simp [ho0]
    rw [if_pos h1, ho1]
    exact fastPath_streams ho0 hr
  · have hl2 : 2 ≤ s.latch.l.toNat := by
      rcases Nat.lt_or_ge s.latch.l.toNat 2 with h | h
      · exact absurd (BitVec.eq_of_toNat_eq (by simp; omega)) h1
      · exact h
    rw [if_neg h1, ← hn]
    exact generalPath_streams _ hl2 ho (Nat.le_refl _) hr

end Sys2Proof.Machine
end

