-- ==== Sys2Proof/Laws/Draw.lean ====
section
/-! SUPPORT. Everything a draw can do (45_stream_emitter.md R160): what its tests before the first event decide, what
steps 1 to 4 and 8 leave, what a draw that streams leaves, and what every draw that answers a next state leaves. -/

namespace Sys2Proof.Machine

/-! ### The tests before the first event -/

theorem drawCheck_void {s : State} (h : s.latch.base = 0 ∨ s.latch.l = 0) : drawCheck s = .noop := by
  rw [drawCheck, if_pos h]

theorem drawCheck_empty {s : State} (h : s.latch.geometry.npix = 0) : drawCheck s = .noop := by
  by_cases hv : s.latch.base = 0 ∨ s.latch.l = 0
  · exact drawCheck_void hv
  · rw [drawCheck, if_neg hv, if_pos (by omega)]

/-- The tests of a draw that is neither void nor empty, in the order of 60_exceptions.md R197. -/
theorem drawCheck_of_pixels {s : State} (hb : s.latch.base ≠ 0) (hl : s.latch.l ≠ 0)
    (hn : 1 ≤ s.latch.geometry.npix) :
    drawCheck s =
      match s.fmt.bpp with
      | none => .refuse .formatUnset
      | some bpp =>
        if s.latch.geometry.inExtent s.cfg = true then
          if addressLimit ≤ s.latch.base.toNat + s.latch.l.toNat * bpp - 1 then .refuse .addressOverflow
          else if s.latch.l = 1 ∧ s.cfg.stageMaxPixels < s.latch.geometry.npix then .refuse .stageOverflow
          else .go bpp s.latch.geometry.npix (s.latch.geometry.ranges s.cfg s.orientBase)
        else .refuse .outOfExtent := by
  have he : s.latch.geometry.isEmpty = false := by
    rw [← Bool.not_eq_true, Geometry.isEmpty_iff_npix]
    omega
  have hv : ¬ (s.latch.base = 0 ∨ s.latch.l = 0) := not_or.mpr ⟨hb, hl⟩
  unfold drawCheck
  rw [if_neg hv, if_neg (by omega)]
  cases s.fmt.bpp with
  | none => rfl
  | some bpp => by_cases hx : s.latch.geometry.inExtent s.cfg = true <;> simp [windowOf, he, hx]

/-- What a draw whose tests pass is known to meet. -/
theorem drawCheck_go {s : State} {bpp n : Nat} {w : Window} (h : drawCheck s = .go bpp n w) :
    s.latch.base ≠ 0 ∧ s.latch.l ≠ 0 ∧ n = s.latch.geometry.npix ∧ 1 ≤ n ∧ s.fmt.bpp = some bpp ∧
      s.latch.geometry.inExtent s.cfg = true ∧ w = s.latch.geometry.ranges s.cfg s.orientBase ∧
      s.latch.base.toNat + s.latch.l.toNat * bpp ≤ addressLimit ∧
      (s.latch.l = 1 → n ≤ s.cfg.stageMaxPixels) := by
  by_cases hv : s.latch.base = 0 ∨ s.latch.l = 0
  · simp [drawCheck_void hv] at h
  · obtain ⟨hb, hl⟩ := not_or.mp hv
    by_cases hn : s.latch.geometry.npix = 0
    · simp [drawCheck_empty hn] at h
    · have hn1 : 1 ≤ s.latch.geometry.npix := Nat.pos_of_ne_zero hn
      rw [drawCheck_of_pixels hb hl hn1] at h
      split at h
      · simp at h
      · rename_i b hbpp
        split at h
        · rename_i hx
          split at h
          · simp at h
          · rename_i hsp
            split at h
            · simp at h
            · rename_i hst
              simp only [DrawCheck.go.injEq] at h
              obtain ⟨rfl, rfl, rfl⟩ := h
              have hb0 : 0 < s.latch.base.toNat := by
                rcases Nat.eq_zero_or_pos s.latch.base.toNat with h0 | h0
                · exact absurd (BitVec.eq_of_toNat_eq (by simpa using h0)) hb
                · exact h0
              exact ⟨hb, hl, rfl, hn1, hbpp, hx, rfl, by omega, fun h1 => by
                rcases Nat.lt_or_ge s.cfg.stageMaxPixels s.latch.geometry.npix with h2 | h2
                · exact absurd ⟨h1, h2⟩ hst
                · exact h2⟩
        · simp at h

theorem drawCheck_eq_go {s : State} {bpp : Nat} (hb : s.latch.base ≠ 0) (hl : s.latch.l ≠ 0)
    (hn : 1 ≤ s.latch.geometry.npix) (hf : s.fmt.bpp = some bpp) (he : s.latch.geometry.inExtent s.cfg = true)
    (hsp : s.latch.base.toNat + s.latch.l.toNat * bpp ≤ addressLimit)
    (hst : s.latch.l = 1 → s.latch.geometry.npix ≤ s.cfg.stageMaxPixels) :
    drawCheck s = .go bpp s.latch.geometry.npix (s.latch.geometry.ranges s.cfg s.orientBase) := by
  have h1 : ¬ addressLimit ≤ s.latch.base.toNat + s.latch.l.toNat * bpp - 1 := by
    have : 0 < addressLimit := by decide
    omega
  have h2 : ¬ (s.latch.l = 1 ∧ s.cfg.stageMaxPixels < s.latch.geometry.npix) := by
    rintro ⟨a, b⟩
    have := hst a
    omega
  rw [drawCheck_of_pixels hb hl hn, hf]
  simp only [he, if_true, h1, h2, if_false]

/-! ### Steps 1 to 4 -/

/-- The events of steps 2 to 4. -/
def drawHeader (p : Params) (w : Window) : List Event :=
  (if w.ovr = 0 then [] else packet p.cmdMadctl [w.orient]) ++
  packet p.cmdCaset (be16 w.cs ++ be16 w.ce) ++
  packet p.cmdPaset (be16 w.rs ++ be16 w.re) ++
  packet p.cmdRamwr [] ++ [.sel]

/-- The events after the stream's bytes. -/
def drawFooter (p : Params) (ovr : BitVec 3) (orientBase : Byte) : List Event :=
  .desel :: (if ovr = 0 then [] else packet p.cmdMadctl [orientBase])

theorem drawTrace_eq (p : Params) (ob : Byte) (w : Window) (bytes : List Byte) :
    drawTrace p ob w bytes = drawHeader p w ++ (bytes.map .dat ++ drawFooter p w.ovr ob) := by
  simp [drawTrace, drawHeader, drawFooter, burst, List.append_assoc]

/-- The state in which streaming begins, from any state. -/
theorem beginDraw_openBurst_any (s : State) (n : Nat) (w : Window) :
    (s.beginDraw n w).armRam.openBurst = { s with
      npix := BitVec.ofNat 32 n
      remain := BitVec.ofNat 32 n
      curO := BitVec.ofNat 32 (cursorNorm s.latch.l.toNat s.latch.oreq.toNat)
      win := w
      ovr := if w.ovr = 0 then s.ovr else w.ovr
      phase := .streaming
      trace := s.trace ++ drawHeader s.cfg w
      written := { s.written with stream := true, win := true } } := by
  by_cases h : w.ovr = 0
  · have h' : w.ovr = 0#3 := h
    simp [State.beginDraw, State.programWindow, State.applyOverride, State.loadStream, State.setWindow,
      State.armRam, State.openBurst, State.emit, drawHeader, h']
  · have h' : ¬ w.ovr = 0#3 := h
    simp [State.beginDraw, State.programWindow, State.applyOverride, State.loadStream, State.setWindow,
      State.armRam, State.openBurst, State.emit, drawHeader, h']

/-- The state in which streaming begins, from a request boundary. -/
theorem beginDraw_openBurst (s : State) (n : Nat) (w : Window) (ho : s.ovr = 0) :
    (s.beginDraw n w).armRam.openBurst = { s with
      npix := BitVec.ofNat 32 n
      remain := BitVec.ofNat 32 n
      curO := BitVec.ofNat 32 (cursorNorm s.latch.l.toNat s.latch.oreq.toNat)
      win := w
      ovr := w.ovr
      phase := .streaming
      trace := s.trace ++ drawHeader s.cfg w
      written := { s.written with stream := true, win := true } } := by
  rw [beginDraw_openBurst_any]
  by_cases h : w.ovr = 0
  · rw [if_pos h, ho, h]
  · rw [if_neg h]

/-- Step 8 and the end of the draw. -/
theorem closeBurst_eq (s : State) : s.closeBurst = { s with
    trace := s.trace ++ drawFooter s.cfg s.ovr s.orientBase
    ovr := 0
    phase := .idle
    stage := freeBytes s.draws s.stage.length
    draws := s.draws + s.stage.length } := by
  by_cases h : s.ovr = 0
  · have h' : s.ovr = 0#3 := h
    simp [State.closeBurst, State.revertOverride, State.releaseStage, State.emit, drawFooter, h']
  · have h' : ¬ s.ovr = 0#3 := h
    simp [State.closeBurst, State.revertOverride, State.releaseStage, State.emit, drawFooter, h']

/-! ### A draw that streams -/

theorem cursorNorm_lt {l : Nat} (o : Nat) (hl : 1 ≤ l) : cursorNorm l o < l := Nat.mod_lt _ hl

theorem cursorNorm_add (l o n : Nat) : (cursorNorm l o + n) % l = (o + n) % l := Nat.mod_add_mod o l n

theorem toNat_pos_of_ne_zero {v : Word} (h : v ≠ 0) : 1 ≤ v.toNat := by
  rcases Nat.eq_zero_or_pos v.toNat with h0 | h0
  · exact absurd (BitVec.eq_of_toNat_eq (by simpa using h0)) h
  · exact h0

/-- A draw whose tests have passed, with its pattern readable: it completes, and what it leaves. -/
theorem runDraw_streams {s : State} {bpp n : Nat} (w : Window) (hl : s.latch.l ≠ 0) (ho : s.ovr = 0)
    (hn : n < 2 ^ 32) (hr : Readable s.mem s.latch.base.toNat (s.latch.l.toNat * bpp)) :
    ∃ s1 s2 bytes, runDraw bpp n w s = .next { s with
        npix := BitVec.ofNat 32 n
        remain := 0
        curO := BitVec.ofNat 32 ((s.latch.oreq.toNat + n) % s.latch.l.toNat)
        win := w
        phase := .idle
        trace := s.trace ++ drawTrace s.cfg s.orientBase w bytes
        mem := s2.mem
        stage := freeBytes s2.draws s2.stage.length
        draws := s2.draws + s2.stage.length
        written := { s.written with stream := true, win := true } } ∧
      s1.mem = s.mem ∧ s1.stage = s.stage ∧ s1.corrupting = s.corrupting ∧ s1.draws = s.draws ∧
      Streamed s1 s2 s.latch.base bpp s.latch.l.toNat (cursorNorm s.latch.l.toNat s.latch.oreq.toNat) n bytes := by
  have hl1 := toNat_pos_of_ne_zero hl
  generalize hs1 : (s.beginDraw n w).armRam.openBurst = s1
  have e1 := hs1
  rw [beginDraw_openBurst s n w ho] at e1
  have hcur : s1.curO.toNat = cursorNorm s.latch.l.toNat s.latch.oreq.toNat := by
    rw [← e1]
    exact toNat_word (by have := cursorNorm_lt s.latch.oreq.toNat hl1; have := s.latch.l.isLt; omega)
  have hnp : s1.npix.toNat = n := by
    rw [← e1]
    exact toNat_word hn
  have hlatch : s1.latch = s.latch := by rw [← e1]
  obtain ⟨s2, bytes, hgo, hst⟩ := stream_streams (bpp := bpp) (s := s1) (by rw [hlatch]; exact hl1)
    (by rw [hlatch, hcur]; exact cursorNorm_lt _ hl1) (by rw [← e1]) (by rw [hlatch, ← e1]; exact hr)
  rw [hlatch, hcur, hnp] at hst
  refine ⟨s1, s2, bytes, ?_, by rw [← e1], by rw [← e1], by rw [← e1]; rfl, by rw [← e1], hst⟩
  have hsh := hst.shape
  rw [cursorNorm_add] at hsh
  unfold runDraw
  rw [hs1, hgo]
  simp only [Host.Outcome.next.injEq]
  rw [closeBurst_eq, hsh, ← e1]
  simp [drawTrace_eq, ho, List.append_assoc]

end Sys2Proof.Machine
end

