-- ==== Sys2Proof/Laws/Advance.lean ====
section
/-! SUPPORT. What a draw leaves whenever it answers a next state, with no premise on the memory: the inversion of the
two streaming paths, of `runDraw` and of `draw`. -/

namespace Sys2Proof.Machine

/-- The state `t` is `s` after a stream of `n` pixels from position `o` that came to its end; `bytes` are what was
sent. -/
structure Advanced (s t : State) (base : Word) (bpp l o n : Nat) (bytes : List Byte) : Prop where
  /-- Only these fields can differ. -/
  shape : t = { s with
    trace := s.trace ++ bytes.map .dat, mem := t.mem, stage := t.stage, draws := t.draws
    remain := 0, curO := BitVec.ofNat 32 ((o + n) % l) }
  /-- The number of bytes sent. -/
  count : bytes.length = n * bpp
  /-- Memory outside the pattern is untouched (20_memory.md R55, R58). -/
  outside : ∀ a, a < base.toNat ∨ base.toNat + l * bpp ≤ a → Memory.read t.mem a = Memory.read s.mem a
  /-- Without damage, and on the fast path, memory is untouched. -/
  memory : s.corrupting = false ∨ l = 1 → t.mem = s.mem
  /-- The memory keeps its canonical form. -/
  wf : Memory.wf s.mem = true → base.toNat + l * bpp ≤ addressLimit → Memory.wf t.mem = true
  /-- The staging buffer keeps its size, if what the fast path sends fits in it. -/
  stageLength : t.stage.length = if l = 1 then max s.stage.length (n * bpp) else s.stage.length

/-- One transfer from the ColorSource: the fields that can differ. -/
theorem transferSource_shape (s : State) (addr : Nat) (bytes : List Byte) :
    s.transferSource addr bytes = { s with
      trace := s.trace ++ bytes.map .dat
      mem := (s.transferSource addr bytes).mem
      draws := (s.transferSource addr bytes).draws } := by
  unfold State.transferSource
  split <;> rfl

theorem transferSource_read_other (s : State) {addr a : Nat} (bytes : List Byte)
    (h : a < addr ∨ addr + bytes.length ≤ a) :
    Memory.read (s.transferSource addr bytes).mem a = Memory.read s.mem a := by
  cases hc : s.corrupting
  · rw [transferSource_intact _ _ hc]
  · rw [transferSource_corrupting _ _ hc]
    apply Memory.read_writeBytes_other
    rwa [freeBytes_length]

theorem transferSource_wf {s : State} {addr : Nat} (bytes : List Byte) (hm : Memory.wf s.mem = true)
    (h : addr + bytes.length ≤ addressLimit) : Memory.wf (s.transferSource addr bytes).mem = true := by
  cases hc : s.corrupting
  · rw [transferSource_intact _ _ hc]
    exact hm
  · rw [transferSource_corrupting _ _ hc]
    apply Memory.wf_writeBytes _ hm
    rwa [freeBytes_length]

/-- One chunk, if it is sent at all. -/
theorem transferChunk_eq_next {bpp : Nat} {s s1 : State} (h : transferChunk bpp s = .next s1) :
    ∃ bytes, bytes.length = cursorRunLength s.latch.l.toNat s.curO.toNat s.remain.toNat * bpp ∧
      s1 = { s.transferSource (addressOf s.latch.base bpp s.curO.toNat) bytes with
        remain := BitVec.ofNat 32
          (s.remain.toNat - cursorRunLength s.latch.l.toNat s.curO.toNat s.remain.toNat)
        curO := BitVec.ofNat 32 (cursorRunNext s.latch.l.toNat s.curO.toNat s.remain.toNat) } := by
  simp only [transferChunk] at h
  split at h
  · simp at h
  · rename_i bytes hb
    simp only [Host.Outcome.next.injEq] at h
    exact ⟨bytes, Memory.readBytes_length hb, h.symm⟩

/-- The general path, if it comes to its end. -/
theorem generalPath_eq_next {bpp : Nat} {t : State} (fuel : Nat) {s : State} (hl : 2 ≤ s.latch.l.toNat)
    (ho : s.curO.toNat < s.latch.l.toNat) (hf : s.remain.toNat ≤ fuel) (h : generalPath bpp fuel s = .next t) :
    ∃ bytes, Advanced s t s.latch.base bpp s.latch.l.toNat s.curO.toNat s.remain.toNat bytes := by
  induction fuel generalizing s with
  | zero =>
    have h0 : s.remain = 0 := BitVec.eq_of_toNat_eq (by simpa using hf)
    simp only [generalPath, Host.Outcome.next.injEq] at h
    subst h
    refine ⟨[], ?_, by simp [h0], fun _ _ => rfl, fun _ => rfl, fun h _ => h, by rw [if_neg (by omega)]⟩
    rw [h0]
    simp only [List.map_nil, List.append_nil, BitVec.ofNat_eq_ofNat, BitVec.toNat_ofNat, Nat.zero_mod, Nat.add_zero,
      Nat.mod_eq_of_lt ho, BitVec.ofNat_toNat, BitVec.setWidth_eq]
    rw [show (0#32) = s.remain from h0.symm]
  | succ fuel ih =>
    by_cases h0 : s.remain = 0
    · rw [generalPath, if_pos h0] at h
      simp only [Host.Outcome.next.injEq] at h
      subst h
      refine ⟨[], ?_, by simp [h0], fun _ _ => rfl, fun _ => rfl, fun h _ => h, by rw [if_neg (by omega)]⟩
      rw [h0]
      simp only [List.map_nil, List.append_nil, BitVec.ofNat_eq_ofNat, BitVec.toNat_ofNat, Nat.zero_mod, Nat.add_zero,
        Nat.mod_eq_of_lt ho, BitVec.ofNat_toNat, BitVec.setWidth_eq]
      rw [show (0#32) = s.remain from h0.symm]
    · rw [generalPath, if_neg h0] at h
      split at h
      · rename_i s1 hc
        obtain ⟨bytes, hlen, rfl⟩ := transferChunk_eq_next hc
        have hn1 := toNat_pos_of_ne_zero h0
        have hpos := cursorRunLength_pos ho hn1
        have hle := cursorRunLength_le s.latch.l.toNat s.curO.toNat s.remain.toNat
        have hw := cursorRunLength_wrap s.remain.toNat hl ho
        have hnext : cursorRunNext s.latch.l.toNat s.curO.toNat s.remain.toNat < s.latch.l.toNat :=
          cursorRunNext_lt (by omega)
        have hsp : addressOf s.latch.base bpp s.curO.toNat + bytes.length ≤
            s.latch.base.toNat + s.latch.l.toNat * bpp := by
          have := Nat.mul_le_mul_right bpp hw
          rw [Nat.add_mul] at this
          unfold addressOf
          omega
        have hsh := transferSource_shape s (addressOf s.latch.base bpp s.curO.toNat) bytes
        have hwf := transferSource_wf (s := s) (addr := addressOf s.latch.base bpp s.curO.toNat) bytes
        have hout := fun a => transferSource_read_other s (addr := addressOf s.latch.base bpp s.curO.toNat)
          (a := a) bytes
        have hint := transferSource_intact (s := s) (addressOf s.latch.base bpp s.curO.toNat) bytes
        generalize s.transferSource (addressOf s.latch.base bpp s.curO.toNat) bytes = u at h hsh hwf hout hint
        have hlatch : u.latch = s.latch := by rw [hsh]
        have hrem : (BitVec.ofNat 32 (s.remain.toNat -
            cursorRunLength s.latch.l.toNat s.curO.toNat s.remain.toNat)).toNat =
            s.remain.toNat - cursorRunLength s.latch.l.toNat s.curO.toNat s.remain.toNat :=
          toNat_word (by have := s.remain.isLt; omega)
        have hcur : (BitVec.ofNat 32 (cursorRunNext s.latch.l.toNat s.curO.toNat s.remain.toNat)).toNat =
            cursorRunNext s.latch.l.toNat s.curO.toNat s.remain.toNat :=
          toNat_word (by have := s.latch.l.isLt; omega)
        obtain ⟨rest, ha⟩ := ih (by show 2 ≤ u.latch.l.toNat; rw [hlatch]; exact hl)
          (by show BitVec.toNat _ < u.latch.l.toNat; rw [hlatch, hcur]; exact hnext)
          (by show BitVec.toNat _ ≤ fuel; rw [hrem]; omega) h
        simp only [hlatch, hrem, hcur] at ha
        refine ⟨bytes ++ rest, ?_, ?_, ?_, ?_, ?_, ?_⟩
        · have hoff : (cursorRunNext s.latch.l.toNat s.curO.toNat s.remain.toNat +
              (s.remain.toNat - cursorRunLength s.latch.l.toNat s.curO.toNat s.remain.toNat)) % s.latch.l.toNat =
              (s.curO.toNat + s.remain.toNat) % s.latch.l.toNat := by
            rw [cursorRunNext_add]
            congr 2
            omega
          have hs := ha.shape
          rw [hoff] at hs
          rw [hs, hsh]
          simp
        · rw [List.length_append, hlen, ha.count, Nat.sub_mul]
          have := Nat.mul_le_mul_right bpp hle
          omega
        · intro a hab
          rw [ha.outside a hab]
          apply hout
          unfold addressOf at hsp ⊢
          omega
        · intro hi
          rcases hi with hi | hi
          · have hu := hint hi
            rw [ha.memory (.inl (by rw [hu]; exact hi)), hu]
          · omega
        · intro hm hs
          exact ha.wf (hwf hm (by omega)) hs
        · have := ha.stageLength
          rw [show u.stage = s.stage by rw [hsh], if_neg (by omega)] at this
          rw [if_neg (by omega)]
          exact this
      · simp at h
      · simp at h

/-- The fast path, if it comes to its end. -/
theorem fastPath_eq_next {bpp : Nat} {s t : State} (ho : s.curO = 0) (h : fastPath bpp s = .next t) :
    ∃ bytes, Advanced s t s.latch.base bpp 1 0 s.npix.toNat bytes := by
  have hr : Readable s.mem s.latch.base.toNat (1 * bpp) := by
    simp only [fastPath] at h
    split at h
    · simp at h
    · rename_i px hpx
      have := Memory.readable_of_readBytes hpx
      simpa [addressOf, ho] using this
  obtain ⟨t', bytes, hgo, hst⟩ := fastPath_streams ho hr
  rw [h, Host.Outcome.next.injEq] at hgo
  subst hgo
  refine ⟨bytes, hst.shape, hst.count, ?_, fun _ => hst.memory (.inr rfl), hst.wf, ?_⟩
  · intro a _
    rw [hst.memory (.inr rfl)]
  · simpa using hst.stageLength

/-- Steps 5 to 7, if they come to their end. -/
theorem stream_eq_next {bpp : Nat} {s t : State} (hl : 1 ≤ s.latch.l.toNat)
    (ho : s.curO.toNat < s.latch.l.toNat) (hn : s.remain = s.npix) (h : stream bpp s = .next t) :
    ∃ bytes, Advanced s t s.latch.base bpp s.latch.l.toNat s.curO.toNat s.npix.toNat bytes := by
  unfold stream at h
  by_cases h1 : s.latch.l = 1
  · have hl1 : s.latch.l.toNat = 1 := by simp [h1]
    rw [if_pos h1] at h
    rw [hl1] at ho ⊢
    have ho0 : s.curO = 0 := BitVec.eq_of_toNat_eq (by simpa using ho)
    have ho1 : s.curO.toNat = 0 := by simp [ho0]
    rw [ho1]
    exact fastPath_eq_next ho0 h
  · have hl2 : 2 ≤ s.latch.l.toNat := by
      rcases Nat.lt_or_ge s.latch.l.toNat 2 with h2 | h2
      · exact absurd (BitVec.eq_of_toNat_eq (by simp; omega)) h1
      · exact h2
    rw [if_neg h1] at h
    rw [← hn]
    exact generalPath_eq_next _ hl2 ho (Nat.le_refl _) h

/-- A draw, if it answers a next state: it did nothing, or it streamed. -/
theorem draw_eq_next {s t : State} (hp : s.cfg.wf = true) (ho : s.ovr = 0) (h : draw s = .next t) :
    (drawCheck s = .noop ∧ t = s) ∨
    ∃ bpp n w s1 s2 bytes, drawCheck s = .go bpp n w ∧ n < 2 ^ 32 ∧
      t = { s with
        npix := BitVec.ofNat 32 n
        remain := 0
        curO := BitVec.ofNat 32 ((s.latch.oreq.toNat + n) % s.latch.l.toNat)
        win := w
        phase := .idle
        trace := s.trace ++ drawTrace s.cfg s.orientBase w bytes
        mem := s2.mem
        stage := freeBytes s2.draws s2.stage.length
        draws := s2.draws + s2.stage.length
        written := { s.written with stream := true, win := true } } ∧
      s1.mem = s.mem ∧ s1.stage = s.stage ∧ s1.corrupting = s.corrupting ∧
      Advanced s1 s2 s.latch.base bpp s.latch.l.toNat (cursorNorm s.latch.l.toNat s.latch.oreq.toNat) n bytes := by
  unfold draw at h
  split at h
  · rename_i hc
    simp only [Host.Outcome.next.injEq] at h
    exact .inl ⟨hc, h.symm⟩
  · simp at h
  · rename_i bpp n w hc
    right
    obtain ⟨-, hl, hnn, -, -, hx, -, -, -⟩ := drawCheck_go hc
    have hn : n < 2 ^ 32 := by
      have h1 := Geometry.npix_le hp hx
      have h2 := Params.wf_area hp
      omega
    have hl1 := toNat_pos_of_ne_zero hl
    unfold runDraw at h
    split at h
    · rename_i s2 hs2
      generalize hs1 : (s.beginDraw n w).armRam.openBurst = s1 at hs2
      have e1 := hs1
      rw [beginDraw_openBurst s n w ho] at e1
      have hcur : s1.curO.toNat = cursorNorm s.latch.l.toNat s.latch.oreq.toNat := by
        rw [← e1]
        exact toNat_word (by have := cursorNorm_lt s.latch.oreq.toNat hl1; have := s.latch.l.isLt; omega)
      have hnp : s1.npix.toNat = n := by
        rw [← e1]
        exact toNat_word hn
      have hlatch : s1.latch = s.latch := by rw [← e1]
      obtain ⟨bytes, ha⟩ := stream_eq_next (by rw [hlatch]; exact hl1)
        (by rw [hlatch, hcur]; exact cursorNorm_lt _ hl1) (by rw [← e1]) hs2
      rw [hlatch, hcur, hnp] at ha
      refine ⟨bpp, n, w, s1, s2, bytes, hc, hn, ?_, by rw [← e1], by rw [← e1], by rw [← e1]; rfl, ha⟩
      have hsh := ha.shape
      rw [cursorNorm_add] at hsh
      simp only [Host.Outcome.next.injEq] at h
      rw [← h, closeBurst_eq, hsh, ← e1]
      simp [drawTrace_eq, ho, List.append_assoc]
    · simp at h
    · simp at h

end Sys2Proof.Machine
end

