-- ==== Sys2Proof/Laws/PerInstr.lean ====
section
/-! SUPPORT. The round trip, instruction by instruction: decoding the encoding of a well-formed instruction gives it
back, whatever the parameters of 00_scope.md R9 are (30_encoding.md R80 to R97). -/

namespace Sys2Proof.Laws.RoundTrip

/-- Decoding the encoding gives the instruction back. -/
def Statement (i : Instr) : Prop := ∀ p : Params, p.wf = true → i.wf = true → decode p (encode p i) = .ok i

theorem setfmt (code : BitVec 2) : Statement (.setfmt code) := by
  intro p _ h
  simp only [Instr.wf, decide_eq_true_eq] at h
  rcases h with rfl | rfl <;> rfl

theorem setxfer (bulk : Bool) : Statement (.setxfer bulk) := by
  intro p _ _
  cases bulk <;> rfl

theorem encode (r g b : Byte) : Statement (.encode r g b) := by
  intro p _ _
  refine (decodeDescriptor_bytesOfFields
    { zeroFields 0x10 0 with a := r.setWidth 16, b := g.setWidth 16, c := b.setWidth 16 } .encode
    (show lookupOpcode (join16 0x10 0) = _ by decide)).trans ?_
  simp only [instrOfFields, hi_setWidth, lo_setWidth]
  rfl

theorem enchsv (hue : Half) (sat val : Byte) : Statement (.enchsv hue sat val) := by
  intro p _ _
  refine (decodeDescriptor_bytesOfFields
    { zeroFields 0x11 0 with a := hue, b := sat.setWidth 16, c := val.setWidth 16 } .enchsv
    (show lookupOpcode (join16 0x11 0) = _ by decide)).trans ?_
  simp only [instrOfFields, hi_setWidth, lo_setWidth]
  rfl

theorem curnorm (l o : Word) : Statement (.curnorm l o) := by
  intro p _ _
  exact decodeDescriptor_bytesOfFields { zeroFields 0x20 0 with q := l, s := o } .curnorm
    (show lookupOpcode (join16 0x20 0) = _ by decide)

theorem currun (l o remaining : Word) : Statement (.currun l o remaining) := by
  intro p _ _
  exact decodeDescriptor_bytesOfFields { zeroFields 0x21 0 with p := remaining, q := l, s := o } .currun
    (show lookupOpcode (join16 0x21 0) = _ by decide)

theorem awpixel (x0 y0 : Half) : Statement (.awpixel x0 y0) := by
  intro p _ _
  exact decodeDescriptor_bytesOfFields { zeroFields 0x30 0 with a := x0, b := y0 } .awpixel
    (show lookupOpcode (join16 0x30 0) = _ by decide)

theorem awhline (x0 y0 len : Half) (rev : Bool) :
    Statement (.awhline x0 y0 len rev) := by
  intro p _ _
  refine (decodeDescriptor_bytesOfFields
    { zeroFields 0x31 (flagByte 1 rev) with a := x0, b := y0, c := len } .awhline
    (show lookupOpcode (join16 0x31 (flagByte 1 rev)) = _ by cases rev <;> decide)).trans ?_
  cases rev <;> simp [instrOfFields, zeroFields, flagByte]

theorem awvline (x0 y0 len : Half) (rev : Bool) :
    Statement (.awvline x0 y0 len rev) := by
  intro p _ _
  refine (decodeDescriptor_bytesOfFields
    { zeroFields 0x32 (flagByte 2 rev) with a := x0, b := y0, c := len } .awvline
    (show lookupOpcode (join16 0x32 (flagByte 2 rev)) = _ by cases rev <;> decide)).trans ?_
  cases rev <;> simp [instrOfFields, zeroFields, flagByte]

theorem awfill (x0 y0 x1 y1 : Half) (xpose : Bool) :
    Statement (.awfill x0 y0 x1 y1 xpose) := by
  intro p _ _
  refine (decodeDescriptor_bytesOfFields
    { zeroFields 0x33 (flagByte 4 xpose) with a := x0, b := y0, c := x1, d := y1 } .awfill
    (show lookupOpcode (join16 0x33 (flagByte 4 xpose)) = _ by cases xpose <;> decide)).trans ?_
  cases xpose <;> simp [instrOfFields, zeroFields, flagByte]

theorem drawpixel (x0 y0 : Half) (base l o : Word) : Statement (.drawpixel x0 y0 base l o) := by
  intro p _ _
  exact decodeDescriptor_bytesOfFields { zeroFields 0x40 0 with a := x0, b := y0, p := base, q := l, s := o } .drawpixel
    (show lookupOpcode (join16 0x40 0) = _ by decide)

theorem drawhline (x0 y0 len : Half) (base l o : Word) (rev : Bool) :
    Statement (.drawhline x0 y0 len base l o rev) := by
  intro p _ _
  refine (decodeDescriptor_bytesOfFields
    { zeroFields 0x41 (flagByte 1 rev) with a := x0, b := y0, c := len, p := base, q := l, s := o } .drawhline
    (show lookupOpcode (join16 0x41 (flagByte 1 rev)) = _ by cases rev <;> decide)).trans ?_
  cases rev <;> simp [instrOfFields, zeroFields, flagByte]

theorem drawvline (x0 y0 len : Half) (base l o : Word) (rev : Bool) :
    Statement (.drawvline x0 y0 len base l o rev) := by
  intro p _ _
  refine (decodeDescriptor_bytesOfFields
    { zeroFields 0x42 (flagByte 2 rev) with a := x0, b := y0, c := len, p := base, q := l, s := o } .drawvline
    (show lookupOpcode (join16 0x42 (flagByte 2 rev)) = _ by cases rev <;> decide)).trans ?_
  cases rev <;> simp [instrOfFields, zeroFields, flagByte]

theorem drawfill (x0 y0 x1 y1 : Half) (base l o : Word) (xpose : Bool) :
    Statement (.drawfill x0 y0 x1 y1 base l o xpose) := by
  intro p _ _
  refine (decodeDescriptor_bytesOfFields
    { zeroFields 0x43 (flagByte 4 xpose) with a := x0, b := y0, c := x1, d := y1, p := base, q := l, s := o } .drawfill
    (show lookupOpcode (join16 0x43 (flagByte 4 xpose)) = _ by cases xpose <;> decide)).trans ?_
  cases xpose <;> simp [instrOfFields, zeroFields, flagByte]

theorem caset (first last : Half) : Statement (.caset first last) := by
  intro p _ _
  simp [decode, Sys2Proof.encode, decodeBracket_packet, packetOfBytes, be16, join16_be16]

theorem paset (first last : Half) : Statement (.paset first last) := by
  intro p hp _
  have hc := Params.wf_commands hp
  simp only [List.nodup_cons, List.mem_cons, List.not_mem_nil, or_false, not_or] at hc
  obtain ⟨⟨h1, -⟩, -⟩ := hc
  simp [decode, Sys2Proof.encode, decodeBracket_packet, packetOfBytes, be16, join16_be16, Ne.symm h1]

theorem madctl (orient : Byte) : Statement (.madctl orient) := by
  intro p hp _
  have hc := Params.wf_commands hp
  simp only [List.nodup_cons, List.mem_cons, List.not_mem_nil, or_false, not_or] at hc
  obtain ⟨⟨-, -, h1, -⟩, ⟨-, h2, -⟩, -⟩ := hc
  simp [decode, Sys2Proof.encode, decodeBracket_packet, packetOfBytes, Ne.symm h1, Ne.symm h2]

theorem ramwr : Statement .ramwr := by
  intro p hp _
  have hc := Params.wf_commands hp
  simp only [List.nodup_cons, List.mem_cons, List.not_mem_nil, or_false, not_or] at hc
  obtain ⟨⟨-, h1, -⟩, ⟨h2, -⟩, ⟨h3, -⟩, -⟩ := hc
  simp [decode, Sys2Proof.encode, decodeBracket_packet, packetOfBytes, Ne.symm h1, Ne.symm h2, h3]

theorem data (bytes : List Byte) : Statement (.data bytes) := by
  intro p _ h
  cases bytes with
  | nil => simp [Instr.wf] at h
  | cons b bs => exact decodeBracket_burst p b bs

theorem pixset (enc : PixEnc) : Statement (.pixset enc) := by
  intro p hp _
  have hc := Params.wf_commands hp
  have hd := Params.wf_codes hp
  simp only [List.nodup_cons, List.mem_cons, List.not_mem_nil, or_false, not_or] at hc
  obtain ⟨⟨-, -, -, h1⟩, ⟨-, -, h2⟩, ⟨-, h3⟩, h4, -⟩ := hc
  cases enc <;>
    simp [decode, Sys2Proof.encode, decodeBracket_packet, packetOfBytes, PixEnc.payload, Ne.symm h1, Ne.symm h2,
      Ne.symm h3, Ne.symm h4, Ne.symm hd]

end Sys2Proof.Laws.RoundTrip
end

