-- ==== Sys2Proof/Laws/Requests.lean ====
section
/-! SUPPORT. What acceptance gives the shared operations to work on, request by request: a draw request runs `draw` and
an AW request `addressWindow` on a latch with exactly that request's geometry and pattern; and what these answer. -/

namespace Sys2Proof.Machine

/-! ### Nothing but some parts changed -/

theorem UnchangedExcept.intro {parts : List Part} {s t : State} (h : ∀ p : Part, p ∈ parts ∨ p.Unchanged s t) :
    UnchangedExcept parts s t := fun p hp => (h p).resolve_left hp

/-- A state that differs in its latch and in the count of free values only. -/
theorem unchangedExcept_latch {s t : State} (h : t = { s with latch := t.latch, draws := t.draws }) :
    UnchangedExcept [.latch] s t := by
  apply UnchangedExcept.intro
  intro p
  cases p <;> first | (left; simp; done) | (right; rw [h]; simp [Part.Unchanged])

/-! ### AW requests -/

/-- The window function depends on a pixel's anchor alone. -/
theorem windowOf_pixel (p : Params) (ob : Byte) (x0 y0 c d c' d' : Nat) (f f' : BitVec 3) :
    windowOf p ob { kind := .pixel, x0, y0, c, d, flags := f } =
      windowOf p ob { kind := .pixel, x0, y0, c := c', d := d', flags := f' } := rfl

theorem windowOf_hline (p : Params) (ob : Byte) (x0 y0 c d d' : Nat) (f : BitVec 3) :
    windowOf p ob { kind := .hline, x0, y0, c, d, flags := f } =
      windowOf p ob { kind := .hline, x0, y0, c, d := d', flags := f } := rfl

theorem windowOf_vline (p : Params) (ob : Byte) (x0 y0 c d d' : Nat) (f : BitVec 3) :
    windowOf p ob { kind := .vline, x0, y0, c, d, flags := f } =
      windowOf p ob { kind := .vline, x0, y0, c, d := d', flags := f } := rfl

/-- An AW request runs `addressWindow` on its own geometry. -/
theorem exec_windowRequest {i : Instr} {g : Geometry} (s : State) (h : windowRequestOf i = some g) :
    ∃ s1, exec i s = addressWindow s1 ∧ s1 = { s with latch := s1.latch, draws := s1.draws } ∧
      ∀ p ob, windowOf p ob s1.latch.geometry = windowOf p ob g := by
  cases i <;> simp only [windowRequestOf, Option.some.injEq, reduceCtorEq] at h <;> subst h
  · exact ⟨_, rfl, rfl, fun _ _ => rfl⟩
  · exact ⟨_, rfl, rfl, fun _ _ => rfl⟩
  · exact ⟨_, rfl, rfl, fun _ _ => rfl⟩
  · exact ⟨_, rfl, rfl, fun _ _ => rfl⟩

/-- What an AW request answers: the three results of the window function (44_address_window.md part 3). -/
theorem exec_windowRequest_cases {i : Instr} {g : Geometry} (s : State) (h : windowRequestOf i = some g) :
    (windowOf s.cfg s.orientBase g = .empty ∧
      ∃ t, exec i s = .next t ∧ t = { s with latch := t.latch, draws := t.draws }) ∨
    (windowOf s.cfg s.orientBase g = .outOfExtent ∧ exec i s = .refused .outOfExtent) ∨
    ∃ w t, windowOf s.cfg s.orientBase g = .window w ∧ exec i s = .next t ∧
      t = { s with latch := t.latch, draws := t.draws, win := w, written := { s.written with win := true } } := by
  obtain ⟨s1, hx, hs1, hw⟩ := exec_windowRequest s h
  have hc : s1.cfg = s.cfg := by rw [hs1]
  have ho : s1.orientBase = s.orientBase := by rw [hs1]
  unfold addressWindow at hx
  rw [hc, ho, hw] at hx
  cases hr : windowOf s.cfg s.orientBase g with
  | empty =>
    rw [hr] at hx
    exact .inl ⟨rfl, s1, hx, hs1⟩
  | outOfExtent =>
    rw [hr] at hx
    exact .inr (.inl ⟨rfl, hx⟩)
  | window w =>
    rw [hr] at hx
    refine .inr (.inr ⟨w, s1.setWindow w, rfl, hx, ?_⟩)
    rw [hs1]
    rfl

/-! ### Draw requests -/

/-- A draw request runs `draw` on its own geometry and pattern. -/
theorem exec_drawRequest {i : Instr} {r : DrawRequest} (s : State) (h : drawRequestOf i = some r) :
    ∃ s1, exec i s = draw s1 ∧ s1 = { s with latch := s1.latch, draws := s1.draws } ∧
      s1.latch.kind = r.kind ∧ s1.latch.flags = r.flags ∧ s1.latch.x0 = r.x0 ∧ s1.latch.y0 = r.y0 ∧
      s1.latch.base = r.base ∧ s1.latch.l = r.l ∧ s1.latch.oreq = r.o ∧
      s1.latch.geometry.npix = r.npix ∧
      (∀ p, s1.latch.geometry.inExtent p = r.geometry.inExtent p) ∧
      (∀ p ob, s1.latch.geometry.ranges p ob = r.window p ob) ∧
      (r.kind ≠ .pixel → s1.latch.x1len = r.c) ∧ (r.kind = .fill → s1.latch.y1 = r.d) ∧ s1.draws = s.draws + 7 := by
  cases i <;> simp only [drawRequestOf, Option.some.injEq, reduceCtorEq] at h <;> subst h
  · exact ⟨_, rfl, rfl, rfl, rfl, rfl, rfl, rfl, rfl, rfl, rfl, fun _ => rfl, fun _ _ => rfl, fun h => absurd rfl h, nofun,
      rfl⟩
  · exact ⟨_, rfl, rfl, rfl, rfl, rfl, rfl, rfl, rfl, rfl, rfl, fun _ => rfl, fun _ _ => rfl, fun _ => rfl, nofun, rfl⟩
  · exact ⟨_, rfl, rfl, rfl, rfl, rfl, rfl, rfl, rfl, rfl, rfl, fun _ => rfl, fun _ _ => rfl, fun _ => rfl, nofun, rfl⟩
  · exact ⟨_, rfl, rfl, rfl, rfl, rfl, rfl, rfl, rfl, rfl, rfl, fun _ => rfl, fun _ _ => rfl, fun _ => rfl,
      fun _ => rfl, rfl⟩

/-- The tests of R160 on a request: what `drawCheck` says of its latch. -/
theorem exec_drawRequest_check {i : Instr} {r : DrawRequest} (s : State) (h : drawRequestOf i = some r) :
    ∃ s1, exec i s = draw s1 ∧ s1 = { s with latch := s1.latch, draws := s1.draws } ∧
      (r.base = 0 ∨ r.l = 0 ∨ r.npix < 1 → drawCheck s1 = .noop) ∧
      (∀ bpp n w, drawCheck s1 = .go bpp n w →
        r.Passes s bpp ∧ n = r.npix ∧ w = r.window s.cfg s.orientBase) ∧
      (∀ bpp, r.Passes s bpp → drawCheck s1 = .go bpp r.npix (r.window s.cfg s.orientBase)) ∧
      (r.base ≠ 0 → r.l ≠ 0 → 1 ≤ r.npix → drawCheck s1 =
        match s.fmt.bpp with
        | none => .refuse .formatUnset
        | some bpp =>
          if r.geometry.inExtent s.cfg = true then
            if addressLimit ≤ r.base.toNat + r.l.toNat * bpp - 1 then .refuse .addressOverflow
            else if r.l = 1 ∧ s.cfg.stageMaxPixels < r.npix then .refuse .stageOverflow
            else .go bpp r.npix (r.window s.cfg s.orientBase)
          else .refuse .outOfExtent) ∧
      s1.latch.kind = r.kind ∧ s1.latch.flags = r.flags ∧ s1.latch.x0 = r.x0 ∧ s1.latch.y0 = r.y0 ∧
      s1.latch.base = r.base ∧ s1.latch.l = r.l ∧ s1.latch.oreq = r.o ∧
      (r.kind ≠ .pixel → s1.latch.x1len = r.c) ∧ (r.kind = .fill → s1.latch.y1 = r.d) ∧ s1.draws = s.draws + 7 := by
  obtain ⟨s1, hx, hs1, hk, hf, hx0, hy0, hb, hl, ho, hn, he, hw, hc, hd, hdr⟩ := exec_drawRequest s h
  have hcfg : s1.cfg = s.cfg := by rw [hs1]
  have hob : s1.orientBase = s.orientBase := by rw [hs1]
  have hfmt : s1.fmt = s.fmt := by rw [hs1]
  refine ⟨s1, hx, hs1, ?_, ?_, ?_, ?_, hk, hf, hx0, hy0, hb, hl, ho, hc, hd, hdr⟩
  · rintro (h1 | h1 | h1)
    · exact drawCheck_void (.inl (hb.trans h1))
    · exact drawCheck_void (.inr (hl.trans h1))
    · exact drawCheck_empty (by omega)
  · intro bpp n w hgo
    obtain ⟨a1, a2, a3, a4, a5, a6, a7, a8, a9⟩ := drawCheck_go hgo
    rw [hb] at a1 a8
    rw [hl] at a2 a8 a9
    rw [hn] at a3
    rw [hfmt] at a5
    rw [hcfg, he] at a6
    rw [hcfg, hob, hw] at a7
    rw [hcfg] at a9
    exact ⟨⟨a1, a2, by omega, a5, a6, a8, fun h1 => by rw [← a3]; exact a9 h1⟩, a3, a7⟩
  · intro bpp hp
    have := drawCheck_eq_go (s := s1) (bpp := bpp) (by rw [hb]; exact hp.present) (by rw [hl]; exact hp.cycle)
      (by rw [hn]; exact hp.pixels) (by rw [hfmt]; exact hp.format) (by rw [hcfg, he]; exact hp.extent)
      (by rw [hb, hl]; exact hp.space) (by rw [hl, hn, hcfg]; exact hp.staging)
    rw [this, hn, hcfg, hob, hw]
  · intro h1 h2 h3
    rw [drawCheck_of_pixels (by rw [hb]; exact h1) (by rw [hl]; exact h2) (by rw [hn]; exact h3), hfmt]
    cases s.fmt.bpp <;> simp only [hb, hl, hn, hcfg, hob, he, hw]

/-- A request that passes every test covers fewer than `2^32` pixels. -/
theorem DrawRequest.Passes.npix_lt {r : DrawRequest} {s : State} {bpp : Nat} (h : r.Passes s bpp)
    (hp : s.cfg.wf = true) : r.npix < 2 ^ 32 := by
  have h1 := Geometry.npix_le hp h.extent
  have h2 := Params.wf_area hp
  have h3 : r.npix = r.geometry.npix := rfl
  omega

end Sys2Proof.Machine
end

