-- ==== Sys2Proof/Laws/Stuck.lean ====
section
/-! SUPPORT. The two ways a stream can end, with no premise on the memory: it comes to its end, or it is stuck at an
unreadable byte (20_memory.md R52). -/

namespace Sys2Proof.Machine

/-- A transfer of bytes that were read leaves the same addresses readable. -/
theorem transferSource_read_none {s : State} {addr a : Nat} {bytes : List Byte}
    (hb : Memory.readBytes s.mem addr bytes.length = some bytes) :
    Memory.read (s.transferSource addr bytes).mem a = none ↔ Memory.read s.mem a = none := by
  by_cases ha : a < addr ∨ addr + bytes.length ≤ a
  · rw [transferSource_read_other s bytes ha]
  · have h1 := Memory.readable_of_readBytes hb a (by omega) (by omega)
    have h2 : (Memory.read (s.transferSource addr bytes).mem a).isSome = true := by
      cases hc : s.corrupting
      · rw [transferSource_intact _ _ hc]
        exact h1
      · rw [transferSource_corrupting _ _ hc]
        exact Memory.isSome_read_writeBytes _ _ _ _ h1
    constructor <;> intro h <;> simp_all

/-- Where a read of several bytes fails, and why (20_memory.md R52). -/
theorem Memory.readBytes_eq_none {m : Memory} {addr n : Nat} (h : Memory.readBytes m addr n = none) :
    Memory.read m (Memory.firstUnreadable m addr n) = none ∧ addr ≤ Memory.firstUnreadable m addr n ∧
      Memory.firstUnreadable m addr n < addr + n := by
  induction n generalizing addr with
  | zero => simp [Memory.readBytes] at h
  | succ n ih =>
    simp only [Memory.firstUnreadable]
    split
    · rename_i h1
      exact ⟨by simpa using h1, Nat.le_refl _, by omega⟩
    · rename_i h1
      simp only [Memory.readBytes] at h
      split at h
      · simp at h
      · rename_i h2
        have : Memory.readBytes m (addr + 1) n = none := by
          cases hx : Memory.read m addr with
          | none => simp [hx] at h1
          | some b =>
            cases hy : Memory.readBytes m (addr + 1) n with
            | none => rfl
            | some bs => exact absurd hy (h2 b bs hx)
        obtain ⟨a, b, c⟩ := ih this
        exact ⟨a, by omega, by omega⟩

/-- An address inside a run of pixels lies inside one of them. -/
theorem addressOf_pixel {base : Word} {bpp o run a : Nat} (h1 : addressOf base bpp o ≤ a)
    (h2 : a < addressOf base bpp o + run * bpp) :
    ∃ k, k < run ∧ addressOf base bpp (o + k) ≤ a ∧ a < addressOf base bpp (o + k) + bpp := by
  have hbpp : 0 < bpp := by
    rcases Nat.eq_zero_or_pos bpp with h | h
    · subst h
      simp at h2
      omega
    · exact h
  have e : ∀ k, addressOf base bpp (o + k) = addressOf base bpp o + k * bpp := by
    intro k
    unfold addressOf
    rw [Nat.add_mul]
    omega
  refine ⟨(a - addressOf base bpp o) / bpp, (Nat.div_lt_iff_lt_mul hbpp).mpr (by omega), ?_⟩
  rw [e]
  have h3 := Nat.div_mul_le_self (a - addressOf base bpp o) bpp
  have h4 := Nat.lt_div_mul_add (a := a - addressOf base bpp o) hbpp
  omega

/-- The general path comes to its end, every pixel it sends having been readable, or it stops at an unreadable byte of
one of them. -/
theorem generalPath_or_stuck {bpp : Nat} (fuel : Nat) {s : State} (hl : 2 ≤ s.latch.l.toNat)
    (ho : s.curO.toNat < s.latch.l.toNat) (hf : s.remain.toNat ≤ fuel) :
    (∃ t, generalPath bpp fuel s = .next t ∧ ∀ k, k < s.remain.toNat →
      Readable s.mem (addressOf s.latch.base bpp ((s.curO.toNat + k) % s.latch.l.toNat)) bpp) ∨
    ∃ a, generalPath bpp fuel s = .fault (.unreadable a) ∧ Memory.read s.mem a = none ∧
      ∃ k, k < s.remain.toNat ∧ addressOf s.latch.base bpp ((s.curO.toNat + k) % s.latch.l.toNat) ≤ a ∧
        a < addressOf s.latch.base bpp ((s.curO.toNat + k) % s.latch.l.toNat) + bpp := by
  induction fuel generalizing s with
  | zero => exact .inl ⟨s, rfl, by intro k hk; omega⟩
  | succ fuel ih =>
    by_cases h0 : s.remain = 0
    · exact .inl ⟨s, by rw [generalPath, if_pos h0], by intro k hk; rw [h0] at hk; simp at hk⟩
    · have hpos := cursorRunLength_pos ho (toNat_pos_of_ne_zero h0)
      have hle := cursorRunLength_le s.latch.l.toNat s.curO.toNat s.remain.toNat
      have hw := cursorRunLength_wrap s.remain.toNat hl ho
      have hnext : cursorRunNext s.latch.l.toNat s.curO.toNat s.remain.toNat < s.latch.l.toNat :=
        cursorRunNext_lt (by omega)
      have hadd := fun k => cursorRunNext_add s.latch.l.toNat s.curO.toNat s.remain.toNat k
      have hnone := fun bytes a => transferSource_read_none (s := s)
        (addr := addressOf s.latch.base bpp s.curO.toNat) (bytes := bytes) (a := a)
      rw [generalPath, if_neg h0]
      unfold transferChunk
      simp only
      generalize hrun : cursorRunLength s.latch.l.toNat s.curO.toNat s.remain.toNat = run at *
      generalize hnxt : cursorRunNext s.latch.l.toNat s.curO.toNat s.remain.toNat = nxt at *
      have hmod : ∀ k, k < run → (s.curO.toNat + k) % s.latch.l.toNat = s.curO.toNat + k :=
        fun k hk => Nat.mod_eq_of_lt (by omega)
      cases hb : Memory.readBytes s.mem (addressOf s.latch.base bpp s.curO.toNat) (run * bpp) with
      | none =>
        right
        obtain ⟨h1, h2, h3⟩ := Memory.readBytes_eq_none hb
        obtain ⟨k, hk, h4, h5⟩ := addressOf_pixel h2 h3
        exact ⟨_, rfl, h1, k, by omega, by rw [hmod k hk]; exact h4, by rw [hmod k hk]; exact h5⟩
      | some bytes =>
        simp only
        have hlen := Memory.readBytes_length hb
        replace hnone := fun a => hnone bytes a (by rw [hlen]; exact hb)
        have hsh := transferSource_shape s (addressOf s.latch.base bpp s.curO.toNat) bytes
        generalize s.transferSource (addressOf s.latch.base bpp s.curO.toNat) bytes = u at hnone hsh ⊢
        generalize hv : ({ u with
            remain := BitVec.ofNat 32 (s.remain.toNat - run)
            curO := BitVec.ofNat 32 nxt } : State) = v
        have hvl : v.latch = s.latch := by rw [← hv, hsh]
        have hvr : v.remain.toNat = s.remain.toNat - run := by
          rw [← hv]
          exact toNat_word (by have := s.remain.isLt; omega)
        have hvc : v.curO.toNat = nxt := by
          rw [← hv]
          exact toNat_word (by have := s.latch.l.isLt; omega)
        have hvm : v.mem = u.mem := by rw [← hv]
        have h := ih (s := v) (by rw [hvl]; exact hl) (by rw [hvl, hvc]; exact hnext) (by rw [hvr]; omega)
        simp only [hvl, hvr, hvc, hvm, hadd] at h
        rcases h with ⟨t, h1, h2⟩ | ⟨a, h1, h2, k, hk, h3⟩
        · refine .inl ⟨t, h1, ?_⟩
          intro k hk
          by_cases hkr : k < run
          · rw [hmod k hkr]
            have e := Nat.mul_le_mul_right bpp (show k + 1 ≤ run by omega)
            apply (Memory.readable_of_readBytes hb).sub <;> unfold addressOf <;> rw [Nat.add_mul] <;>
              (rw [Nat.add_mul] at e; omega)
          · have h3 := h2 (k - run) (by omega)
            rw [show run + (k - run) = k by omega] at h3
            intro a ha hb
            have h4 := h3 a ha hb
            cases hm : Memory.read s.mem a with
            | some b => rfl
            | none => rw [(hnone a).mpr hm] at h4; exact h4
        · exact .inr ⟨a, h1, (hnone a).mp h2, run + k, by omega, h3⟩

/-- Steps 5 to 7, likewise. -/
theorem stream_or_stuck {bpp : Nat} {s : State} (hl : 1 ≤ s.latch.l.toNat)
    (ho : s.curO.toNat < s.latch.l.toNat) (hn : s.remain = s.npix) (hn1 : 1 ≤ s.npix.toNat) :
    (∃ t, stream bpp s = .next t ∧ ∀ k, k < s.npix.toNat →
      Readable s.mem (addressOf s.latch.base bpp ((s.curO.toNat + k) % s.latch.l.toNat)) bpp) ∨
    ∃ a, stream bpp s = .fault (.unreadable a) ∧ Memory.read s.mem a = none ∧
      ∃ k, k < s.npix.toNat ∧ addressOf s.latch.base bpp ((s.curO.toNat + k) % s.latch.l.toNat) ≤ a ∧
        a < addressOf s.latch.base bpp ((s.curO.toNat + k) % s.latch.l.toNat) + bpp := by
  unfold stream
  by_cases h1 : s.latch.l = 1
  · rw [if_pos h1]
    have hl1 : s.latch.l.toNat = 1 := by simp [h1]
    have hc0 : s.curO.toNat = 0 := by omega
    simp only [hl1, Nat.mod_one, fastPath, hc0]
    cases hb : Memory.readBytes s.mem (addressOf s.latch.base bpp 0) bpp with
    | none =>
      obtain ⟨a, b, c⟩ := Memory.readBytes_eq_none hb
      exact .inr ⟨_, rfl, a, 0, hn1, b, c⟩
    | some px => exact .inl ⟨_, rfl, fun k hk => Memory.readable_of_readBytes hb⟩
  · have hl2 : 2 ≤ s.latch.l.toNat := by
      rcases Nat.lt_or_ge s.latch.l.toNat 2 with h2 | h2
      · exact absurd (BitVec.eq_of_toNat_eq (by simp; omega)) h1
      · exact h2
    rw [if_neg h1, ← hn]
    exact generalPath_or_stuck _ hl2 ho (Nat.le_refl _)

end Sys2Proof.Machine
end

