-- ==== Sys2Proof/Tests/Slice0.lean ====
section
/-! SUPPORT. The model's own tests. Every expected value is the spec's: a worked example of a rule, or a vector of
95_test_vectors.md, named in each test's comment. -/

namespace Sys2Proof.Tests

open Sys2Proof.Machine

/-! ### Helpers -/

/-- A machine with the default parameters, this format, default orientation and ColorSource. -/
def machine (fmt : Fmt) (orient : Byte) (mem : Memory) : State :=
  { State.resetOf { Params.default with orientDefault := orient } with fmt := fmt, mem := mem }

/-- The same machine in bulk mode on a Transport with the bulk defect. -/
def bulkMachine (fmt : Fmt) (mem : Memory) : State :=
  { State.resetOf { Params.default with bulkCorrupts := true } with fmt := fmt, xfer := .bulk, mem := mem }

/-- One field of the next state, if there is one. -/
def after {α : Type} (o : Host.Outcome State Fault Refusal) (f : State → α) : Option α :=
  match o with
  | .next t => some (f t)
  | .fault _ => none
  | .refused _ => none

/-- The reason of a refusal, if it is one. -/
def refusal (o : Host.Outcome State Fault Refusal) : Option Refusal :=
  match o with
  | .next _ => none
  | .fault _ => none
  | .refused r => some r

/-- The reason of a fault, if it is one. -/
def faultOf (o : Host.Outcome State Fault Refusal) : Option Fault :=
  match o with
  | .next _ => none
  | .fault f => some f
  | .refused _ => none

/-- A packet in the notation of 00_scope.md R16. -/
def pk (c : Byte) (ds : List Byte) : List Event := [.sel, .cmd c] ++ ds.map .dat ++ [.desel]

/-- The six window registers. -/
def winOf (s : State) : List Nat :=
  [s.win.cs.toNat, s.win.ce.toNat, s.win.rs.toNat, s.win.re.toNat, s.win.ovr.toNat, s.win.orient.toNat]

/-- Bytes at consecutive addresses. -/
def bytesAt (addr : Nat) : List Byte → Memory
  | [] => []
  | b :: bs => (addr, b) :: bytesAt (addr + 1) bs

/-- `0x1000`: three 18-bit pixels, 95_test_vectors.md V5.15. -/
def memP2 : Memory := bytesAt 0x1000 [0x10, 0x11, 0x12, 0x20, 0x21, 0x22, 0x30, 0x31, 0x32]

/-- `0x2000`: one 16-bit pixel, pure red, 95_test_vectors.md P1. -/
def memP1 : Memory := bytesAt 0x2000 [0xF8, 0x00]

/-- `0x3000`: two 16-bit pixels, 95_test_vectors.md P4. -/
def memP4 : Memory := bytesAt 0x3000 [0xA1, 0xA2, 0xB1, 0xB2]

/-- The trace of a draw: the column payload, the row payload, the stream bytes. -/
def drawn (col row ds : List Byte) : List Event :=
  pk 0x2A col ++ (pk 0x2B row ++ (pk 0x2C [] ++ (Event.sel :: (ds.map Event.dat ++ [Event.desel]))))

/-! ### Well-formedness refuses an ill-formed term for each check -/

theorem test_wf_setfmt_code0 : (Instr.setfmt 0).wf = false := by decide
theorem test_wf_setfmt_code3 : (Instr.setfmt 3).wf = false := by decide
theorem test_wf_data_empty : (Instr.data []).wf = false := by decide
theorem test_wf_params_width : Params.wf { Params.default with devWidth := 0 } = false := by decide
theorem test_wf_params_height : Params.wf { Params.default with devHeight := 65537 } = false := by decide
theorem test_wf_params_area :
    Params.wf { Params.default with devWidth := 65536, devHeight := 65536 } = false := by decide
theorem test_wf_params_commands : Params.wf { Params.default with cmdPaset := 0x2A } = false := by decide
theorem test_wf_params_codes : Params.wf { Params.default with pxlfmt18Code := 0x55 } = false := by decide
theorem test_wf_params_default : Params.default.wf = true := by decide

/-! ### Decoding, words written out from 30_encoding.md R80 to R95 and the descriptors of 95_test_vectors.md -/

/-- V2.1. -/
theorem test_decode_setfmt :
    decode Params.default (.descriptor [0x01, 0, 0, 0x01, 0, 0, 0, 0, 0, 0, 0, 0, 0, 0, 0, 0, 0, 0, 0, 0, 0, 0])
      = .ok (.setfmt 1) := by rfl
/-- V2.4: code 3 is reserved. -/
theorem test_decode_setfmt_code3 :
    decode Params.default (.descriptor [0x01, 0, 0, 0x03, 0, 0, 0, 0, 0, 0, 0, 0, 0, 0, 0, 0, 0, 0, 0, 0, 0, 0])
      = .error .formatCode := by rfl
/-- V2.5. -/
theorem test_decode_setxfer :
    decode Params.default (.descriptor [0x02, 0, 0, 0x01, 0, 0, 0, 0, 0, 0, 0, 0, 0, 0, 0, 0, 0, 0, 0, 0, 0, 0])
      = .ok (.setxfer true) := by rfl
/-- V2.7: `A[15:1]` must be 0. -/
theorem test_decode_setxfer_reserved :
    decode Params.default (.descriptor [0x02, 0, 0, 0x02, 0, 0, 0, 0, 0, 0, 0, 0, 0, 0, 0, 0, 0, 0, 0, 0, 0, 0])
      = .error .operandBits := by rfl
/-- S1. -/
theorem test_decode_encode :
    decode Params.default
        (.descriptor [0x10, 0, 0, 0xFF, 0, 0x80, 0, 0x10, 0, 0, 0, 0, 0, 0, 0, 0, 0, 0, 0, 0, 0, 0])
      = .ok (.encode 0xFF 0x80 0x10) := by rfl
/-- V1.17: `A[15:8]` must be 0. -/
theorem test_decode_encode_reserved :
    decode Params.default
        (.descriptor [0x10, 0, 0x01, 0xFF, 0, 0x80, 0, 0x10, 0, 0, 0, 0, 0, 0, 0, 0, 0, 0, 0, 0, 0, 0])
      = .error .operandBits := by rfl
/-- V1.19. -/
theorem test_decode_enchsv :
    decode Params.default
        (.descriptor [0x11, 0, 0x01, 0, 0, 0x80, 0, 0xFF, 0, 0, 0, 0, 0, 0, 0, 0, 0, 0, 0, 0, 0, 0])
      = .ok (.enchsv 0x0100 0x80 0xFF) := by rfl
/-- V6.2: fields CURNORM does not name are ignored. -/
theorem test_decode_curnorm_ignores :
    decode Params.default
        (.descriptor [0x20, 0, 0xFF, 0xFF, 0xFF, 0xFF, 0xFF, 0xFF, 0xFF, 0xFF, 0xFF, 0xFF, 0xFF, 0xFF, 0, 0, 0, 3,
          0, 0, 0, 8])
      = .ok (.curnorm 3 8) := by rfl
/-- V3.13. -/
theorem test_decode_currun :
    decode Params.default
        (.descriptor [0x21, 0, 0, 0, 0, 0, 0, 0, 0, 0, 0, 0, 0, 7, 0, 0, 0, 3, 0, 0, 0, 2])
      = .ok (.currun 3 2 7) := by rfl
/-- V4.2. -/
theorem test_decode_awpixel :
    decode Params.default
        (.descriptor [0x30, 0, 0, 0xEF, 0x01, 0x3F, 0, 0, 0, 0, 0, 0, 0, 0, 0, 0, 0, 0, 0, 0, 0, 0])
      = .ok (.awpixel 239 319) := by rfl
/-- V4.8. -/
theorem test_decode_awhline :
    decode Params.default
        (.descriptor [0x31, 0x01, 0, 0x09, 0, 0, 0, 0x0A, 0, 0, 0, 0, 0, 0, 0, 0, 0, 0, 0, 0, 0, 0])
      = .ok (.awhline 9 0 10 true) := by rfl
/-- V4.27: RV on AWHLINE. -/
theorem test_decode_awhline_flag :
    decode Params.default
        (.descriptor [0x31, 0x02, 0, 0x09, 0, 0, 0, 0x0A, 0, 0, 0, 0, 0, 0, 0, 0, 0, 0, 0, 0, 0, 0])
      = .error .opcodeOrFlags := by rfl
/-- V4.16. -/
theorem test_decode_awvline :
    decode Params.default
        (.descriptor [0x32, 0x02, 0, 0x64, 0, 0x0A, 0, 0x03, 0, 0, 0, 0, 0, 0, 0, 0, 0, 0, 0, 0, 0, 0])
      = .ok (.awvline 100 10 3 true) := by rfl
/-- S3. -/
theorem test_decode_awfill :
    decode Params.default
        (.descriptor [0x33, 0x04, 0, 5, 0, 2, 0, 9, 0, 6, 0, 0, 0, 0, 0, 0, 0, 0, 0, 0, 0, 0])
      = .ok (.awfill 5 2 9 6 true) := by rfl
/-- V5.15. -/
theorem test_decode_drawpixel :
    decode Params.default
        (.descriptor [0x40, 0, 0, 0xEF, 0x01, 0x3F, 0, 0, 0, 0, 0, 0, 0x10, 0, 0, 0, 0, 3, 0, 0, 0, 4])
      = .ok (.drawpixel 239 319 0x1000 3 4) := by rfl
/-- The worked example of 30_encoding.md R98. -/
theorem test_decode_drawhline :
    decode Params.default
        (.descriptor [0x41, 0x01, 0, 0x09, 0, 0x05, 0, 0x0A, 0, 0, 0, 0, 0x20, 0, 0, 0, 0, 1, 0, 0, 0, 0])
      = .ok (.drawhline 9 5 10 0x2000 1 0 true) := by rfl
/-- V5.16. -/
theorem test_decode_drawvline :
    decode Params.default
        (.descriptor [0x42, 0x02, 0, 0x64, 0, 0x0A, 0, 0x03, 0, 0, 0, 0, 0x20, 0, 0, 0, 0, 1, 0, 0, 0, 0])
      = .ok (.drawvline 100 10 3 0x2000 1 0 true) := by rfl
/-- P4. -/
theorem test_decode_drawfill :
    decode Params.default
        (.descriptor [0x43, 0x04, 0, 5, 0, 2, 0, 9, 0, 6, 0, 0, 0x30, 0, 0, 0, 0, 2, 0, 0, 0, 1])
      = .ok (.drawfill 5 2 9 6 0x3000 2 1 true) := by rfl
/-- V5.13: OP 0x44 is reserved. -/
theorem test_decode_reserved_op :
    decode Params.default (.descriptor (0x44 :: List.replicate 21 0)) = .error .opcodeOrFlags := by rfl
/-- R80: a descriptor has exactly 22 bytes. -/
theorem test_decode_short : decode Params.default (.descriptor (0x41 :: List.replicate 20 0)) = .error .length := by
  rfl
/-- R91's example: the column range [230, 239] is `00 E6 00 EF`. -/
theorem test_decode_caset :
    decode Params.default (.bracket [.sel, .cmd 0x2A, .dat 0, .dat 0xE6, .dat 0, .dat 0xEF, .desel])
      = .ok (.caset 230 239) := by rfl
/-- R91's example: the row range [309, 311] is `01 35 01 37`. -/
theorem test_decode_paset :
    decode Params.default (.bracket [.sel, .cmd 0x2B, .dat 0x01, .dat 0x35, .dat 0x01, .dat 0x37, .desel])
      = .ok (.paset 309 311) := by rfl
/-- P3's override packet. -/
theorem test_decode_madctl :
    decode Params.default (.bracket [.sel, .cmd 0x36, .dat 0x08, .desel]) = .ok (.madctl 0x08) := by rfl
/-- R93. -/
theorem test_decode_ramwr : decode Params.default (.bracket [.sel, .cmd 0x2C, .desel]) = .ok .ramwr := by rfl
/-- R94, the burst of V5.15. -/
theorem test_decode_data :
    decode Params.default (.bracket [.sel, .dat 0x20, .dat 0x21, .dat 0x22, .desel])
      = .ok (.data [0x20, 0x21, 0x22]) := by rfl
/-- V2.2's packet. -/
theorem test_decode_pixset :
    decode Params.default (.bracket [.sel, .cmd 0x3A, .dat 0x66, .desel]) = .ok (.pixset .bits18) := by rfl
/-- R96: another command byte is no packet of the engine. -/
theorem test_decode_foreign : decode Params.default (.bracket [.sel, .cmd 0x11, .desel]) = .error .commandByte := by
  rfl
/-- R97: the payload length is fixed by the command. -/
theorem test_decode_payload_length :
    decode Params.default (.bracket [.sel, .cmd 0x36, .dat 0, .dat 0, .desel]) = .error .payloadLength := by rfl
/-- R95: no other payload value. -/
theorem test_decode_pixset_code :
    decode Params.default (.bracket [.sel, .cmd 0x3A, .dat 0x00, .desel]) = .error .pixelFormatCode := by rfl
/-- R63: brackets never nest. -/
theorem test_decode_nested : decode Params.default (.bracket [.sel, .sel, .desel, .desel]) = .error .notOneBracket := by
  rfl
/-- The worked example of 30_encoding.md R98, as text. -/
theorem test_asm_drawhline :
    (Instr.drawhline 9 5 10 0x2000 1 0 true).asm = "DRAWHLINE 9, 5, 10, @8192, 1, 0, REV" := by decide

/-! ### The opcode-table probe -/

/-- The match word of the DRAWHLINE row, operand words zero: a void draw, which is a no-op. -/
theorem test_table_word_runs :
    after (step (State.reset.withFetchWord 16 0x4100)) (fun t => (t.trace, t.latch.kind, t.phase))
      = some ([], .hline, .idle) := by decide
/-- The command byte of the CASET row. -/
theorem test_table_packet_runs :
    after (step (State.reset.withFetchWord 8 0x2A)) (fun t => t.trace) = some (pk 0x2A [0, 0, 0, 0]) := by decide

/-! ### ColorCodec -/

/-- S1. -/
theorem test_encode_fmt16 :
    after (exec (.encode 0xFF 0x80 0x10) (machine .fmt16 0 [])) (fun t => (t.resB0, t.resB1, t.resB2, t.resN))
      = some (0xFC, 0x02, 0x00, 2) := by decide
/-- V1.15. -/
theorem test_encode_fmt18 :
    after (exec (.encode 0xFF 0x80 0x10) (machine .fmt18 0 [])) (fun t => (t.resB0, t.resB1, t.resB2, t.resN))
      = some (0xFF, 0x80, 0x10, 3) := by decide
/-- V1.9. -/
theorem test_enc16_mixed : enc16 ⟨0x12, 0x34, 0x56⟩ = [0x11, 0xAA] := by decide
/-- V1.7. -/
theorem test_enc16_low_bits : enc16 ⟨0x08, 0x04, 0x08⟩ = [0x08, 0x21] := by decide
/-- V1.19: the number of bytes is known whatever `HSV2RGB` is. -/
theorem test_enchsv_count :
    after (exec (.enchsv 0x0100 0x80 0xFF) (machine .fmt16 0 [])) (fun t => (t.resB2, t.resN)) = some (0, 2) := by
  decide
/-- V1.20. -/
theorem test_enchsv_unset :
    refusal (exec (.enchsv 0x0100 0x80 0xFF) (machine .unset 0 [])) = some .formatUnset := by decide

/-! ### PixelFormatState -/

/-- V2.1. -/
theorem test_setfmt_16 :
    after (exec (.setfmt 1) State.reset) (fun t => (t.fmt, t.trace)) = some (.fmt16, pk 0x3A [0x55]) := by decide
/-- V2.2. -/
theorem test_setfmt_18 :
    after (exec (.setfmt 2) (machine .fmt16 0 [])) (fun t => (t.fmt, t.trace)) = some (.fmt18, pk 0x3A [0x66]) := by
  decide
/-- V2.5. -/
theorem test_setxfer_bulk :
    after (exec (.setxfer true) State.reset) (fun t => (t.xfer, t.trace)) = some (.bulk, []) := by decide
/-- V2.6. -/
theorem test_setxfer_byte :
    after (exec (.setxfer false) (bulkMachine .unset [])) (fun t => t.xfer) = some .bytewise := by decide

/-! ### ColorCycleCursor -/

/-- V3.15. -/
theorem test_curnorm : after (exec (.curnorm 3 8) State.reset) (fun t => t.resO) = some 2 := by decide
/-- V3.16. -/
theorem test_curnorm_zero : refusal (exec (.curnorm 0 5) State.reset) = some .zeroCycle := by decide
/-- V3.14. -/
theorem test_currun_normalises :
    after (exec (.currun 3 8 7) State.reset) (fun t => (t.resRun, t.resO)) = some (1, 0) := by decide
/-- V3.5: the special case `L = 1`. -/
theorem test_currun_l1 :
    after (exec (.currun 1 0 100) State.reset) (fun t => (t.resRun, t.resO)) = some (100, 0) := by decide
/-- V3.17. -/
theorem test_chunks : chunks 3 7 2 7 = [(2, 1), (0, 3), (0, 3)] := by decide

/-! ### AddressWindow, `ORIENT_BASE = 0x48` -/

/-- V4.2. -/
theorem test_awpixel_last :
    after (exec (.awpixel 239 319) (machine .unset 0x48 [])) winOf = some [239, 239, 319, 319, 0, 0x48] := by decide
/-- V4.3. -/
theorem test_awpixel_out :
    refusal (exec (.awpixel 240 0) (machine .unset 0x48 [])) = some .outOfExtent := by decide
/-- V4.8. -/
theorem test_awhline_reversed :
    after (exec (.awhline 9 0 10 true) (machine .unset 0x48 [])) winOf = some [230, 239, 0, 0, 1, 0x08] := by decide
/-- V4.9. -/
theorem test_awhline_reversed_out :
    refusal (exec (.awhline 8 0 10 true) (machine .unset 0x48 [])) = some .outOfExtent := by decide
/-- V4.16. -/
theorem test_awvline_reversed :
    after (exec (.awvline 100 10 3 true) (machine .unset 0x48 [])) winOf = some [100, 100, 309, 311, 2, 0xC8] := by
  decide
/-- V4.19. -/
theorem test_awvline_reversed_column :
    after (exec (.awvline 0 319 320 true) (machine .unset 0x48 [])) winOf = some [0, 0, 0, 319, 2, 0xC8] := by decide
/-- V4.24. -/
theorem test_awfill_transposed :
    after (exec (.awfill 5 2 9 6 true) (machine .unset 0x48 [])) winOf = some [2, 6, 5, 9, 4, 0x68] := by decide
/-- V4.22: an inverted rectangle leaves the window registers alone. -/
theorem test_awfill_inverted :
    after (exec (.awfill 5 2 4 6 false) (machine .unset 0x48 [])) (fun t => (t.win, t.written.win))
      = some (State.reset.win, false) := by decide

/-! ### StreamEmitter -/

/-- V5.15. -/
theorem test_drawpixel :
    after (exec (.drawpixel 239 319 0x1000 3 4) (machine .fmt18 0 memP2)) (fun t => (t.trace, t.curO, t.npix))
      = some (drawn [0, 0xEF, 0, 0xEF] [0x01, 0x3F, 0x01, 0x3F] [0x20, 0x21, 0x22], 2, 1) := by decide
/-- V5.10. -/
theorem test_drawpixel_overflow :
    refusal (exec (.drawpixel 0 0 0xFFFFFFFE 1 0) (machine .fmt18 0 [])) = some .addressOverflow := by decide
/-- P1. -/
theorem test_drawhline :
    after (exec (.drawhline 10 20 5 0x2000 1 0 false) (machine .fmt16 0 memP1))
        (fun t => (t.trace, t.npix, t.remain, t.curO))
      = some (drawn [0, 0x0A, 0, 0x0E] [0, 0x14, 0, 0x14] [0xF8, 0, 0xF8, 0, 0xF8, 0, 0xF8, 0, 0xF8, 0], 5, 0, 0) := by
  decide
/-- P5, request 3: `XFER = BULK` on a corrupting Transport, nothing read twice. -/
theorem test_drawhline_bulk :
    after (exec (.drawhline 0 0 2 0x3000 2 1 false) (bulkMachine .fmt16 memP4)) (fun t => (t.trace, t.curO))
      = some (drawn [0, 0, 0, 1] [0, 0, 0, 0] [0xB1, 0xB2, 0xA1, 0xA2], 1) := by decide
/-- P5, the variant: the second chunk sends the two free bytes `g0 g1` that the first left at `0x3000`. -/
theorem test_drawhline_damaged :
    ∃ g0 g1, after (exec (.drawhline 0 0 3 0x3000 2 0 false) (bulkMachine .fmt16 memP4)) (fun t => t.trace) =
      some (drawn [0, 0, 0, 2] [0, 0, 0, 0] [0xA1, 0xA2, 0xB1, 0xB2, Config.freeByte g0, Config.freeByte g1]) :=
  ⟨_, _, by rfl⟩
/-- V5.16. -/
theorem test_drawvline_reversed :
    after (exec (.drawvline 100 10 3 0x2000 1 0 true) (machine .fmt16 0 memP1)) (fun t => (t.trace, t.ovr))
      = some (pk 0x36 [0x80] ++ (drawn [0, 0x64, 0, 0x64] [0x01, 0x35, 0x01, 0x37] [0xF8, 0, 0xF8, 0, 0xF8, 0] ++
          pk 0x36 [0x00]), 0) := by decide
/-- V5.3. -/
theorem test_drawvline_empty :
    after (exec (.drawvline 0 0 0 0x2000 1 0 true) State.reset) (fun t => t.trace) = some [] := by decide
/-- V5.17. -/
theorem test_drawfill :
    after (exec (.drawfill 1 2 2 3 0x1000 3 0 false) (machine .fmt18 0 memP2)) (fun t => (t.trace, t.curO))
      = some (drawn [0, 1, 0, 2] [0, 2, 0, 3]
          [0x10, 0x11, 0x12, 0x20, 0x21, 0x22, 0x30, 0x31, 0x32, 0x10, 0x11, 0x12], 1) := by decide
/-- 20_memory.md R52: an unreadable byte leaves the engine stuck. -/
theorem test_drawfill_stuck :
    faultOf (exec (.drawfill 1 2 2 3 0x1000 3 0 false) (machine .fmt18 0 memP1)) = some (.unreadable 0x1000) := by
  decide
/-- V5.12. -/
theorem test_draw_stage_overflow :
    refusal (exec (.drawhline 0 0 5 0x2000 1 0 false)
        { machine .fmt16 0 memP1 with cfg := { Params.default with stageMaxPixels := 4 } })
      = some .stageOverflow := by decide

/-! ### Packets alone -/

/-- R91's example. -/
theorem test_caset : after (exec (.caset 230 239) State.reset) State.trace = some (pk 0x2A [0, 0xE6, 0, 0xEF]) := by
  decide
/-- R91's example. -/
theorem test_paset :
    after (exec (.paset 309 311) State.reset) State.trace = some (pk 0x2B [0x01, 0x35, 0x01, 0x37]) := by decide
/-- P3's override packet. -/
theorem test_madctl : after (exec (.madctl 0x08) State.reset) State.trace = some (pk 0x36 [0x08]) := by decide
/-- R93. -/
theorem test_ramwr : after (exec .ramwr State.reset) State.trace = some (pk 0x2C []) := by decide
/-- R94. -/
theorem test_data :
    after (exec (.data [0x20, 0x21]) State.reset) State.trace = some [.sel, .dat 0x20, .dat 0x21, .desel] := by decide
/-- R95. -/
theorem test_pixset : after (exec (.pixset .bits16) State.reset) State.trace = some (pk 0x3A [0x55]) := by decide

/-! ### The host's side -/

/-- V5.14. -/
theorem test_reentry :
    refusal (step { State.reset with phase := .streaming, inbox := [.present (.descriptor [])] }) = some .reentry := by
  decide
/-- P6, step 3: the host's own store. -/
theorem test_host_store :
    after (step { State.reset with inbox := [.store 0x4000 [0xFC, 0x02]] }) (fun t => t.mem)
      = some [(0x4000, 0xFC), (0x4001, 0x02)] := by decide
/-- 70_reset_and_hazards.md R219: a reset with a new default orientation. -/
theorem test_reset_input :
    after (step { machine .fmt16 0 memP1 with inbox := [.reset 0x48] }) (fun t => (t.fmt, t.orientBase, t.mem))
      = some (.unset, 0x48, memP1) := by decide
/-- 10_state.md R33: a byte of the staging buffer holds some value at reset. -/
theorem test_reset_stage : ∃ n, State.reset.stage[5]? = some (Config.freeByte n) := ⟨_, by rfl⟩
/-- 10_state.md R30, 93_implementation_defined.md U11: a register nothing has written reads as some bits. -/
theorem test_host_read_unspecified : hostRead .resO State.reset = .ok (unspecifiedValue 0 .resO) := by rfl
/-- 70_reset_and_hazards.md R211: after another reset the result is gone, and the bits are chosen anew. -/
theorem test_host_read_after_reset :
    after (step { State.reset with
        resO := 2, written := { State.reset.written with resO := true }, inbox := [.reset 0x48] }) (hostRead .resO)
      = some (.ok (unspecifiedValue 1 .resO)) := by rfl

/-! ### Witnesses: concrete states and operands that meet all hypotheses of a statement together

Each is named after its statement; where a statement has several clauses over one input there is one part for each,
at a boundary of its range. -/

/-- Does the outcome give a next state? -/
def goesOn (o : Host.Outcome State Fault Refusal) : Bool :=
  match o with
  | .next _ => true
  | .fault _ => false
  | .refused _ => false

theorem next_of_goesOn {o : Host.Outcome State Fault Refusal} (h : goesOn o = true) : ∃ t, o = .next t := by
  cases o with
  | next t => exact ⟨t, rfl⟩
  | fault f => simp [goesOn] at h
  | refused r => simp [goesOn] at h

/-- A descriptor's fields, all 0 but for these. -/
def fieldsOf (op flags : Byte) (a b : Half) : Fields :=
  { op, flags, a, b, c := 0, d := 0, p := 0, q := 0, s := 0 }

/-- The draws the witnesses use: the operands of P1, V5.15 and of P5's second request (N > L). -/
def reqP1 : DrawRequest :=
  { kind := .hline, flags := 0, x0 := 10, y0 := 20, c := 5, d := 0, base := 0x2000, l := 1, o := 0 }
def reqV515 : DrawRequest :=
  { kind := .pixel, flags := 0, x0 := 239, y0 := 319, c := 0, d := 0, base := 0x1000, l := 3, o := 4 }
def reqLong : DrawRequest :=
  { kind := .vline, flags := 2, x0 := 0, y0 := 319, c := 3, d := 0, base := 0x3000, l := 2, o := 1 }
def reqFill : DrawRequest :=
  { kind := .fill, flags := 4, x0 := 5, y0 := 2, c := 9, d := 6, base := 0x3000, l := 2, o := 1 }

theorem streams_P1 : reqP1.Streams (machine .fmt16 0x48 memP1) 2 where
  passes := ⟨by decide, by decide, by decide, rfl, by decide, by decide, fun _ => by decide⟩
  readable := Memory.readable_of_readBytes (bs := [0xF8, 0x00]) rfl

theorem streams_V515 : reqV515.Streams (machine .fmt18 0 memP2) 3 where
  passes := ⟨by decide, by decide, by decide, rfl, by decide, by decide, fun h => absurd h (by decide)⟩
  readable :=
    Memory.readable_of_readBytes (bs := [0x10, 0x11, 0x12, 0x20, 0x21, 0x22, 0x30, 0x31, 0x32]) rfl

theorem streams_long : reqLong.Streams (bulkMachine .fmt16 memP4) 2 where
  passes := ⟨by decide, by decide, by decide, rfl, by decide, by decide, fun h => absurd h (by decide)⟩
  readable := Memory.readable_of_readBytes (bs := [0xA1, 0xA2, 0xB1, 0xB2]) rfl

theorem streams_fill : reqFill.Streams (machine .fmt16 0 memP4) 2 where
  passes := ⟨by decide, by decide, by decide, rfl, by decide, by decide, fun h => absurd h (by decide)⟩
  readable := Memory.readable_of_readBytes (bs := [0xA1, 0xA2, 0xB1, 0xB2]) rfl

/-- The four draw instructions that stand for these requests. -/
theorem witness_drawRequestOf :
    drawRequestOf (.drawhline 10 20 5 0x2000 1 0 false) = some reqP1 ∧
    drawRequestOf (.drawpixel 239 319 0x1000 3 4) = some reqV515 ∧
    drawRequestOf (.drawvline 0 319 3 0x3000 2 1 true) = some reqLong ∧
    drawRequestOf (.drawfill 5 2 9 6 0x3000 2 1 true) = some reqFill := by decide

theorem witness_ResetState : HostReg.curO ≠ HostReg.fmt := by decide
theorem witness_ResetInput :
    ({ machine .fmt16 0 memP1 with inbox := [.reset 0x48] } : State).inbox = .reset 0x48 :: [] := rfl
theorem witness_ResetInv : Params.default.wf = true := by decide
theorem witness_DecodeEncode :
    Params.default.wf = true ∧ (Instr.setfmt 2).wf = true ∧ (Instr.data [0]).wf = true ∧ Instr.ramwr.wf = true ∧
      (Instr.drawfill 0xFFFF 0 0 0xFFFF 0xFFFFFFFF 0 1 true).wf = true := by decide
theorem witness_BracketIsItsEncoding :
    decode Params.default (.bracket [.sel, .cmd 0x2C, .desel]) = .ok .ramwr := by rfl
theorem witness_DecodedIsWellFormed :
    decode Params.default (.descriptor (0x30 :: List.replicate 21 0)) = .ok (.awpixel 0 0) ∧
      decode Params.default (.bracket [.sel, .dat 0, .desel]) = .ok (.data [0]) := ⟨by rfl, by rfl⟩

/-- Reserved, each ground at an edge: opcodes 0x00, 0x0F, 0x44; a flag not taken; a reserved flag bit; a code; a part
that must be 0. Not reserved: the edges on the other side. -/
theorem witness_OperandAssignment :
    (UsesReserved (fieldsOf 0x00 0 0 0) ∧ UsesReserved (fieldsOf 0x0F 0 0 0) ∧ UsesReserved (fieldsOf 0x44 0 0 0) ∧
      UsesReserved (fieldsOf 0x31 0x02 0 0) ∧ UsesReserved (fieldsOf 0x43 0x08 0 0) ∧
      UsesReserved (fieldsOf 0x01 0 3 0) ∧ UsesReserved (fieldsOf 0x02 0 2 0) ∧
      UsesReserved (fieldsOf 0x10 0 0x0100 0) ∧ UsesReserved (fieldsOf 0x11 0 0 0x0100)) ∧
    ¬ UsesReserved (fieldsOf 0x01 0 2 0xFFFF) ∧ ¬ UsesReserved (fieldsOf 0x02 0 1 0) ∧
    ¬ UsesReserved (fieldsOf 0x10 0 0xFF 0xFF) ∧ ¬ UsesReserved (fieldsOf 0x11 0 0xFFFF 0xFF) ∧
    ¬ UsesReserved (fieldsOf 0x20 0 0xFFFF 0) ∧ ¬ UsesReserved (fieldsOf 0x21 0 0 0) ∧
    ¬ UsesReserved (fieldsOf 0x30 0 0 0) ∧ ¬ UsesReserved (fieldsOf 0x31 1 0 0) ∧
    ¬ UsesReserved (fieldsOf 0x32 2 0 0) ∧ ¬ UsesReserved (fieldsOf 0x33 4 0 0) ∧
    ¬ UsesReserved (fieldsOf 0x40 0 0 0) ∧ ¬ UsesReserved (fieldsOf 0x41 1 0 0) ∧
    ¬ UsesReserved (fieldsOf 0x42 2 0 0) ∧ ¬ UsesReserved (fieldsOf 0x43 4 0 0) := by
  refine ⟨⟨?_, ?_, ?_, ?_, ?_, ?_, ?_, ?_, ?_⟩, ?_, ?_, ?_, ?_, ?_, ?_, ?_, ?_, ?_, ?_, ?_, ?_, ?_, ?_⟩ <;>
    unfold UsesReserved <;> decide

/-- A state in which the host presents this descriptor. -/
def presenting (f : Fields) : State := { State.reset with inbox := [.present (.descriptor (bytesOfFields f))] }

theorem witness_ReservedEncodingsRefused :
    (presenting (fieldsOf 0x44 0 0 0)).phase = .idle ∧ UsesReserved (fieldsOf 0x44 0 0 0) ∧
      (presenting (fieldsOf 0x43 4 0 0)).phase = .idle ∧ ¬ UsesReserved (fieldsOf 0x43 4 0 0) := by
  unfold UsesReserved
  decide
theorem witness_TraceParsesUniquely :
    Params.default.wf = true ∧
      packetsOfTrace Params.default (drawn [0, 1, 0, 2] [0, 2, 0, 3] [0x10]) =
        some [.caset 1 2, .paset 2 3, .ramwr, .data [0x10]] := by decide
theorem witness_StepRunsDecoded :
    (presenting (fieldsOf 0x30 0 1 2)).phase = .idle ∧
      decode State.reset.cfg (.descriptor (bytesOfFields (fieldsOf 0x30 0 1 2))) = .ok (.awpixel 1 2) ∧
      decode State.reset.cfg (tableWire State.reset.cfg 16 0x0030) = .error .opcodeOrFlags ∧
      decode State.reset.cfg (tableWire State.reset.cfg 16 0x3000) = .ok (.awpixel 0 0) :=
  ⟨rfl, by rfl, by rfl, by rfl⟩
theorem witness_ReentryRefused :
    ({ presenting (fieldsOf 0x01 0 1 0) with phase := .windowProgrammed } : State).phase ≠ .idle := by decide
/-- A store to the last byte of the space, one past it, and one during a draw. -/
theorem witness_HostStore :
    State.reset.phase = .idle ∧ 0xFFFFFFFF + [(0xAA : Byte)].length ≤ addressLimit ∧
      addressLimit < 0xFFFFFFFF + [(0xAA : Byte), 0xBB].length ∧
      ({ State.reset with phase := .streaming } : State).phase ≠ .idle := by decide
theorem witness_HostReadsResults :
    (State.reset.phase = .idle ∧ (3 : Word) ≠ 0 ∧ ((1 : BitVec 2) = 1 ∨ (1 : BitVec 2) = 2)) ∧
      ((machine .fmt16 0 []).phase = .idle ∧ (machine .fmt16 0 []).fmt = .fmt16) ∧
      ((machine .fmt18 0 []).phase = .idle ∧ (machine .fmt18 0 []).fmt = .fmt18) ∧
      ((machine .unset 0x48 []).phase = .idle ∧
        windowRequestOf (.awfill 5 2 239 319 true) =
          some { kind := .fill, x0 := 5, y0 := 2, c := 239, d := 319, flags := 4 } ∧
        windowOf (machine .unset 0x48 []).cfg (machine .unset 0x48 []).orientBase
            { kind := .fill, x0 := 5, y0 := 2, c := 239, d := 319, flags := 4 } =
          .window { cs := 2, ce := 319, rs := 5, re := 239, ovr := 4, orient := 0x68 }) ∧
      ((machine .fmt16 0x48 memP1).cfg.wf = true ∧ (machine .fmt16 0x48 memP1).ovr = 0) ∧
      ({ State.reset with phase := .ramArmed } : State).phase ≠ .idle := by
  decide

theorem witness_EncodeCompletes :
    (machine .unset 0 []).fmt = .unset ∧ (machine .fmt16 0 []).fmt = .fmt16 ∧ (machine .fmt18 0 []).fmt = .fmt18 := by
  decide
theorem witness_EnchsvCompletes : (machine .unset 0 []).fmt = .unset ∧ (machine .fmt16 0 []).fmt ≠ .unset := by decide
theorem witness_SetfmtCompletes :
    ((0 : BitVec 2) = 0 ∨ (0 : BitVec 2) = 3) ∧ ((3 : BitVec 2) = 0 ∨ (3 : BitVec 2) = 3) ∧
      (fieldsOf 0x01 0 4 0).op = 0x01 ∧ (fieldsOf 0x01 0 4 0).flags = 0 ∧
      (fieldsOf 0x01 0 4 0).a.setWidth 2 = (0 : BitVec 2) ∧ (fieldsOf 0x01 0 3 0).a.setWidth 2 = (3 : BitVec 2) ∧
      ({ presenting (fieldsOf 0x01 0 1 0) with phase := .streaming } : State).phase ≠ .idle := by decide
theorem witness_SetxferCompletes :
    (fieldsOf 0x02 0 2 0).op = 0x02 ∧ (fieldsOf 0x02 0 2 0).flags = 0 ∧ (fieldsOf 0x02 0 2 0).a >>> 1 ≠ 0 ∧
      ({ presenting (fieldsOf 0x02 0 1 0) with phase := .streaming } : State).phase ≠ .idle := by decide

theorem witness_CursorRun : (1 ≤ 1 ∧ 0 < 1) ∧ (1 ≤ 2 ∧ 1 < 2 ∧ (0 : Nat) = 0) := by decide
theorem witness_CurnormCompletes : (0 : Word) = 0 ∧ (1 : Word) ≠ 0 := by decide
theorem witness_CurrunCompletes : (0 : Word) = 0 ∧ (1 : Word) ≠ 0 := by decide
theorem witness_CursorWrapLaw : 1 ≤ 3 ∧ 2 < 3 ∧ chunks 3 7 2 7 = [(2, 1)] ++ (0, 3) :: [(0, 3)] := by decide
/-- One pixel; just to the pattern's end; one pixel more. -/
theorem witness_ChunkSequence :
    (2 < 3 ∧ 1 ≤ 1 ∧ 1 ≤ 1) ∧ (1 < 3 ∧ 1 ≤ 3 - 1 ∧ 3 - 1 ≤ 2) ∧ (1 < 3 ∧ 1 ≤ 3 ∧ 3 ≤ 7) ∧ (0 < 1 ∧ 1 ≤ 5 ∧ 5 ≤ 5) := by
  decide

theorem witness_Awpixel :
    (machine .unset 0x48 []).cfg.wf = true ∧
      goesOn (exec (.awpixel 239 319) (machine .unset 0x48 [])) = true ∧
      refusal (exec (.awpixel 239 320) (machine .unset 0x48 [])) = some .outOfExtent := by decide
theorem witness_Awhline :
    (machine .unset 0x48 []).cfg.wf = true ∧ (1 : Half) ≠ 0 ∧
      goesOn (exec (.awhline 240 320 0 true) (machine .unset 0x48 [])) = true ∧
      goesOn (exec (.awhline 0 319 240 false) (machine .unset 0x48 [])) = true ∧
      refusal (exec (.awhline 1 319 240 false) (machine .unset 0x48 [])) = some .outOfExtent ∧
      goesOn (exec (.awhline 239 319 240 true) (machine .unset 0x48 [])) = true ∧
      refusal (exec (.awhline 238 319 240 true) (machine .unset 0x48 [])) = some .outOfExtent := by decide
theorem witness_Awvline :
    (machine .unset 0x48 []).cfg.wf = true ∧ (1 : Half) ≠ 0 ∧
      goesOn (exec (.awvline 240 320 0 false) (machine .unset 0x48 [])) = true ∧
      goesOn (exec (.awvline 239 0 320 false) (machine .unset 0x48 [])) = true ∧
      refusal (exec (.awvline 239 1 320 false) (machine .unset 0x48 [])) = some .outOfExtent ∧
      goesOn (exec (.awvline 239 319 320 true) (machine .unset 0x48 [])) = true ∧
      refusal (exec (.awvline 239 318 320 true) (machine .unset 0x48 [])) = some .outOfExtent := by decide
theorem witness_Awfill :
    (machine .unset 0x48 []).cfg.wf = true ∧
      goesOn (exec (.awfill 1 0 0 0 true) (machine .unset 0x48 [])) = true ∧
      goesOn (exec (.awfill 239 319 239 319 true) (machine .unset 0x48 [])) = true ∧
      goesOn (exec (.awfill 0 0 239 319 false) (machine .unset 0x48 [])) = true ∧
      refusal (exec (.awfill 0 0 239 320 true) (machine .unset 0x48 [])) = some .outOfExtent := by decide
/-- A window of each kind of override. -/
theorem witness_OrientationBits :
    Params.default.wf = true ∧
      windowOf Params.default 0x48 { kind := .pixel, x0 := 239, y0 := 319, c := 0, d := 0, flags := 0 } =
        .window { cs := 239, ce := 239, rs := 319, re := 319, ovr := 0, orient := 0x48 } ∧
      windowOf Params.default 0x48 { kind := .hline, x0 := 239, y0 := 0, c := 240, d := 0, flags := 1 } =
        .window { cs := 0, ce := 239, rs := 0, re := 0, ovr := 1, orient := 0x08 } ∧
      windowOf Params.default 0x48 { kind := .vline, x0 := 0, y0 := 319, c := 320, d := 0, flags := 2 } =
        .window { cs := 0, ce := 0, rs := 0, re := 319, ovr := 2, orient := 0xC8 } ∧
      windowOf Params.default 0x48 { kind := .fill, x0 := 5, y0 := 2, c := 9, d := 6, flags := 4 } =
        .window { cs := 2, ce := 6, rs := 5, re := 9, ovr := 4, orient := 0x68 } := by decide
theorem witness_WindowsInExtent : Params.default.wf = true ∧
    windowOf Params.default 0x48 { kind := .fill, x0 := 0, y0 := 0, c := 239, d := 319, flags := 4 } =
      .window { cs := 0, ce := 319, rs := 0, re := 239, ovr := 4, orient := 0x68 } := by decide

/-- Each of the three grounds of a no-op, the format unset. -/
theorem witness_VoidDrawIsNoop :
    ({ reqP1 with base := 0 } : DrawRequest).base = 0 ∧ ({ reqP1 with l := 0 } : DrawRequest).l = 0 ∧
      ({ reqP1 with c := 0 } : DrawRequest).npix < 1 ∧ ({ reqFill with c := 4 } : DrawRequest).npix < 1 ∧
      drawRequestOf (.drawhline 10 20 0 0x2000 1 0 false) = some { reqP1 with c := 0 } := by decide
theorem witness_RequestedLength :
    Params.default.wf = true ∧ reqP1.geometry.inExtent Params.default = true ∧
      ({ reqFill with c := 4 } : DrawRequest).geometry.isEmpty = true := by decide
/-- The four refusals: for the third, a pattern whose last byte is one past the space; for the fourth, one pixel more
than the staging buffer holds. -/
theorem witness_DrawRefusalOrder :
    (reqP1.base ≠ 0 ∧ reqP1.l ≠ 0 ∧ 1 ≤ reqP1.npix) ∧ (machine .unset 0 []).fmt = .unset ∧
      ((machine .fmt16 0 []).fmt.bpp = some 2 ∧
        ({ reqP1 with x0 := 236 } : DrawRequest).geometry.inExtent (machine .fmt16 0 []).cfg = false) ∧
      (reqP1.geometry.inExtent (machine .fmt16 0 []).cfg = true ∧
        addressLimit ≤ (0xFFFFFFFF : Word).toNat + (1 : Word).toNat * 2 - 1) ∧
      (reqP1.base.toNat + reqP1.l.toNat * 2 - 1 < addressLimit ∧ reqP1.l = 1 ∧ 4 < reqP1.npix) := by decide
theorem witness_DrawMeaning :
    ((machine .fmt18 0 memP2).cfg.wf = true ∧ (machine .fmt18 0 memP2).ovr = 0) ∧
      ((bulkMachine .fmt16 memP4).cfg.wf = true ∧ (bulkMachine .fmt16 memP4).ovr = 0) ∧
      goesOn (exec (.drawpixel 239 319 0x1000 3 4) (machine .fmt18 0 memP2)) = true ∧
      goesOn (exec (.drawhline 235 319 5 0x2000 1 0 false) (machine .fmt16 0 memP1)) = true ∧
      goesOn (exec (.drawhline 4 319 5 0x2000 1 0 true) (machine .fmt16 0 memP1)) = true ∧
      goesOn (exec (.drawvline 239 315 5 0x3000 2 1 false) (machine .fmt16 0 memP4)) = true ∧
      goesOn (exec (.drawvline 239 4 5 0x3000 2 1 true) (bulkMachine .fmt16 memP4)) = true ∧
      goesOn (exec (.drawfill 238 318 239 319 0x1000 3 0 false) (machine .fmt18 0 memP2)) = true ∧
      goesOn (exec (.drawfill 238 318 239 319 0x1000 3 0 true) (machine .fmt18 0 memP2)) = true := by decide
/-- DrawEndsOk, DrawByteCount: `streams_P1`, `streams_V515`, `streams_long`, `streams_fill` with this. -/
theorem witness_DrawEndsOk :
    (machine .fmt16 0x48 memP1).cfg.wf = true ∧ (machine .fmt16 0x48 memP1).ovr = 0 ∧
      (machine .fmt18 0 memP2).cfg.wf = true ∧ (machine .fmt18 0 memP2).ovr = 0 ∧
      (bulkMachine .fmt16 memP4).cfg.wf = true ∧ (bulkMachine .fmt16 memP4).ovr = 0 ∧
      (machine .fmt16 0 memP4).cfg.wf = true ∧ (machine .fmt16 0 memP4).ovr = 0 := by decide
theorem witness_DrawByteCount :
    (reqP1.window Params.default 0x48).ovr = 0 ∧ (reqFill.window Params.default 0).ovr ≠ 0 := by decide
/-- With `streams_P1`: a draw of intact bytes; with `streams_long`: one that re-reads what it has damaged, N > L, whose
pixels 1 and 2 are the last sent from their positions. -/
theorem witness_StreamBytes :
    (reqP1.Intact (machine .fmt16 0x48 memP1) ∧
      ∃ t, exec (.drawhline 10 20 5 0x2000 1 0 false) (machine .fmt16 0x48 memP1) = .next t) ∧
    ((bulkMachine .fmt16 memP4).xfer = .bulk ∧ (bulkMachine .fmt16 memP4).cfg.bulkCorrupts = true ∧ reqLong.l ≠ 1 ∧
      reqLong.l.toNat < reqLong.npix ∧ (1 < reqLong.npix ∧ reqLong.npix ≤ 1 + reqLong.l.toNat)) ∧
    ∃ t, exec (.drawvline 0 319 3 0x3000 2 1 true) (bulkMachine .fmt16 memP4) = .next t :=
  ⟨⟨.inl rfl, next_of_goesOn (by decide)⟩, by decide, next_of_goesOn (by decide)⟩
/-- A draw that passes its tests, every pixel it sends readable though not the whole pattern (position 1 of 3 is sent,
position 2 is missing); and one with an unreadable byte. -/
theorem witness_DrawStuckOnUnreadable :
    reqV515.Passes (machine .fmt18 0 (bytesAt 0x1000 [0x10, 0x11, 0x12, 0x20, 0x21, 0x22])) 3 ∧
      (∀ k, k < reqV515.npix → Readable (bytesAt 0x1000 [0x10, 0x11, 0x12, 0x20, 0x21, 0x22])
        (reqV515.address 3 k) 3) ∧
      ∃ k, k < reqV515.npix ∧ ¬ Readable (bytesAt 0x1000 [0x10, 0x11, 0x12, 0x20, 0x21]) (reqV515.address 3 k) 3 := by
  refine ⟨⟨by decide, by decide, by decide, rfl, by decide, by decide, fun h => absurd h (by decide)⟩, ?_, 0, by decide,
    fun h => absurd (h 0x1005 (by decide) (by decide)) (by decide)⟩
  intro k hk
  have h0 : k = 0 := by
    have : reqV515.npix = 1 := rfl
    omega
  subst h0
  exact Memory.readable_of_readBytes (bs := [0x20, 0x21, 0x22]) rfl
/-- With `streams_long` and `streams_P1`: a damaging draw with a byte sent and a byte outside, and two harmless ones. -/
theorem witness_BulkDamage :
    (∃ t, exec (.drawvline 0 319 3 0x3000 2 1 true) (bulkMachine .fmt16 memP4) = .next t) ∧
      ((bulkMachine .fmt16 memP4).xfer = .bulk ∧ (bulkMachine .fmt16 memP4).cfg.bulkCorrupts = true ∧
        reqLong.l ≠ 1 ∧ 2 < reqLong.npix ∧ reqLong.address 2 2 ≤ 0x3003 ∧ 0x3003 < reqLong.address 2 2 + 2) ∧
      (∀ k, k < reqLong.npix → 0x3004 < reqLong.address 2 k ∨ reqLong.address 2 k + 2 ≤ 0x3004) ∧
      (machine .fmt16 0x48 memP1).xfer = .bytewise ∧ reqP1.l = 1 :=
  ⟨next_of_goesOn (by decide), by decide, by decide, by decide, by decide⟩
theorem witness_TransferModesSendTheSame :
    (machine .fmt16 0x48 memP1).cfg.bulkCorrupts = false ∧ reqP1.l = 1 ∧ reqV515.npix ≤ reqV515.l.toNat := by decide
/-- A pattern of two equal pixels, and draws longer than it: a reversed line, and a transposed fill. -/
theorem witness_FastPathEquivalence :
    (machine .fmt16 0 (bytesAt 0x2000 [0xF8, 0, 0xF8, 0])).cfg.wf = true ∧
      (machine .fmt16 0 (bytesAt 0x2000 [0xF8, 0, 0xF8, 0])).fmt.bpp = some 2 ∧ 2 ≤ (2 : Word).toNat ∧
      (∀ k, k < (2 : Word).toNat → pixelAt (bytesAt 0x2000 [0xF8, 0, 0xF8, 0]) 0x2000 2 k =
        pixelAt (bytesAt 0x2000 [0xF8, 0, 0xF8, 0]) 0x2000 2 0) ∧
      Readable (bytesAt 0x2000 [0xF8, 0, 0xF8, 0]) (0x2000 : Word).toNat ((2 : Word).toNat * 2) ∧
      (drawRequestOf (.drawhline 4 0 5 0x2000 1 7 true) = some { reqP1 with flags := 1, x0 := 4, y0 := 0, o := 7 } ∧
        drawRequestOf (.drawhline 4 0 5 0x2000 2 1 true) =
          some { reqP1 with flags := 1, x0 := 4, y0 := 0, l := 2, o := 1 } ∧
        drawRequestOf (.drawfill 5 2 9 6 0x2000 1 0 true) = some { reqFill with base := 0x2000, l := 1, o := 0 } ∧
        drawRequestOf (.drawfill 5 2 9 6 0x2000 2 1 true) = some { reqFill with base := 0x2000 }) ∧
      (∃ t, exec (.drawhline 4 0 5 0x2000 1 7 true) (machine .fmt16 0 (bytesAt 0x2000 [0xF8, 0, 0xF8, 0])) =
        .next t) ∧
      (∃ u, exec (.drawhline 4 0 5 0x2000 2 1 true) (machine .fmt16 0 (bytesAt 0x2000 [0xF8, 0, 0xF8, 0])) =
        .next u) ∧
      (∃ t, exec (.drawfill 5 2 9 6 0x2000 1 0 true) (machine .fmt16 0 (bytesAt 0x2000 [0xF8, 0, 0xF8, 0])) =
        .next t) ∧
      ∃ u, exec (.drawfill 5 2 9 6 0x2000 2 1 true) (machine .fmt16 0 (bytesAt 0x2000 [0xF8, 0, 0xF8, 0])) = .next u :=
  ⟨by decide, by decide, by decide, by decide, Memory.readable_of_readBytes (bs := [0xF8, 0, 0xF8, 0]) rfl, by decide,
    next_of_goesOn (by decide), next_of_goesOn (by decide), next_of_goesOn (by decide), next_of_goesOn (by decide)⟩

/-- The state in which the draw of V5.15 begins to stream, and the one of P1. -/
def streamingV515 : State :=
  { machine .fmt18 0 memP2 with
    phase := .streaming, npix := 1, remain := 1, curO := 1
    latch := { State.reset.latch with base := 0x1000, l := 3, oreq := 4 } }
def streamingP1 : State :=
  { machine .fmt16 0 memP1 with
    phase := .streaming, npix := 5, remain := 5
    latch := { State.reset.latch with base := 0x2000, l := 1 } }

theorem witness_PhaseTransitions :
    (State.reset.inbox = [] ∧ State.reset.phase = .idle ∧ State.reset.ovr = 0) ∧
      ({ State.reset with phase := .windowProgrammed } : State).inbox = [] ∧
      ({ State.reset with phase := .ramArmed } : State).inbox = [] ∧
      (streamingV515.inbox = [] ∧ streamingV515.phase = .streaming ∧ streamingV515.remain ≠ 0 ∧
        streamingV515.curO.toNat < streamingV515.latch.l.toNat ∧ streamingV515.fmt.bpp = some 3 ∧
        streamingV515.latch.l ≠ 1) ∧
      (streamingP1.inbox = [] ∧ streamingP1.phase = .streaming ∧ streamingP1.remain ≠ 0 ∧
        streamingP1.curO.toNat < streamingP1.latch.l.toNat ∧ streamingP1.fmt.bpp = some 2 ∧
        streamingP1.npix = streamingP1.remain) ∧
      ({ State.reset with phase := .streaming } : State).remain = 0 := by decide
theorem witness_PhaseTransitions_readable :
    Readable streamingV515.mem streamingV515.latch.base.toNat (streamingV515.latch.l.toNat * 3) ∧
      Readable streamingP1.mem streamingP1.latch.base.toNat (streamingP1.latch.l.toNat * 2) :=
  ⟨Memory.readable_of_readBytes (bs := [0x10, 0x11, 0x12, 0x20, 0x21, 0x22, 0x30, 0x31, 0x32]) rfl,
    Memory.readable_of_readBytes (bs := [0xF8, 0x00]) rfl⟩

/-- A latch that holds the draw of V5.17, before its first transition. -/
def latchedV517 : State :=
  { machine .fmt18 0 memP2 with
    latch := { kind := .fill, x0 := 1, y0 := 2, x1len := 2, y1 := 3, flags := 0, base := 0x1000, l := 3, oreq := 0 } }

theorem witness_SmallStepsReachTheDraw :
    (latchedV517.inbox = [] ∧ latchedV517.cfg.wf = true ∧ latchedV517.ovr = 0 ∧
      drawCheck latchedV517 = .go 3 4 { cs := 1, ce := 2, rs := 2, re := 3, ovr := 0, orient := 0 }) ∧
      ∃ t, draw latchedV517 = .next t :=
  ⟨by decide, next_of_goesOn (by decide)⟩

theorem witness_DataPacketCompletes : [(0 : Byte)] ≠ [] ∧ ([] : List Byte) = [] := by decide
theorem witness_PacketsEmitted :
    (State.reset.cfg.wf = true ∧ State.reset.ovr = 0 ∧ (Instr.setfmt 1).isRequest = true) ∧
      (∃ t, exec (.setfmt 1) State.reset = .next t) ∧
      (∃ t, exec (.curnorm 3 8) State.reset = .next t) ∧
      (∃ t, exec (.drawhline 10 20 0 0x2000 1 0 false) State.reset = .next t) ∧
      ∃ t, exec (.drawfill 5 2 9 6 0x3000 2 1 true) (machine .fmt16 0 memP4) = .next t :=
  ⟨by decide, next_of_goesOn (by decide), next_of_goesOn (by decide), next_of_goesOn (by decide),
    next_of_goesOn (by decide)⟩

/-- The invariant holds in the state after reset, and in one that has drawn with an override. -/
theorem inv_reset : State.reset.Inv where
  params := by decide
  idle := rfl
  reverted := rfl
  memory := rfl
  orient := rfl
  stage := freeBytes_length _ _
  bracketed := rfl
  window := fun h => absurd h (by decide)
  remain := by decide
  resN := by decide

theorem inv_machine : (machine .fmt16 0x48 memP1).Inv where
  params := by decide
  idle := rfl
  reverted := rfl
  memory := by decide
  orient := rfl
  stage := freeBytes_length _ _
  bracketed := rfl
  window := fun h => absurd h (by decide)
  remain := by decide
  resN := by decide

theorem witness_StepKeepsInv :
    State.reset.Inv ∧ ∃ t, step (State.reset.withFetchWord 16 0x4100) = .next t :=
  ⟨inv_reset, next_of_goesOn (by decide)⟩
theorem witness_BoundaryInvariant :
    (machine .fmt16 0 memP4).phase = .idle ∧ (machine .fmt16 0 memP4).ovr = 0 ∧
      ∃ t, exec (.drawfill 5 2 9 6 0x3000 2 1 true) (machine .fmt16 0 memP4) = .next t :=
  ⟨rfl, rfl, next_of_goesOn (by decide)⟩
theorem witness_WritesOnlyItsRow : ∃ t, exec (.awpixel 0 0) State.reset = .next t := next_of_goesOn (by decide)
theorem witness_OnlyDrawsAccessMemory :
    drawRequestOf (.awpixel 0 0) = none ∧ (∃ t, exec (.awpixel 0 0) State.reset = .next t) ∧
      exec (.curnorm 0 5) State.reset = .refused .zeroCycle :=
  ⟨rfl, next_of_goesOn (by decide), rfl⟩
theorem witness_StopsOnlyAsListed :
    State.reset.cfg.wf = true ∧ State.reset.ovr = 0 ∧ exec (.curnorm 0 5) State.reset = .refused .zeroCycle ∧
      faultOf (exec (.drawfill 1 2 2 3 0x1000 3 0 false) (machine .fmt18 0 memP1)) = some (.unreadable 0x1000) :=
  ⟨by decide, rfl, rfl, by decide⟩

/-- A view of the device in which its registers agree with a machine of `ORIENT_BASE = 0x00` and `FMT = FMT16`. -/
def agreeing : DeviceView := { column := none, row := none, orient := some 0, format := some .bits16 }

theorem witness_OrientationRestored :
    lastSent Params.default agreeing (machine .fmt16 0 memP4).trace = some agreeing ∧
      agreeing.orient = some (machine .fmt16 0 memP4).orientBase ∧ (Instr.setfmt 1).isRequest = true ∧
      ∃ t, exec (.drawfill 5 2 9 6 0x3000 2 1 true) (machine .fmt16 0 memP4) = .next t :=
  ⟨by decide, by decide, by decide, next_of_goesOn (by decide)⟩
theorem witness_FormatAgrees :
    lastSent Params.default agreeing (machine .fmt16 0 memP4).trace = some agreeing ∧
      ((machine .fmt16 0 memP4).fmt ≠ .unset → agreeing.format.map Fmt.ofEnc = some (machine .fmt16 0 memP4).fmt) ∧
      ∃ t, exec (.setfmt 2) (machine .fmt16 0 memP4) = .next t :=
  ⟨by decide, by decide, next_of_goesOn (by decide)⟩
/-- The colour's bytes may end at the last byte of the address space. -/
theorem witness_EncodeStoreDraw :
    (machine .fmt16 0x48 memP1).Inv ∧ (machine .fmt16 0x48 memP1).fmt ≠ .unset ∧ (0xFFFFFFFD : Word) ≠ 0 ∧
      (0xFFFFFFFD : Word).toNat + 3 ≤ addressLimit ∧ 1 ≤ (machine .fmt16 0x48 memP1).cfg.stageMaxPixels ∧
      windowOf (machine .fmt16 0x48 memP1).cfg (machine .fmt16 0x48 memP1).orientBase
        { kind := .pixel, x0 := (239 : Half).toNat, y0 := (319 : Half).toNat, c := 0, d := 0, flags := 0 } =
        .window { cs := 239, ce := 239, rs := 319, re := 319, ovr := 0, orient := 0x48 } :=
  ⟨inv_machine, by decide, by decide, by decide, by decide, by decide⟩

end Sys2Proof.Tests
end

section
/-! SUPPORT. What the draws do to the ColorSource memory, and what they send, in the terms of the request: with its
pattern readable a draw completes (20_memory.md part 3, 45_stream_emitter.md part 3), and with no premise on the memory
it completes or is stuck (20_memory.md R52). -/

namespace Sys2Proof.Machine

/-! ### Words and transfer modes -/

theorem Word.toNat_eq_one_iff {v : Word} : v.toNat = 1 ↔ v = 1 := BitVec.toNat_inj (x := v) (y := 1)

/-- A transfer does damage in bulk mode on a Transport with the defect (20_memory.md R58). -/
theorem State.corrupting_eq_true_iff (s : State) :
    s.corrupting = true ↔ s.xfer = .bulk ∧ s.cfg.bulkCorrupts = true := by
  simp [State.corrupting]

/-- A transfer does no damage in byte-at-a-time mode, nor on a Transport without the defect. -/
theorem State.corrupting_eq_false_iff (s : State) :
    s.corrupting = false ↔ s.xfer = .bytewise ∨ s.cfg.bulkCorrupts = false := by
  cases h : s.xfer <;> simp [State.corrupting, h]

/-! ### Positions of a stream from the requested offset -/

theorem streamBytes_cursorNorm (m : Memory) (base : Word) (bpp l o n : Nat) :
    streamBytes m base bpp l (cursorNorm l o) n = streamBytes m base bpp l o n := by
  simp only [streamBytes, cursorNorm_add]

theorem damagedStreamBytes_cursorNorm (m : Memory) (base : Word) (bpp l o n k : Nat) :
    damagedStreamBytes m base bpp l (cursorNorm l o) n k = damagedStreamBytes m base bpp l o n k := by
  simp only [damagedStreamBytes, cursorNorm_add]

theorem holdsDamage_cursorNorm (m : Memory) (base : Word) (bpp l o n k : Nat) :
    HoldsDamage m base bpp l (cursorNorm l o) n k ↔ HoldsDamage m base bpp l o n k := by
  simp only [HoldsDamage, cursorNorm_add]

/-- Every pixel sent lies inside the pattern (20_memory.md R50). -/
theorem DrawRequest.address_inside (r : DrawRequest) (bpp k : Nat) (hl : r.l ≠ 0) :
    r.base.toNat ≤ r.address bpp k ∧ r.address bpp k + bpp ≤ r.base.toNat + r.l.toNat * bpp := by
  have hpos : r.position k < r.l.toNat := Nat.mod_lt _ (toNat_pos_of_ne_zero hl)
  have hmul := Nat.mul_le_mul_right bpp (show r.position k + 1 ≤ r.l.toNat from hpos)
  rw [Nat.add_mul] at hmul
  unfold DrawRequest.address addressOf
  omega

/-- Of the pixels sent from the position of pixel `k`, the last is among the last `l` pixels of the stream. -/
theorem exists_last_pixel_at_position {l k n : Nat} (o : Nat) (hl : 1 ≤ l) (hk : k < n) :
    ∃ i, i < n ∧ n ≤ i + l ∧ (o + i) % l = (o + k) % l := by
  have hle := Nat.div_mul_le_self (n - 1 - k) l
  have hlt := Nat.lt_div_mul_add (a := n - 1 - k) hl
  refine ⟨k + (n - 1 - k) / l * l, by omega, by omega, ?_⟩
  rw [← Nat.add_assoc, Nat.add_mul_mod_self_right]

/-- After a damaging stream every byte of every pixel sent is a free byte (45_stream_emitter.md R177 (b)). -/
theorem HoldsDamage.read_sent {m : Memory} {base : Word} {bpp l o n c k a : Nat}
    (h : HoldsDamage m base bpp l o n c) (hl : 1 ≤ l) (hk : k < n) (h1 : addressOf base bpp ((o + k) % l) ≤ a)
    (h2 : a < addressOf base bpp ((o + k) % l) + bpp) : ∃ j, Memory.read m a = some (Config.freeByte j) := by
  obtain ⟨i, hi, hin, hpos⟩ := exists_last_pixel_at_position o hl hk
  have hread := h i (a - addressOf base bpp ((o + k) % l)) hi hin (by omega)
  rw [hpos, Nat.add_sub_cancel' h1] at hread
  exact ⟨_, hread⟩

/-! ### A draw request that streams -/

/-- The state `t` is left by the draw request `r` that streamed from `s`; `bytes` are what it sent. -/
structure DrawRequest.Sent (r : DrawRequest) (s t : State) (bpp : Nat) (bytes : List Byte) : Prop where
  /-- The whole trace, 45_stream_emitter.md R178. -/
  trace : t.trace = s.trace ++ drawTrace s.cfg s.orientBase (r.window s.cfg s.orientBase) bytes
  /-- Memory changes at most in the pixels sent (20_memory.md R58). -/
  frame : ∀ a, (∀ k, k < r.npix → a < r.address bpp k ∨ r.address bpp k + bpp ≤ a) →
    Memory.read t.mem a = Memory.read s.mem a
  /-- Without damage, and on the fast path, memory is untouched. -/
  memory : s.corrupting = false ∨ r.l = 1 → t.mem = s.mem
  /-- 45_stream_emitter.md R166: what is sent where nothing is read from a damaged byte. -/
  intact : s.corrupting = false ∨ r.l = 1 ∨ r.npix ≤ r.l.toNat → bytes = r.streamBytes s bpp
  /-- 45_stream_emitter.md R177: what is sent, and left in memory, where every transfer damages what it has sent. -/
  damaged : s.corrupting = true → r.l ≠ 1 → ∃ k, s.draws ≤ k ∧
    bytes = damagedStreamBytes s.mem r.base bpp r.l.toNat r.o.toNat r.npix k ∧
    HoldsDamage t.mem r.base bpp r.l.toNat r.o.toNat r.npix k

/-- A draw whose tests pass runs steps 1 to 8. -/
theorem draw_of_go {s : State} {bpp n : Nat} {w : Window} (h : drawCheck s = .go bpp n w) :
    draw s = runDraw bpp n w s := by
  simp only [draw, h]

/-- A draw request that streams completes, and what it sends and leaves in memory. -/
theorem exec_draw_sent {s : State} {i : Instr} {r : DrawRequest} {bpp : Nat} (hp : s.cfg.wf = true) (ho : s.ovr = 0)
    (hi : drawRequestOf i = some r) (hs : r.Streams s bpp) :
    ∃ t bytes, exec i s = .next t ∧ r.Sent s t bpp bytes := by
  obtain ⟨s0, hx, hs0, -, -, hgo, -, -, -, -, -, hb, hl, hoff, -, -, hdr⟩ := exec_drawRequest_check s hi
  have hm0 : s0.mem = s.mem := by rw [hs0]
  have hc0 : s0.corrupting = s.corrupting := by rw [hs0]; rfl
  obtain ⟨s1, s2, bytes, hrun, hm1, -, hc1, hd1, hst⟩ := runDraw_streams (s := s0) (r.window s.cfg s.orientBase)
    (by rw [hl]; exact hs.passes.cycle) (by rw [hs0]; exact ho) (hs.passes.npix_lt hp)
    (by rw [hb, hl, hm0]; exact hs.readable)
  rw [hb, hl, hoff] at hst
  rw [hm0] at hm1
  rw [hc0] at hc1
  refine ⟨_, bytes, (hx.trans (draw_of_go (hgo bpp hs.passes))).trans hrun, ?_, ?_, ?_, ?_, ?_⟩
  · rw [hs0]
  · intro a ha
    have hread := hst.frame a fun k hk => by rw [cursorNorm_add]; exact ha k hk
    rwa [hm1] at hread
  · intro hh
    exact (hst.memory (by rwa [hc1, Word.toNat_eq_one_iff])).trans hm1
  · intro hh
    have hsent := hst.sent (by rwa [hc1, Word.toNat_eq_one_iff])
    rwa [streamBytes_cursorNorm, hm1] at hsent
  · intro hc hl1
    obtain ⟨hsent, hleft⟩ := hst.damaged (hc1.trans hc) (mt Word.toNat_eq_one_iff.mp hl1)
    rw [damagedStreamBytes_cursorNorm, hm1] at hsent
    exact ⟨s1.draws, by omega, hsent, (holdsDamage_cursorNorm ..).mp hleft⟩

/-- The conditions under which a draw streams do not depend on the transfer mode. -/
theorem DrawRequest.Streams.with_xfer {r : DrawRequest} {s : State} {bpp : Nat} (h : r.Streams s bpp) (x : Xfer) :
    r.Streams { s with xfer := x } bpp :=
  ⟨⟨h.passes.present, h.passes.cycle, h.passes.pixels, h.passes.format, h.passes.extent, h.passes.space,
    h.passes.staging⟩, h.readable⟩

/-! ### A draw request, whatever is readable -/

/-- A draw whose tests have passed completes, every pixel it sends having been readable, or it is stuck at an unreadable
byte of one of them (20_memory.md R52). -/
theorem runDraw_or_stuck {s : State} {bpp n : Nat} (w : Window) (hl : s.latch.l ≠ 0) (hn1 : 1 ≤ n)
    (hn : n < 2 ^ 32) :
    (∃ t, runDraw bpp n w s = .next t ∧ ∀ k, k < n →
      Readable s.mem (addressOf s.latch.base bpp ((s.latch.oreq.toNat + k) % s.latch.l.toNat)) bpp) ∨
    ∃ a, runDraw bpp n w s = .fault (.unreadable a) ∧ Memory.read s.mem a = none ∧
      ∃ k, k < n ∧ addressOf s.latch.base bpp ((s.latch.oreq.toNat + k) % s.latch.l.toNat) ≤ a ∧
        a < addressOf s.latch.base bpp ((s.latch.oreq.toNat + k) % s.latch.l.toNat) + bpp := by
  have hl1 := toNat_pos_of_ne_zero hl
  have hnorm := cursorNorm_lt s.latch.oreq.toNat hl1
  unfold runDraw
  generalize hs1 : (s.beginDraw n w).armRam.openBurst = s1
  rw [beginDraw_openBurst_any] at hs1
  have hlatch : s1.latch = s.latch := by rw [← hs1]
  have hmem : s1.mem = s.mem := by rw [← hs1]
  have hnpix : s1.npix.toNat = n := by
    rw [← hs1]
    exact toNat_word hn
  have hcur : s1.curO.toNat = cursorNorm s.latch.l.toNat s.latch.oreq.toNat := by
    rw [← hs1]
    exact toNat_word (by have := s.latch.l.isLt; omega)
  have hend := stream_or_stuck (bpp := bpp) (s := s1) (by rw [hlatch]; exact hl1) (by rw [hlatch, hcur]; exact hnorm)
    (by rw [← hs1]) (by rw [hnpix]; exact hn1)
  simp only [hlatch, hmem, hnpix, hcur, cursorNorm_add] at hend
  rcases hend with ⟨t, ht, hread⟩ | ⟨a, ha, hstuck⟩
  · exact .inl ⟨t.closeBurst, by rw [ht], hread⟩
  · exact .inr ⟨a, by rw [ha], hstuck⟩

/-- A draw request that passes its tests completes, every pixel it sends being readable, or it is stuck at an unreadable
byte of one of them. -/
theorem exec_draw_or_stuck {s : State} {i : Instr} {r : DrawRequest} {bpp : Nat} (hp : s.cfg.wf = true)
    (hi : drawRequestOf i = some r) (hr : r.Passes s bpp) :
    (∃ t, exec i s = .next t ∧ ∀ k, k < r.npix → Readable s.mem (r.address bpp k) bpp) ∨
    ∃ a, exec i s = .fault (.unreadable a) ∧ Memory.read s.mem a = none ∧
      ∃ k, k < r.npix ∧ r.address bpp k ≤ a ∧ a < r.address bpp k + bpp := by
  obtain ⟨s0, hx, hs0, -, -, hgo, -, -, -, -, -, hb, hl, hoff, -⟩ := exec_drawRequest_check s hi
  have hmem : s0.mem = s.mem := by rw [hs0]
  have hend := runDraw_or_stuck (s := s0) (bpp := bpp) (r.window s.cfg s.orientBase) (by rw [hl]; exact hr.cycle)
    hr.pixels (hr.npix_lt hp)
  rw [← draw_of_go (hgo bpp hr), ← hx, hb, hl, hoff, hmem] at hend
  exact hend

/-! ### The obligations of 20_memory.md -/

/-- Settles O42: a draw that passes its tests completes or is stuck, and each outcome says which pixels are readable. -/
theorem drawStuckOnUnreadable : Obligations.DrawStuckOnUnreadable := by
  intro s i r bpp hp _ hi hr
  rcases exec_draw_or_stuck hp hi hr with ⟨t, ht, hread⟩ | ⟨a, ha, hnone, k, hk, hlow, hhigh⟩
  · refine ⟨fun _ => ⟨t, ht⟩, ?_⟩
    rintro ⟨k, hk, hnot⟩
    exact absurd (hread k hk) hnot
  · obtain ⟨hbase, hend⟩ := r.address_inside bpp k hr.cycle
    refine ⟨fun hread => ?_, fun _ => ⟨a, by omega, by omega, hnone, ha⟩⟩
    have hsome := hread k hk a hlow hhigh
    simp [hnone] at hsome

/-- Settles O43: the frame and the damage of a stream, the damage read back from the last pixel sent from each
position. -/
theorem bulkDamage : Obligations.BulkDamage := by
  intro s t i r bpp hp ho hi hs ht
  obtain ⟨t', bytes, ht', hsent⟩ := exec_draw_sent hp ho hi hs
  obtain rfl : t' = t := Host.Outcome.next.inj (ht'.symm.trans ht)
  refine ⟨fun hsafe a => ?_, hsent.frame, fun hbulk hdefect hl k a hk hlow hhigh => ?_⟩
  · rw [hsent.memory (by rwa [State.corrupting_eq_false_iff, or_assoc])]
  · obtain ⟨c, -, -, hleft⟩ := hsent.damaged ((State.corrupting_eq_true_iff s).mpr ⟨hbulk, hdefect⟩) hl
    exact hleft.read_sent (toNat_pos_of_ne_zero hs.passes.cycle) hk hlow hhigh

/-- Settles O44: in both modes the bytes sent are the pattern's as it stood. -/
theorem transferModesSendTheSame : Obligations.TransferModesSendTheSame := by
  intro s i r bpp hp ho hi hs hintact
  have hsends : ∀ x, ∃ t, exec i { s with xfer := x } = .next t ∧
      t.trace = s.trace ++ drawTrace s.cfg s.orientBase (r.window s.cfg s.orientBase) (r.streamBytes s bpp) := by
    intro x
    obtain ⟨t, bytes, ht, hsent⟩ := exec_draw_sent (s := { s with xfer := x }) hp ho hi (hs.with_xfer x)
    have hbytes : bytes = r.streamBytes s bpp :=
      hsent.intact (hintact.imp_left fun h => (State.corrupting_eq_false_iff _).mpr (.inr h))
    exact ⟨t, ht, hbytes ▸ hsent.trace⟩
  obtain ⟨t, ht, htrace⟩ := hsends .bytewise
  obtain ⟨u, hu, hutrace⟩ := hsends .bulk
  exact ⟨t, u, ht, hu, htrace.trans hutrace.symm⟩

end Sys2Proof.Machine
end

section
/-! SUPPORT. Reserved encodings (30_encoding.md R85): a descriptor uses one by its `OP` byte, its flags or its operands;
else it decodes to the request whose operands are the fields R82 names. -/

namespace Sys2Proof

open Machine

/-! ### The opcode map, by `OP` and `FLAGS` (30_encoding.md R84) -/

/-- The `OP` byte of a request, R84. -/
def Opcode.code : Opcode → Byte
  | .setfmt => 0x01
  | .setxfer => 0x02
  | .encode => 0x10
  | .enchsv => 0x11
  | .curnorm => 0x20
  | .currun => 0x21
  | .awpixel => 0x30
  | .awhline => 0x31
  | .awvline => 0x32
  | .awfill => 0x33
  | .drawpixel => 0x40
  | .drawhline => 0x41
  | .drawvline => 0x42
  | .drawfill => 0x43

theorem Opcode.code_injective {a b : Opcode} (h : a.code = b.code) : a = b := by
  revert h
  cases a <;> cases b <;> decide

/-- Each row of the map fixes its request's `OP` byte and leaves free the flags the request takes (R81). -/
theorem opcodeMap_row : ∀ r ∈ opcodeMap, hi r.mask = 0xFF ∧ hi r.pattern = r.op.code ∧
    lo r.mask = ~~~(flagsAllowed r.op.code) ∧ lo r.pattern = 0 := by decide

theorem opcodeMap_complete (op : Opcode) : ∃ r ∈ opcodeMap, r.op = op := by
  cases op <;> decide

/-- An `OP` byte that R85 does not list is a request's. -/
theorem exists_row_of_not_listed : ∀ o : Byte,
    ¬ (o = 0x00 ∨ (0x03 ≤ o ∧ o ≤ 0x0F) ∨ (0x12 ≤ o ∧ o ≤ 0x1F) ∨ (0x22 ≤ o ∧ o ≤ 0x2F) ∨ (0x34 ≤ o ∧ o ≤ 0x3F) ∨
      0x44 ≤ o) → ∃ r ∈ opcodeMap, o = r.op.code := by decide

/-- Two bytes match a row exactly if they are its request's `OP` byte and flags that request may take. -/
theorem opcodeMap_matches {o fl : Byte} {r : OpcodeRow} (hr : r ∈ opcodeMap) :
    (join16 o fl &&& r.mask == r.pattern) = true ↔ o = r.op.code ∧ fl &&& ~~~(flagsAllowed o) = 0 := by
  obtain ⟨h1, h2, h3, h4⟩ := opcodeMap_row r hr
  rw [join16_matches, h1, h2, h3, h4, show o &&& 0xFF = o from BitVec.and_allOnes]
  simp only [Bool.and_eq_true, beq_iff_eq]
  exact and_congr_right fun ho => by rw [ho]

theorem lookupOpcode_fits {o fl : Byte} {op : Opcode} (h : lookupOpcode (join16 o fl) = some op) :
    o = op.code ∧ fl &&& ~~~(flagsAllowed o) = 0 := by
  obtain ⟨r, hfind, rfl⟩ := Option.map_eq_some_iff.mp h
  have hmatch := List.find?_some hfind
  exact (opcodeMap_matches (List.mem_of_find?_eq_some hfind)).mp hmatch

theorem lookupOpcode_of_fits {o fl : Byte} {op : Opcode} (ho : o = op.code)
    (hfl : fl &&& ~~~(flagsAllowed o) = 0) : lookupOpcode (join16 o fl) = some op := by
  obtain ⟨r, hr, rfl⟩ := opcodeMap_complete op
  have hsome : (lookupOpcode (join16 o fl)).isSome = true := by
    rw [lookupOpcode, Option.isSome_map, List.find?_isSome]
    exact ⟨r, hr, (opcodeMap_matches hr).mpr ⟨ho, hfl⟩⟩
  obtain ⟨op, hop⟩ := Option.isSome_iff_exists.mp hsome
  rw [hop, Opcode.code_injective ((lookupOpcode_fits hop).1.symm.trans ho)]

/-! ### The operands (30_encoding.md R82, R87) -/

/-- The request of an opcode, its operands the fields R82 names. -/
def Opcode.request (f : Fields) : Opcode → Instr
  | .setfmt => .setfmt (f.a.setWidth 2)
  | .setxfer => .setxfer (f.a.getLsbD 0)
  | .encode => .encode (lo f.a) (lo f.b) (lo f.c)
  | .enchsv => .enchsv f.a (lo f.b) (lo f.c)
  | .curnorm => .curnorm f.q f.s
  | .currun => .currun f.q f.s f.p
  | .awpixel => .awpixel f.a f.b
  | .awhline => .awhline f.a f.b f.c (f.flags.getLsbD 0)
  | .awvline => .awvline f.a f.b f.c (f.flags.getLsbD 1)
  | .awfill => .awfill f.a f.b f.c f.d (f.flags.getLsbD 2)
  | .drawpixel => .drawpixel f.a f.b f.p f.q f.s
  | .drawhline => .drawhline f.a f.b f.c f.p f.q f.s (f.flags.getLsbD 0)
  | .drawvline => .drawvline f.a f.b f.c f.p f.q f.s (f.flags.getLsbD 1)
  | .drawfill => .drawfill f.a f.b f.c f.d f.p f.q f.s (f.flags.getLsbD 2)

/-- An operand part the request `op` gives no meaning: a "must be 0" part that is not 0 (R82), a code R87 reserves. -/
def Opcode.RefusesOperands (f : Fields) : Opcode → Prop
  | .setfmt => f.a ≠ 1 ∧ f.a ≠ 2
  | .setxfer => f.a ≠ 0 ∧ f.a ≠ 1
  | .encode => hi f.a ≠ 0 ∨ hi f.b ≠ 0 ∨ hi f.c ≠ 0
  | .enchsv => hi f.b ≠ 0 ∨ hi f.c ≠ 0
  | _ => False

/-- R85 by its three grounds: the `OP` byte, the flags, the operands. -/
theorem usesReserved_iff {f : Fields} {op : Opcode} (ho : f.op = op.code) :
    UsesReserved f ↔ f.flags &&& ~~~(flagsAllowed f.op) ≠ 0 ∨ op.RefusesOperands f := by
  unfold UsesReserved
  rw [ho]
  cases op <;> simp [Opcode.code, Opcode.RefusesOperands]

theorem setfmt_operand_iff (a : Half) : a = 1 ∨ a = 2 ↔ a >>> 2 = 0 ∧ (a.setWidth 2 = 1 ∨ a.setWidth 2 = 2) := by
  simp only [← BitVec.toNat_inj, BitVec.toNat_ushiftRight, BitVec.toNat_setWidth, Nat.shiftRight_eq_div_pow,
    BitVec.ofNat_eq_ofNat, BitVec.toNat_ofNat]
  omega

theorem setxfer_operand_iff (a : Half) : a = 0 ∨ a = 1 ↔ a >>> 1 = 0 := by
  simp only [← BitVec.toNat_inj, BitVec.toNat_ushiftRight, Nat.shiftRight_eq_div_pow, BitVec.ofNat_eq_ofNat,
    BitVec.toNat_ofNat]
  omega

theorem instrOfFields_accepted {f : Fields} {op : Opcode} (h : ¬ op.RefusesOperands f) :
    instrOfFields op f = .ok (op.request f) := by
  cases op with
  | setfmt =>
    have ha : f.a = 1 ∨ f.a = 2 := by rwa [Opcode.RefusesOperands, ← not_or, not_not] at h
    obtain ⟨hshift, hcode⟩ := (setfmt_operand_iff f.a).mp ha
    exact (if_neg (not_not.mpr hshift)).trans (if_pos hcode)
  | setxfer =>
    have ha : f.a = 0 ∨ f.a = 1 := by rwa [Opcode.RefusesOperands, ← not_or, not_not] at h
    exact if_neg (not_not.mpr ((setxfer_operand_iff f.a).mp ha))
  | encode => exact if_neg h
  | enchsv => exact if_neg h
  | _ => rfl

theorem instrOfFields_refused {f : Fields} {op : Opcode} (h : op.RefusesOperands f) :
    ∃ r : Reject, r.ofDescriptor = true ∧ instrOfFields op f = .error r := by
  cases op with
  | setfmt =>
    have ha := mt (setfmt_operand_iff f.a).mpr (not_or.mpr h)
    by_cases hshift : f.a >>> 2 = 0
    · exact ⟨.formatCode, rfl, (if_neg (not_not.mpr hshift)).trans (if_neg fun hcode => ha ⟨hshift, hcode⟩)⟩
    · exact ⟨.operandBits, rfl, if_pos hshift⟩
  | setxfer => exact ⟨.operandBits, rfl, if_pos (mt (setxfer_operand_iff f.a).mpr (not_or.mpr h))⟩
  | encode => exact ⟨.operandBits, rfl, if_pos h⟩
  | enchsv => exact ⟨.operandBits, rfl, if_pos h⟩
  | _ => exact h.elim

/-- A descriptor that uses no reserved encoding has the `OP` byte of a request. -/
theorem exists_opcode_of_not_reserved {f : Fields} (h : ¬ UsesReserved f) : ∃ op : Opcode, f.op = op.code := by
  obtain ⟨r, -, hr⟩ := exists_row_of_not_listed f.op (not_or.mp h).1
  exact ⟨r.op, hr⟩

theorem decode_of_not_reserved (p : Params) {f : Fields} {op : Opcode} (h : ¬ UsesReserved f) (ho : f.op = op.code) :
    decode p (.descriptor (bytesOfFields f)) = .ok (op.request f) := by
  rw [usesReserved_iff ho, not_or, not_not] at h
  obtain ⟨hflags, hoperands⟩ := h
  rw [decode, decodeDescriptor_bytesOfFields f op (lookupOpcode_of_fits ho hflags), instrOfFields_accepted hoperands]

theorem decode_of_reserved (p : Params) {f : Fields} (h : UsesReserved f) :
    ∃ r : Reject, r.ofDescriptor = true ∧ decode p (.descriptor (bytesOfFields f)) = .error r := by
  rw [decode]
  cases hop : lookupOpcode (join16 f.op f.flags) with
  | none => exact ⟨.opcodeOrFlags, rfl, by simp only [decodeDescriptor, fieldsOfBytes_bytesOfFields, hop]⟩
  | some op =>
    obtain ⟨ho, hflags⟩ := lookupOpcode_fits hop
    rw [decodeDescriptor_bytesOfFields f op hop]
    exact instrOfFields_refused (((usesReserved_iff ho).mp h).resolve_left (not_not.mpr hflags))

/-- Settles O7: the descriptor decodes to `Opcode.request` of its fields, unless it uses a reserved encoding. -/
theorem operandAssignment : Obligations.OperandAssignment := by
  intro p f
  refine ⟨decode_of_reserved p, fun h => ?_⟩
  have hdec : ∀ op : Opcode, f.op = op.code → decode p (.descriptor (bytesOfFields f)) = .ok (op.request f) :=
    fun op => decode_of_not_reserved p h
  exact ⟨hdec .setfmt, hdec .setxfer, hdec .encode, hdec .enchsv, hdec .curnorm, hdec .currun, hdec .awpixel,
    hdec .awhline, hdec .awvline, hdec .awfill, hdec .drawpixel, hdec .drawhline, hdec .drawvline, hdec .drawfill⟩

/-! ### A step that is handed an encoded instruction (30_encoding.md R86) -/

theorem step_of_decode_ok {s : State} {w : Wire} {rest : List Input} {i : Instr} (hidle : s.phase = .idle)
    (hin : s.inbox = .present w :: rest) (hdec : decode s.cfg w = .ok i) :
    step s = exec i { s with inbox := rest } := by
  simp [step, runInput, runWire, hin, hidle, hdec]

theorem step_of_decode_error {s : State} {w : Wire} {rest : List Input} {r : Reject} (hidle : s.phase = .idle)
    (hin : s.inbox = .present w :: rest) (hdec : decode s.cfg w = .error r) : step s = .refused (refusalOf r) := by
  simp [step, runInput, runWire, hin, hidle, hdec]

/-- Settles O8: the decoder refuses the reserved encodings, and a rejected descriptor is `reserved_encoding`. -/
theorem reservedEncodingsRefused : Obligations.ReservedEncodingsRefused := by
  intro s f rest hidle hin
  constructor
  · intro h
    obtain ⟨r, hr, hdec⟩ := decode_of_reserved s.cfg h
    rw [step_of_decode_error hidle hin hdec, refusalOf, if_pos hr]
  · intro h
    obtain ⟨op, ho⟩ := exists_opcode_of_not_reserved h
    have hdec := decode_of_not_reserved s.cfg h ho
    exact ⟨op.request f, hdec, step_of_decode_ok hidle hin hdec⟩

end Sys2Proof
end

section
/-! SUPPORT. The packets of a trace (30_encoding.md R97): brackets and well-formed packets correspond, one to one, so a
trace is read in the one way it was written. -/

namespace Sys2Proof

open Machine

/-! ### Packets as brackets (30_encoding.md R89 to R97) -/

/-- A packet is well formed and no request. -/
def Instr.IsPacket (i : Instr) : Prop := i.wf = true ∧ i.isRequest = false

theorem packetOfBytes_eq_ok {p : Params} {c : Byte} {payload : List Byte} {i : Instr}
    (h : packetOfBytes p c payload = .ok i) : i.IsPacket ∧ encode p i = .bracket (packet c payload) := by
  unfold packetOfBytes at h
  split_ifs at h with hcaset hpaset hmadctl hramwr hpixset
  · split at h
    · obtain rfl := Except.ok.inj h
      exact ⟨⟨rfl, rfl⟩, by simp [encode, be16_join16, hcaset]⟩
    · cases h
  · split at h
    · obtain rfl := Except.ok.inj h
      exact ⟨⟨rfl, rfl⟩, by simp [encode, be16_join16, hpaset]⟩
    · cases h
  · split at h
    · obtain rfl := Except.ok.inj h
      exact ⟨⟨rfl, rfl⟩, by rw [encode, hmadctl]⟩
    · cases h
  · split at h
    · obtain rfl := Except.ok.inj h
      exact ⟨⟨rfl, rfl⟩, by rw [encode, hramwr]⟩
    · cases h
  · split at h
    · split_ifs at h with h16 h18
      · obtain rfl := Except.ok.inj h
        exact ⟨⟨rfl, rfl⟩, by rw [encode, hpixset, h16, PixEnc.payload]⟩
      · obtain rfl := Except.ok.inj h
        exact ⟨⟨rfl, rfl⟩, by rw [encode, hpixset, h18, PixEnc.payload]⟩
    · cases h

/-- A bracket's inner events that decode are those of the packet they decode to. -/
theorem decodeInner_eq_ok {p : Params} {inner : List Event} {i : Instr} (h : decodeInner p inner = .ok i) :
    i.IsPacket ∧ encode p i = .bracket (.sel :: (inner ++ [.desel])) := by
  match inner with
  | [] => cases h
  | .sel :: _ => cases h
  | .desel :: _ => cases h
  | .cmd c :: rest =>
    cases hrest : datBytes rest with
    | none => simp [decodeInner, hrest] at h
    | some payload =>
      obtain rfl := datBytes_eq_some hrest
      simp only [decodeInner, hrest] at h
      exact packetOfBytes_eq_ok h
  | .dat b :: rest =>
    cases hrest : datBytes rest with
    | none => simp [decodeInner, hrest] at h
    | some bs =>
      obtain rfl := datBytes_eq_some hrest
      simp only [decodeInner, hrest] at h
      obtain rfl := Except.ok.inj h
      exact ⟨⟨rfl, rfl⟩, rfl⟩

/-- The round trip of a packet. -/
theorem decodeBracket_bracketEvents {p : Params} {i : Instr} (hp : p.wf = true) (hi : i.IsPacket) :
    decodeBracket p (bracketEvents (encode p i)) = .ok i := by
  obtain ⟨hwf, hreq⟩ := hi
  cases i with
  | caset first last => exact Laws.RoundTrip.caset first last p hp hwf
  | paset first last => exact Laws.RoundTrip.paset first last p hp hwf
  | madctl orient => exact Laws.RoundTrip.madctl orient p hp hwf
  | ramwr => exact Laws.RoundTrip.ramwr p hp hwf
  | data bytes => exact Laws.RoundTrip.data bytes p hp hwf
  | pixset enc => exact Laws.RoundTrip.pixset enc p hp hwf
  | _ => cases hreq

/-! ### The packets of a trace (R97) -/

theorem packetsOfTrace_nil (p : Params) : packetsOfTrace p [] = some [] := rfl

theorem packetsOfTrace_append {p : Params} {t u : List Event} {is js : List Instr}
    (ht : packetsOfTrace p t = some is) (hu : packetsOfTrace p u = some js) :
    packetsOfTrace p (t ++ u) = some (is ++ js) := by
  obtain ⟨bs, hbs, his⟩ := Option.bind_eq_some_iff.mp ht
  obtain ⟨cs, hcs, hjs⟩ := Option.bind_eq_some_iff.mp hu
  simp [packetsOfTrace, brackets_append hbs hcs, List.mapM_append, his, hjs]

theorem packetsOfTrace_of_decodeBracket {p : Params} {t : List Event} {i : Instr} (h : decodeBracket p t = .ok i) :
    packetsOfTrace p t = some [i] := by
  unfold decodeBracket at h
  split at h
  · rename_i inner hb
    simp [packetsOfTrace, hb, h, Except.toOption]
  · cases h

/-- Packets written one after the other are read back. -/
theorem packetsOfTrace_flatMap {p : Params} (hp : p.wf = true) {is : List Instr} (h : ∀ i ∈ is, i.IsPacket) :
    packetsOfTrace p (is.flatMap fun i => bracketEvents (encode p i)) = some is := by
  induction is with
  | nil => exact packetsOfTrace_nil p
  | cons i is ih =>
    obtain ⟨hi, his⟩ := List.forall_mem_cons.mp h
    exact packetsOfTrace_append (packetsOfTrace_of_decodeBracket (decodeBracket_bracketEvents hp hi)) (ih his)

/-- Brackets that decode, one after the other, are the encodings of what they decode to. -/
theorem mapM_decodeInner {p : Params} {bs : List (List Event)} {is : List Instr}
    (h : bs.mapM (fun inner => (decodeInner p inner).toOption) = some is) :
    (∀ i ∈ is, i.IsPacket) ∧
      (bs.flatMap fun inner => Event.sel :: (inner ++ [.desel])) = is.flatMap fun i => bracketEvents (encode p i) := by
  induction bs generalizing is with
  | nil =>
    obtain rfl := Option.some.inj h
    simp
  | cons inner bs ih =>
    simp only [List.mapM_cons, Option.bind_eq_bind, Option.bind_eq_some_iff, Option.pure_def, Option.some.injEq] at h
    obtain ⟨i, hi, is', his, rfl⟩ := h
    have hok : decodeInner p inner = .ok i := by
      cases hd : decodeInner p inner with
      | error r =>
        rw [hd] at hi
        cases hi
      | ok j =>
        rw [hd] at hi
        rw [Option.some.inj hi]
    obtain ⟨hpacket, henc⟩ := decodeInner_eq_ok hok
    obtain ⟨hpackets, hevents⟩ := ih his
    exact ⟨List.forall_mem_cons.mpr ⟨hpacket, hpackets⟩, by simp [hevents, henc, bracketEvents]⟩

theorem packetsOfTrace_eq_some_iff {p : Params} (hp : p.wf = true) (t : List Event) (is : List Instr) :
    packetsOfTrace p t = some is ↔
      (∀ i ∈ is, i.IsPacket) ∧ t = is.flatMap fun i => bracketEvents (encode p i) := by
  constructor
  · intro h
    obtain ⟨bs, hbs, his⟩ := Option.bind_eq_some_iff.mp h
    obtain ⟨hpackets, hevents⟩ := mapM_decodeInner his
    exact ⟨hpackets, (brackets_events hbs).trans hevents⟩
  · rintro ⟨hpackets, rfl⟩
    exact packetsOfTrace_flatMap hp hpackets

/-- The payload length is that of the command byte, the command bytes being distinct (R97, 00_scope.md R9). -/
theorem payloadLength_commands {p : Params} (hp : p.wf = true) :
    payloadLength p p.cmdCaset = some 4 ∧ payloadLength p p.cmdPaset = some 4 ∧
      payloadLength p p.cmdMadctl = some 1 ∧ payloadLength p p.cmdRamwr = some 0 ∧
      payloadLength p p.cmdPixset = some 1 := by
  have hdistinct := Params.wf_commands hp
  simp only [List.nodup_cons, List.mem_cons, List.not_mem_nil, or_false, not_or] at hdistinct
  simp [payloadLength, hdistinct, Ne.symm]

/-- Settles O11: brackets and packets correspond one to one, and so do a trace and its packets. -/
theorem traceParsesUniquely : Obligations.TraceParsesUniquely := by
  intro p hp
  exact ⟨packetsOfTrace_eq_some_iff hp, payloadLength_commands hp⟩

end Sys2Proof
end

section
/-! SUPPORT. Which packets each request puts on the Transport (30_encoding.md R90, 45_stream_emitter.md R178). -/

namespace Sys2Proof.Machine

/-- A draw request that completes is void or empty and sends nothing, or it sends the trace of R178 with some bytes. -/
theorem exec_drawRequest_trace {i : Instr} {r : DrawRequest} {s t : State} (hp : s.cfg.wf = true) (ho : s.ovr = 0)
    (hi : drawRequestOf i = some r) (h : exec i s = .next t) :
    ((r.base = 0 ∨ r.l = 0 ∨ r.npix < 1) ∧ t.trace = s.trace) ∨
    ∃ bytes, ¬ (r.base = 0 ∨ r.l = 0 ∨ r.npix < 1) ∧ bytes ≠ [] ∧
      t.trace = s.trace ++ drawTrace s.cfg s.orientBase (r.window s.cfg s.orientBase) bytes := by
  obtain ⟨s0, hx, hs0, -, hgo, -, hchecks, -⟩ := exec_drawRequest_check s hi
  have hcfg : s0.cfg = s.cfg := by rw [hs0]
  have hob : s0.orientBase = s.orientBase := by rw [hs0]
  have htrace : s0.trace = s.trace := by rw [hs0]
  rcases draw_eq_next (hcfg ▸ hp) (by rw [hs0]; exact ho) (hx.symm.trans h) with
    ⟨hnoop, rfl⟩ | ⟨bpp, n, w, s1, s2, bytes, hcheck, -, ht, -, -, -, hsent⟩
  · refine .inl ⟨?_, htrace⟩
    by_contra hsome
    obtain ⟨hb, hl, hn⟩ := (not_or.trans (and_congr_right fun _ => not_or)).mp hsome
    rw [hchecks hb hl (not_lt.mp hn)] at hnoop
    split at hnoop
    · cases hnoop
    · split_ifs at hnoop
  · obtain ⟨hpass, rfl, rfl⟩ := hgo bpp n w hcheck
    refine .inr ⟨bytes, ?_, ?_, ?_⟩
    · rintro (hb | hl | hn)
      · exact hpass.present hb
      · exact hpass.cycle hl
      · exact absurd hpass.pixels (by omega)
    · have hbpp : 0 < bpp := by
        have := Fmt.bpp_eq_some hpass.format
        omega
      exact List.ne_nil_of_length_pos (hsent.count ▸ Nat.mul_pos hpass.pixels hbpp)
    · rw [ht, ← hcfg, ← hob, ← htrace]

theorem drawTrace_eq_flatMap (p : Params) (ob : Byte) (w : Window) (bytes : List Byte) :
    drawTrace p ob w bytes = (drawPackets ob w bytes).flatMap fun i => bracketEvents (encode p i) := by
  unfold drawTrace drawPackets
  split_ifs <;> simp [encode, bracketEvents]

theorem drawPackets_isPacket (ob : Byte) (w : Window) {bytes : List Byte} (hb : bytes ≠ []) :
    ∀ i ∈ drawPackets ob w bytes, i.IsPacket := by
  unfold drawPackets
  split_ifs <;> simp [Instr.IsPacket, Instr.wf, Instr.isRequest, hb]

/-- The trace of R178 is read as the packets of R178. -/
theorem packetsOfTrace_drawTrace {p : Params} (hp : p.wf = true) (ob : Byte) (w : Window) {bytes : List Byte}
    (hb : bytes ≠ []) : packetsOfTrace p (drawTrace p ob w bytes) = some (drawPackets ob w bytes) := by
  rw [drawTrace_eq_flatMap]
  exact packetsOfTrace_flatMap hp (drawPackets_isPacket ob w hb)

/-- SETFMT, if it completes, sends the PIXSET of the encoding its code selects (42_pixel_format_config.md R120). -/
theorem exec_setfmt_trace {code : BitVec 2} {s t : State} (h : exec (.setfmt code) s = .next t) :
    ∃ enc, encOfCode code = some enc ∧ t.fmt = Fmt.ofEnc enc ∧
      t.trace = s.trace ++ bracketEvents (encode s.cfg (.pixset enc)) := by
  simp only [exec, execSetfmt] at h
  split at h
  · cases h
  · rename_i enc henc
    obtain rfl := Host.Outcome.next.inj h
    exact ⟨enc, henc, rfl, rfl⟩

theorem encodeColour_trace {c : RGB} {s t : State} (h : encodeColour c s = .next t) : t.trace = s.trace := by
  unfold encodeColour at h
  split at h
  · cases h
  · obtain rfl := Host.Outcome.next.inj h
    rfl
  · obtain rfl := Host.Outcome.next.inj h
    rfl

theorem exec_windowRequest_trace {i : Instr} {g : Geometry} {s t : State} (hi : windowRequestOf i = some g)
    (h : exec i s = .next t) : t.trace = s.trace := by
  rcases exec_windowRequest_cases s hi with ⟨-, u, hu, hshape⟩ | ⟨-, hu⟩ | ⟨w, u, -, hu, hshape⟩
  · obtain rfl := Host.Outcome.next.inj (hu.symm.trans h)
    rw [hshape]
  · cases hu.symm.trans h
  · obtain rfl := Host.Outcome.next.inj (hu.symm.trans h)
    rw [hshape]

/-- A request that is neither SETFMT nor a draw sends nothing (10_state.md R36). -/
theorem exec_trace_of_silent {i : Instr} {s t : State} (hreq : i.isRequest = true) (hdraw : drawRequestOf i = none)
    (hfmt : ∀ code, i ≠ .setfmt code) (h : exec i s = .next t) : t.trace = s.trace := by
  cases i with
  | setfmt code => exact absurd rfl (hfmt code)
  | setxfer bulk =>
    obtain rfl := Host.Outcome.next.inj h
    rfl
  | encode r g b => exact (encodeColour_trace h).trans (State.accept_trace ..)
  | enchsv hue sat val => exact (encodeColour_trace h).trans (State.accept_trace ..)
  | curnorm l o =>
    simp only [exec, execCurnorm] at h
    split at h
    · cases h
    · obtain rfl := Host.Outcome.next.inj h
      rfl
  | currun l o remaining =>
    simp only [exec, execCurrun] at h
    split at h
    · cases h
    · obtain rfl := Host.Outcome.next.inj h
      rfl
  | awpixel x0 y0 => exact exec_windowRequest_trace rfl h
  | awhline x0 y0 len rev => exact exec_windowRequest_trace rfl h
  | awvline x0 y0 len rev => exact exec_windowRequest_trace rfl h
  | awfill x0 y0 x1 y1 xpose => exact exec_windowRequest_trace rfl h
  | drawpixel | drawhline | drawvline | drawfill => cases hdraw
  | caset | paset | madctl | ramwr | data | pixset => cases hreq

/-- Settles O51: what a draw, SETFMT and every other request append to the trace, read as packets. -/
theorem packetsEmitted : Obligations.PacketsEmitted := by
  intro i s t hp ho hreq h
  cases hi : drawRequestOf i with
  | some r =>
    rcases exec_drawRequest_trace hp ho hi h with ⟨hvoid, ht⟩ | ⟨bytes, hsome, hb, ht⟩
    · exact ⟨[], [], by simp [ht], packetsOfTrace_nil _, by simp only [if_pos hvoid]⟩
    · refine ⟨_, _, ht, packetsOfTrace_drawTrace hp _ _ hb, ?_⟩
      simp only [if_neg hsome]
      exact ⟨bytes, hb, rfl⟩
  | none =>
    by_cases hfmt : ∃ code, i = .setfmt code
    · obtain ⟨code, rfl⟩ := hfmt
      obtain ⟨enc, henc, hf, ht⟩ := exec_setfmt_trace h
      refine ⟨_, [.pixset enc], ht, ?_, ?_, ?_⟩
      · exact packetsOfTrace_of_decodeBracket (decodeBracket_bracketEvents hp ⟨rfl, rfl⟩)
      · intro code' heq
        obtain rfl := Instr.setfmt.inj heq
        exact ⟨enc, henc, rfl, hf⟩
      · intro hne
        exact absurd rfl (hne code)
    · have hne := not_exists.mp hfmt
      have ht := exec_trace_of_silent hreq hi hne h
      exact ⟨[], [], by simp [ht], packetsOfTrace_nil _, fun code heq => absurd heq (hne code), fun _ => rfl⟩

end Sys2Proof.Machine
end

section
/-! SUPPORT. The colour codec (41_color_codec.md): the bits of `enc16`, what ENCODE and ENCHSV leave, and the host's loop
of encoding a colour, storing its bytes and drawing them. -/

namespace Sys2Proof.Machine

/-! ### The bits of `enc16` (R110) -/

theorem enc16_redMask_bit : ∀ i < 8, ((0xF8 : Nat) : Byte).getLsbD i = decide (3 ≤ i) := by decide

theorem enc16_greenMask_bit : ∀ i < 8, (0x1C : Byte).getLsbD i = decide (2 ≤ i ∧ i < 5) := by decide

/-- `byte0` holds the upper three bits of the green channel below the upper five of the red one. -/
theorem enc16Byte0_bit (r g : Byte) {i : Nat} (hi : i < 8) :
    (enc16Byte0 r g).getLsbD i = if i < 3 then g.getLsbD (5 + i) else r.getLsbD i := by
  rw [enc16Byte0, BitVec.getLsbD_or, BitVec.getLsbD_and, BitVec.getLsbD_ushiftRight, enc16_redMask_bit i hi]
  split_ifs with h
  · simp [h]
  · simp [not_lt.mp h, BitVec.getLsbD_of_ge g (5 + i) (by omega)]

/-- `byte1` holds the upper five bits of the blue channel below bits 4 to 2 of the green one. -/
theorem enc16Byte1_bit (g b : Byte) {i : Nat} (hi : i < 8) :
    (enc16Byte1 g b).getLsbD i = if i < 5 then b.getLsbD (3 + i) else g.getLsbD (i - 3) := by
  rw [enc16Byte1, BitVec.getLsbD_or, BitVec.getLsbD_shiftLeft, BitVec.getLsbD_and, BitVec.getLsbD_ushiftRight,
    enc16_greenMask_bit (i - 3) (by omega)]
  split_ifs with h
  · simp [show ¬ 2 ≤ i - 3 by omega]
  · simp [show 2 ≤ i - 3 ∧ i - 3 < 5 by omega, show ¬ i < 3 by omega, hi,
      BitVec.getLsbD_of_ge b (3 + i) (by omega)]

/-- Two fields of a byte are equal if their bits are. -/
theorem extractLsb'_congr {x y : Byte} {l l' n : Nat} (h : ∀ i, i < n → x.getLsbD (l + i) = y.getLsbD (l' + i)) :
    x.extractLsb' l n = y.extractLsb' l' n := by
  apply BitVec.eq_of_getLsbD_eq
  intro i hi
  simp [hi, h i hi]

/-- Settles O16: each field of the two bytes, bit by bit. -/
theorem enc16Bits : Obligations.Enc16Bits := by
  refine ⟨rfl, fun r g b => ⟨enc16Byte0 r g, enc16Byte1 g b, rfl, rfl, rfl, ?_, ?_, ?_, ?_⟩⟩
  · refine extractLsb'_congr (n := 5) fun i hi => ?_
    rw [enc16Byte0_bit r g (by omega), if_neg (by omega)]
  · refine extractLsb'_congr (n := 3) fun i hi => ?_
    rw [enc16Byte0_bit r g (by omega), if_pos (by omega), Nat.zero_add]
  · refine extractLsb'_congr (n := 3) fun i hi => ?_
    rw [enc16Byte1_bit g b (by omega), if_neg (by omega), show 5 + i - 3 = 2 + i by omega]
  · refine extractLsb'_congr (n := 5) fun i hi => ?_
    rw [enc16Byte1_bit g b (by omega), if_pos (by omega), Nat.zero_add]

/-! ### What ENCODE and ENCHSV leave (R112, R113) -/

/-- The bytes of a colour in a format that is set, R110, R111. -/
def Fmt.codec (f : Fmt) (c : RGB) : List Byte := if f = .fmt16 then enc16 c else enc18 c

/-- A colour has as many bytes as a pixel (42_pixel_format_config.md R122). -/
theorem Fmt.bpp_eq_codec_length {f : Fmt} (hf : f ≠ .unset) (c : RGB) : f.bpp = some (f.codec c).length := by
  cases f with
  | unset => exact absurd rfl hf
  | fmt16 | fmt18 => rfl

/-- `RES_B0, RES_B1, RES_B2, RES_N <- b0, b1, b2, n`. -/
def State.putColour (b0 b1 b2 : Byte) (n : BitVec 2) (s : State) : State :=
  { s with resB0 := b0, resB1 := b1, resB2 := b2, resN := n, written := { s.written with resB := true } }

theorem unchangedExcept_accept_putColour {s : State} {k : BitVec 2} {f : BitVec 3} {o : Operands} {b0 b1 b2 : Byte}
    {n : BitVec 2} : UnchangedExcept [.latch, .colour] s ((s.accept k f o).putColour b0 b1 b2 n) := by
  intro p hp
  cases p with
  | latch | colour => simp at hp
  | stream => exact ⟨rfl, rfl, rfl, rfl⟩
  | window | run | offset => exact ⟨rfl, rfl⟩
  | memory => exact fun _ => rfl
  | _ => rfl

theorem encodeColour_unset (c : RGB) {s : State} (h : s.fmt = .unset) : encodeColour c s = .refused .formatUnset := by
  simp [encodeColour, h]

theorem encodeColour_fmt16 (c : RGB) {s : State} (h : s.fmt = .fmt16) :
    encodeColour c s = .next (s.putColour (enc16Byte0 c.r c.g) (enc16Byte1 c.g c.b) 0 2) := by
  simp [encodeColour, h, State.putColour]

theorem encodeColour_fmt18 (c : RGB) {s : State} (h : s.fmt = .fmt18) :
    encodeColour c s = .next (s.putColour c.r c.g c.b 3) := by
  simp [encodeColour, h, State.putColour]

/-- What is left in the result registers depends on the colour and the format alone: the codec's bytes. -/
theorem encodeColour_of_set (c : RGB) {f : Fmt} (hf : f ≠ .unset) :
    ∃ b0 b1 b2 n, [b0, b1, b2].take n.toNat = f.codec c ∧
      ∀ s : State, s.fmt = f → encodeColour c s = .next (s.putColour b0 b1 b2 n) := by
  cases f with
  | unset => exact absurd rfl hf
  | fmt16 => exact ⟨_, _, _, _, rfl, fun _ => encodeColour_fmt16 c⟩
  | fmt18 => exact ⟨_, _, _, _, rfl, fun _ => encodeColour_fmt18 c⟩

/-- ENCODE with a format set completes, and its RES_N result bytes are the codec's. -/
theorem exec_encode_of_set {s : State} (r g b : Byte) (hf : s.fmt ≠ .unset) :
    ∃ t, exec (.encode r g b) s = .next t ∧
      [t.resB0, t.resB1, t.resB2].take t.resN.toNat = s.fmt.codec ⟨r, g, b⟩ ∧ UnchangedExcept [.latch, .colour] s t := by
  obtain ⟨b0, b1, b2, n, hbytes, hgo⟩ := encodeColour_of_set ⟨r, g, b⟩ hf
  exact ⟨_, hgo _ rfl, hbytes, unchangedExcept_accept_putColour⟩

/-- Settles O17: ENCODE in each of the three formats. -/
theorem encodeCompletes : Obligations.EncodeCompletes := by
  intro s r g b
  refine ⟨fun h => encodeColour_unset _ h, fun h => ?_, fun h => ?_⟩
  · exact ⟨_, encodeColour_fmt16 _ h, rfl, rfl, rfl, rfl, unchangedExcept_accept_putColour⟩
  · exact ⟨_, encodeColour_fmt18 _ h, rfl, rfl, rfl, unchangedExcept_accept_putColour⟩

/-- Settles O18: ENCHSV and ENCODE encode the same colour in the same format. -/
theorem enchsvCompletes : Obligations.EnchsvCompletes := by
  intro s h c v
  refine ⟨fun hf => encodeColour_unset _ hf, fun hf => ?_⟩
  obtain ⟨b0, b1, b2, n, -, hgo⟩ := encodeColour_of_set (Config.hsv2rgb h c v) hf
  exact ⟨_, _, hgo _ rfl, hgo _ rfl, rfl, rfl, rfl, rfl, rfl, unchangedExcept_accept_putColour⟩

/-! ### Bytes the host stores, and a draw of one pixel from them -/

/-- Where each byte of a range is that of a list, the list is what is read. -/
theorem Memory.readBytes_of_getElem? {m : Memory} {addr : Nat} {bs : List Byte}
    (h : ∀ i, i < bs.length → Memory.read m (addr + i) = bs[i]?) : Memory.readBytes m addr bs.length = some bs := by
  induction bs generalizing addr with
  | nil => rfl
  | cons b bs ih =>
    have h0 : Memory.read m addr = some b := h 0 (by simp)
    have hrest : Memory.readBytes m (addr + 1) bs.length = some bs := ih fun i hi => by
      rw [Nat.add_assoc, Nat.add_comm 1 i]
      exact h (i + 1) (Nat.succ_lt_succ hi)
    simp only [List.length_cons, Memory.readBytes, h0, hrest]

/-- Bytes just written are read back. -/
theorem Memory.readBytes_writeBytes (m : Memory) (addr : Nat) (bs : List Byte) :
    Memory.readBytes (Memory.writeBytes m addr bs) addr bs.length = some bs :=
  Memory.readBytes_of_getElem? fun _ => Memory.read_writeBytes_same m bs

/-- A store at a request boundary, inside the address space, completes (20_memory.md R61, log 10). -/
theorem hostStore_of_idle {s : State} {addr : Nat} {bytes : List Byte} (hidle : s.phase = .idle)
    (h : addr + bytes.length ≤ addressLimit) :
    hostStore addr bytes s = .next { s with mem := Memory.writeBytes s.mem addr bytes } := by
  rw [hostStore, if_neg (not_not.mpr hidle), if_neg (not_lt.mpr h)]

/-- The operands of a solid draw of one pixel. -/
def solidPixel (x0 y0 : Half) (base o : Word) : DrawRequest :=
  { kind := .pixel, flags := 0, x0, y0, c := 0, d := 0, base, l := 1, o }

theorem drawRequestOf_solidPixel (x0 y0 : Half) (base o : Word) :
    drawRequestOf (.drawpixel x0 y0 base 1 o) = some (solidPixel x0 y0 base o) := rfl

/-- The bytes of a solid draw of one pixel are the pixel that stands at its base (45_stream_emitter.md R166). -/
theorem streamBytes_solidPixel {s : State} {x0 y0 : Half} {base o : Word} {px : List Byte}
    (hread : Memory.readBytes s.mem base.toNat px.length = some px) :
    (solidPixel x0 y0 base o).streamBytes s px.length = px :=
  (streamBytes_one s.mem base px.length o.toNat 1).trans (by simp [pixelAt, addressOf, hread])

/-- A solid draw of one pixel inside the device completes and sends the pixel that stands at its base
(45_stream_emitter.md R171). -/
theorem exec_solidPixel {s : State} {x0 y0 : Half} {base : Word} (o : Word) {w : Window} {px : List Byte}
    (hp : s.cfg.wf = true) (ho : s.ovr = 0) (hbase : base ≠ 0) (hfmt : s.fmt.bpp = some px.length)
    (hspace : base.toNat + px.length ≤ addressLimit) (hstage : 1 ≤ s.cfg.stageMaxPixels)
    (hw : windowOf s.cfg s.orientBase
      { kind := .pixel, x0 := x0.toNat, y0 := y0.toNat, c := 0, d := 0, flags := 0 } = .window w)
    (hread : Memory.readBytes s.mem base.toNat px.length = some px) :
    ∃ t, exec (.drawpixel x0 y0 base 1 o) s = .next t ∧
      t.trace = s.trace ++ drawTrace s.cfg s.orientBase w px := by
  obtain ⟨-, hin, rfl⟩ := windowOf_eq_window hw
  have hlen : (solidPixel x0 y0 base o).l.toNat * px.length = px.length := Nat.one_mul _
  have hs : (solidPixel x0 y0 base o).Streams s px.length :=
    { passes :=
        { present := hbase, cycle := (by decide : (1 : Word) ≠ 0), pixels := Nat.le_refl 1, format := hfmt, extent := hin
          space := hlen.symm ▸ hspace, staging := fun _ => hstage }
      readable := hlen.symm ▸ Memory.readable_of_readBytes hread }
  obtain ⟨t, bytes, ht, hsent⟩ := exec_draw_sent hp ho (drawRequestOf_solidPixel x0 y0 base o) hs
  have hbytes : bytes = px := (hsent.intact (.inr (.inl rfl))).trans (streamBytes_solidPixel hread)
  exact ⟨t, ht, hbytes ▸ hsent.trace⟩

/-- Settles O59: the bytes ENCODE leaves are those the host stores, those the draw reads, and those it sends. -/
theorem encodeStoreDraw : Obligations.EncodeStoreDraw := by
  intro s r g b x0 y0 base o w hinv hf hbase hroom hstage hw
  obtain ⟨s1, h1, hbytes, hframe⟩ := exec_encode_of_set r g b hf
  have hcfg : s1.cfg = s.cfg := hframe .params (by decide)
  have hfmt : s1.fmt = s.fmt := hframe .fmt (by decide)
  have horient : s1.orientBase = s.orientBase := hframe .orientBase (by decide)
  have hovr : s1.ovr = s.ovr := hframe .ovr (by decide)
  have hphase : s1.phase = s.phase := hframe .phase (by decide)
  have htrace : s1.trace = s.trace := hframe .trace (by decide)
  have hlen := Fmt.bpp_eq_codec_length hf ⟨r, g, b⟩
  have hspace : base.toNat + (s.fmt.codec ⟨r, g, b⟩).length ≤ addressLimit := by
    have := Fmt.bpp_eq_some hlen
    omega
  rw [← hcfg, ← horient] at hw
  obtain ⟨s3, h3, hsent⟩ := exec_solidPixel
    (s := { s1 with mem := Memory.writeBytes s1.mem base.toNat (s.fmt.codec ⟨r, g, b⟩) }) o
    (hcfg ▸ hinv.params) (hovr.trans hinv.reverted) hbase (hfmt ▸ hlen) hspace (hcfg ▸ hstage) hw
    (Memory.readBytes_writeBytes ..)
  refine ⟨s1, _, s3, h1, ?_, h3, ?_⟩
  · rw [hbytes]
    exact hostStore_of_idle (hphase.trans hinv.idle) hspace
  · rw [hsent, htrace, hcfg, horient, Fmt.codec]

end Sys2Proof.Machine
end

section
/-! SUPPORT. PixelFormatState and the transfer mode (42_pixel_format_config.md): what SETFMT and SETXFER do, that no
other request touches `FMT`, and that the device's pixel format is `FMT`. -/

namespace Sys2Proof.Machine

/-! ### What SETFMT and SETXFER do (R120, R121) -/

/-- The frame of a configuration request: it writes the latch and, as far as they are listed, `FMT`, `XFER` and the
trace. -/
theorem unchangedExcept_config {parts : List Part} {s t : State}
    (h : t = { s with latch := t.latch, draws := t.draws, fmt := t.fmt, xfer := t.xfer, trace := t.trace })
    (hlatch : .latch ∈ parts) (hfmt : .fmt ∈ parts ∨ t.fmt = s.fmt) (hxfer : .xfer ∈ parts ∨ t.xfer = s.xfer)
    (htrace : .trace ∈ parts ∨ t.trace = s.trace) : UnchangedExcept parts s t := by
  apply UnchangedExcept.intro
  intro p
  cases p with
  | latch => exact .inl hlatch
  | fmt => exact hfmt
  | xfer => exact hxfer
  | trace => exact htrace
  | _ => exact .inr (by rw [h]; simp [Part.Unchanged])

/-- SETFMT with a code that selects an encoding completes (R120). -/
theorem exec_setfmt_of_enc {code : BitVec 2} {enc : PixEnc} (s : State) (h : encOfCode code = some enc) :
    ∃ t, exec (.setfmt code) s = .next t ∧ t.fmt = Fmt.ofEnc enc ∧
      t.trace = s.trace ++ packet s.cfg.cmdPixset [enc.payload s.cfg] ∧
      UnchangedExcept [.latch, .fmt, .trace] s t := by
  simp only [exec, execSetfmt, h]
  exact ⟨_, rfl, rfl, rfl, unchangedExcept_config rfl (by decide) (.inl (by decide)) (.inr rfl) (.inl (by decide))⟩

/-- SETFMT with a reserved code is refused (30_encoding.md R87). -/
theorem exec_setfmt_of_reserved {code : BitVec 2} (s : State) (h : encOfCode code = none) :
    exec (.setfmt code) s = .refused .reservedEncoding := by
  simp only [exec, execSetfmt, h]

theorem exec_setfmt_cfg {code : BitVec 2} {s t : State} (h : exec (.setfmt code) s = .next t) : t.cfg = s.cfg := by
  cases hcode : encOfCode code with
  | none => cases (exec_setfmt_of_reserved s hcode).symm.trans h
  | some enc =>
    obtain ⟨u, hu, -, -, hframe⟩ := exec_setfmt_of_enc s hcode
    obtain rfl := Host.Outcome.next.inj (hu.symm.trans h)
    exact hframe .params (by decide)

/-- SETXFER completes (R121). -/
theorem exec_setxfer (bulk : Bool) (s : State) :
    ∃ t, exec (.setxfer bulk) s = .next t ∧ t.xfer = Xfer.ofBulk bulk ∧ UnchangedExcept [.latch, .xfer] s t :=
  ⟨_, rfl, rfl, unchangedExcept_config rfl (by decide) (.inr rfl) (.inl (by decide)) (.inr rfl)⟩

/-- Whatever is presented during a draw is refused, before it is decoded (30_encoding.md R86 (1)). -/
theorem step_of_busy {s : State} {w : Wire} {rest : List Input} (hbusy : s.phase ≠ .idle)
    (hin : s.inbox = .present w :: rest) : step s = .refused .reentry := by
  simp [step, runInput, runWire, hin, hbusy]

/-- A descriptor whose operands its request refuses is rejected by the decoder (30_encoding.md R82, R87). -/
theorem decode_of_refusesOperands (p : Params) {f : Fields} {op : Opcode} (ho : f.op = op.code)
    (h : op.RefusesOperands f) :
    ∃ r : Reject, r.ofDescriptor = true ∧ decode p (.descriptor (bytesOfFields f)) = .error r :=
  decode_of_reserved p ((usesReserved_iff ho).mpr (.inr h))

/-- An operand whose code is 0 or 3 is neither of SETFMT's. -/
theorem setfmt_refusesOperands {f : Fields} (h : f.a.setWidth 2 = (0 : BitVec 2) ∨ f.a.setWidth 2 = (3 : BitVec 2)) :
    Opcode.setfmt.RefusesOperands f := by
  refine not_or.mp fun ha => ?_
  obtain ⟨-, hcode | hcode⟩ := (setfmt_operand_iff f.a).mp ha
  · rw [hcode] at h
    exact absurd h (by decide)
  · rw [hcode] at h
    exact absurd h (by decide)

/-- Settles O19: SETFMT with each of the two codes, and its three refusals. -/
theorem setfmtCompletes : Obligations.SetfmtCompletes := by
  refine ⟨fun s => exec_setfmt_of_enc (enc := .bits16) s rfl, fun s => exec_setfmt_of_enc (enc := .bits18) s rfl,
    ?_, ?_, ?_⟩
  · rintro s code (rfl | rfl)
    · exact exec_setfmt_of_reserved s rfl
    · exact exec_setfmt_of_reserved s rfl
  · intro p f ho _ ha
    exact decode_of_refusesOperands p (op := .setfmt) ho (setfmt_refusesOperands ha)
  · intro s f rest _ hbusy hin
    exact step_of_busy hbusy hin

/-- Settles O20: SETXFER in each of the two modes, and its two refusals. -/
theorem setxferCompletes : Obligations.SetxferCompletes := by
  intro s
  refine ⟨exec_setxfer false s, exec_setxfer true s, ?_, ?_⟩
  · intro p f ho _ ha
    exact decode_of_refusesOperands p (op := .setxfer) ho (not_or.mp (mt (setxfer_operand_iff f.a).mp ha))
  · intro f rest _ hbusy hin
    exact step_of_busy hbusy hin

/-! ### No other request touches `FMT` (10_state.md R30) -/

/-- A colour's encoding, if it is given, is in the four colour registers. -/
theorem encodeColour_eq_next {c : RGB} {s t : State} (h : encodeColour c s = .next t) :
    ∃ b0 b1 b2 n, t = s.putColour b0 b1 b2 n := by
  by_cases hf : s.fmt = .unset
  · cases (encodeColour_unset c hf).symm.trans h
  · obtain ⟨b0, b1, b2, n, -, hgo⟩ := encodeColour_of_set c hf
    exact ⟨b0, b1, b2, n, (Host.Outcome.next.inj ((hgo s rfl).symm.trans h)).symm⟩

theorem exec_windowRequest_cfg_fmt {i : Instr} {g : Geometry} {s t : State} (hi : windowRequestOf i = some g)
    (h : exec i s = .next t) : t.cfg = s.cfg ∧ t.fmt = s.fmt := by
  rcases exec_windowRequest_cases s hi with ⟨-, u, hu, hshape⟩ | ⟨-, hu⟩ | ⟨w, u, -, hu, hshape⟩
  · obtain rfl := Host.Outcome.next.inj (hu.symm.trans h)
    rw [hshape]
    exact ⟨rfl, rfl⟩
  · cases hu.symm.trans h
  · obtain rfl := Host.Outcome.next.inj (hu.symm.trans h)
    rw [hshape]
    exact ⟨rfl, rfl⟩

theorem exec_drawRequest_cfg_fmt {i : Instr} {r : DrawRequest} {s t : State} (hp : s.cfg.wf = true) (ho : s.ovr = 0)
    (hi : drawRequestOf i = some r) (h : exec i s = .next t) : t.cfg = s.cfg ∧ t.fmt = s.fmt := by
  obtain ⟨s0, hx, hs0, -⟩ := exec_drawRequest s hi
  have hcfg : s0.cfg = s.cfg := by rw [hs0]
  have hfmt : s0.fmt = s.fmt := by rw [hs0]
  rcases draw_eq_next (hcfg ▸ hp) (by rw [hs0]; exact ho) (hx.symm.trans h) with
    ⟨-, rfl⟩ | ⟨bpp, n, w, s1, s2, bytes, -, -, rfl, -⟩
  · exact ⟨hcfg, hfmt⟩
  · exact ⟨hcfg, hfmt⟩

/-- A request other than SETFMT leaves the parameters and `FMT` as they were. -/
theorem exec_cfg_fmt {i : Instr} {s t : State} (hp : s.cfg.wf = true) (ho : s.ovr = 0) (hreq : i.isRequest = true)
    (hne : ∀ code, i ≠ .setfmt code) (h : exec i s = .next t) : t.cfg = s.cfg ∧ t.fmt = s.fmt := by
  cases i with
  | setfmt code => exact absurd rfl (hne code)
  | setxfer bulk =>
    obtain rfl := Host.Outcome.next.inj h
    exact ⟨rfl, rfl⟩
  | encode | enchsv =>
    obtain ⟨b0, b1, b2, n, rfl⟩ := encodeColour_eq_next h
    exact ⟨rfl, rfl⟩
  | curnorm l o =>
    simp only [exec, execCurnorm] at h
    split at h
    · cases h
    · obtain rfl := Host.Outcome.next.inj h
      exact ⟨rfl, rfl⟩
  | currun l o remaining =>
    simp only [exec, execCurrun] at h
    split at h
    · cases h
    · obtain rfl := Host.Outcome.next.inj h
      exact ⟨rfl, rfl⟩
  | awpixel | awhline | awvline | awfill => exact exec_windowRequest_cfg_fmt rfl h
  | drawpixel | drawhline | drawvline | drawfill => exact exec_drawRequest_cfg_fmt hp ho rfl h
  | caset | paset | madctl | ramwr | data | pixset => cases hreq

/-! ### What the device was last sent (10_state.md R34) -/

/-- What the device was last sent is known packet by packet. -/
theorem lastSent_append {p : Params} {v d : DeviceView} {t es : List Event} {is : List Instr}
    (ht : lastSent p v t = some d) (hes : packetsOfTrace p es = some is) :
    lastSent p v (t ++ es) = some (is.foldl DeviceView.after d) := by
  obtain ⟨js, hjs, rfl⟩ := Option.map_eq_some_iff.mp ht
  rw [lastSent, packetsOfTrace_append hjs hes, Option.map_some, List.foldl_append]

/-- A draw sends no PIXSET. -/
theorem drawPackets_format (ob : Byte) (w : Window) (bytes : List Byte) (d : DeviceView) :
    ((drawPackets ob w bytes).foldl DeviceView.after d).format = d.format := by
  unfold drawPackets
  split_ifs <;> rfl

/-- Settles O58: SETFMT tells the device the format it records; every other request sends no PIXSET and leaves `FMT`. -/
theorem formatAgrees : Obligations.FormatAgrees := by
  intro i s t v d hp ho hreq hd hagree h
  obtain ⟨es, is, ht, hes, hsent⟩ := packetsEmitted i s t hp ho hreq h
  have hlast := lastSent_append hd hes
  rw [← ht] at hlast
  by_cases hset : ∃ code, i = .setfmt code
  · obtain ⟨code, rfl⟩ := hset
    obtain ⟨enc, -, rfl, hfmt⟩ := hsent.1 code rfl
    rw [exec_setfmt_cfg h, hfmt]
    exact ⟨_, hlast, fun _ => rfl⟩
  · have hne := not_exists.mp hset
    obtain ⟨hcfg, hfmt⟩ := exec_cfg_fmt hp ho hreq hne h
    have hformat : (is.foldl DeviceView.after d).format = d.format := by
      split at hsent
      · split_ifs at hsent
        · rw [hsent, List.foldl_nil]
        · obtain ⟨bytes, -, rfl⟩ := hsent
          exact drawPackets_format ..
      · rw [hsent.2 hne, List.foldl_nil]
    rw [hcfg, hfmt]
    exact ⟨_, hlast, by rwa [hformat]⟩

end Sys2Proof.Machine
end

section
/-! SUPPORT. The ColorCycleCursor (43_color_cycle_cursor.md): what one step of it gives, what its two requests leave,
and the chunks of a stream, written out. -/

namespace Sys2Proof.Machine

/-! ### One step of the cursor (43_color_cycle_cursor.md R130) -/

theorem cursorRunLength_one (o n : Nat) : cursorRunLength 1 o n = n := rfl

theorem cursorRunLength_of_one_lt {l : Nat} (o n : Nat) (hl : 1 < l) : cursorRunLength l o n = min (l - o) n :=
  if_neg (by omega)

theorem cursorRunNext_one (o n : Nat) : cursorRunNext 1 o n = 0 := Nat.mod_one _

/-- The next offset is where the run ends, and the wrap is offset 0. -/
theorem cursorRunNext_eq_ite {l o : Nat} (n : Nat) (hl : 1 < l) (ho : o < l) :
    cursorRunNext l o n = if o + cursorRunLength l o n < l then o + cursorRunLength l o n else 0 := by
  unfold cursorRunNext
  split
  case isTrue h => exact Nat.mod_eq_of_lt h
  case isFalse h => rw [Nat.le_antisymm (cursorRunLength_wrap n hl ho) (not_lt.mp h), Nat.mod_self]

theorem cursorRunLength_zero (l o : Nat) : cursorRunLength l o 0 = 0 := Nat.le_zero.mp (cursorRunLength_le l o 0)

theorem cursorRunNext_zero {l o : Nat} (ho : o < l) : cursorRunNext l o 0 = o := by
  rw [cursorRunNext, cursorRunLength_zero, Nat.add_zero, Nat.mod_eq_of_lt ho]

/-- Settles O21: the run and the next offset of one step, for one pixel, for more, and with nothing remaining. -/
theorem cursorRun : Obligations.CursorRun := by
  intro l o n _ ho
  refine ⟨?_, fun hl => ?_, rfl, fun hn => ?_⟩
  · rintro rfl
    exact ⟨cursorRunLength_one o n, cursorRunNext_one o n⟩
  · exact ⟨cursorRunLength_of_one_lt o n hl, cursorRunLength_wrap n hl ho, cursorRunNext_eq_ite n hl ho⟩
  · rw [hn]
    exact ⟨cursorRunLength_zero l o, cursorRunNext_zero ho⟩

/-! ### CURNORM and CURRUN (43_color_cycle_cursor.md R131, R132) -/

/-- The frame of a request that writes the latch and the cursor's result registers only. -/
theorem unchangedExcept_cursor {parts : List Part} {s t : State}
    (h : t = { s with
      latch := t.latch, draws := t.draws, resRun := t.resRun, resO := t.resO,
      written := { s.written with resRun := t.written.resRun, resO := t.written.resO } })
    (hlatch : .latch ∈ parts) (hoffset : .offset ∈ parts) (hrun : .run ∈ parts ∨ Part.run.Unchanged s t) :
    UnchangedExcept parts s t := by
  apply UnchangedExcept.intro
  intro p
  cases p with
  | latch => exact .inl hlatch
  | offset => exact .inl hoffset
  | run => exact hrun
  | _ => exact .inr (by rw [h]; simp [Part.Unchanged])

/-- Settles O22: CURNORM of a pattern without pixels, and of any other. -/
theorem curnormCompletes : Obligations.CurnormCompletes := by
  intro s l o
  refine ⟨fun hl => if_pos hl, fun hl => ⟨_, if_neg hl, ?_, rfl, ?_⟩⟩
  · have hlt := cursorNorm_lt o.toNat (toNat_pos_of_ne_zero hl)
    exact toNat_word (hlt.trans l.isLt)
  · exact unchangedExcept_cursor rfl (by decide) (by decide) (.inr ⟨rfl, rfl⟩)

/-- Settles O23: CURRUN of a pattern without pixels, and of any other; the run and the offset fit their registers. -/
theorem currunCompletes : Obligations.CurrunCompletes := by
  intro s l o n
  refine ⟨fun hl => if_pos hl, fun hl => ⟨_, if_neg hl, ?_, ?_, rfl, rfl, ?_⟩⟩
  · have hle := cursorRunLength_le l.toNat (cursorNorm l.toNat o.toNat) n.toNat
    exact toNat_word (hle.trans_lt n.isLt)
  · have hlt : cursorRunNext l.toNat (cursorNorm l.toNat o.toNat) n.toNat < l.toNat :=
      cursorRunNext_lt (toNat_pos_of_ne_zero hl)
    exact toNat_word (hlt.trans l.isLt)
  · exact unchangedExcept_cursor rfl (by decide) (by decide) (.inl (by decide))

/-! ### The chunks of a stream (43_color_cycle_cursor.md R133, R135) -/

@[simp] theorem chunks_zero (l fuel o : Nat) : chunks l fuel o 0 = [] := by
  cases fuel <;> rfl

theorem chunks_succ {l fuel o n : Nat} (hn : n ≠ 0) :
    chunks l (fuel + 1) o n =
      (o, cursorRunLength l o n) :: chunks l fuel (cursorRunNext l o n) (n - cursorRunLength l o n) :=
  if_neg hn

/-- A stream with a first chunk has the cursor's run first, then the chunks from the cursor's next offset. -/
theorem chunks_eq_cons {l fuel o n : Nat} {c : Nat × Nat} {rest : List (Nat × Nat)}
    (h : chunks l fuel o n = c :: rest) :
    c = (o, cursorRunLength l o n) ∧
      ∃ fuel', chunks l fuel' (cursorRunNext l o n) (n - cursorRunLength l o n) = rest := by
  cases fuel with
  | zero => cases h
  | succ fuel =>
    by_cases hn : n = 0
    · rw [hn, chunks_zero] at h
      cases h
    · rw [chunks_succ hn] at h
      obtain ⟨hc, hrest⟩ := List.cons.inj h
      exact ⟨hc.symm, fuel, hrest⟩

/-- A chunk of a stream starts where the pixels before it end, and is the cursor's run from there. -/
theorem chunks_split {l o n fuel offset run : Nat} {before after : List (Nat × Nat)} (ho : o < l)
    (h : chunks l fuel o n = before ++ (offset, run) :: after) :
    offset = (o + (before.map Prod.snd).sum) % l ∧
      run = cursorRunLength l offset (n - (before.map Prod.snd).sum) := by
  induction before generalizing fuel o n with
  | nil =>
    obtain ⟨hc, -⟩ := chunks_eq_cons h
    cases hc
    exact ⟨(Nat.mod_eq_of_lt ho).symm, rfl⟩
  | cons c before ih =>
    obtain ⟨rfl, fuel', hrest⟩ := chunks_eq_cons h
    obtain ⟨hoffset, hrun⟩ := ih (cursorRunNext_lt (by omega)) hrest
    rw [cursorRunNext_add] at hoffset
    rw [Nat.sub_sub] at hrun
    exact ⟨hoffset, hrun⟩

/-- Settles O24: a chunk's offset, and the next one, after the pixels before it and its own. -/
theorem cursorWrapLaw : Obligations.CursorWrapLaw := by
  intro l o n fuel before after offset run _ ho h
  obtain ⟨hoffset, hrun⟩ := chunks_split ho h
  refine ⟨hoffset, ?_⟩
  rw [cursorRunNext, ← hrun, hoffset, Nat.mod_add_mod]

/-- A stream that one run serves is one chunk. -/
theorem chunks_of_single {l o n fuel : Nat} (hn : 1 ≤ n) (hf : n ≤ fuel) (h : cursorRunLength l o n = n) :
    chunks l fuel o n = [(o, n)] := by
  obtain ⟨fuel, rfl⟩ := Nat.exists_eq_add_of_le' (hn.trans hf)
  rw [chunks_succ (by omega), h, Nat.sub_self, chunks_zero]

/-- A stream that wraps is the chunk to the pattern's end, then a stream from offset 0. -/
theorem chunks_of_wrap {l o n fuel : Nat} (hl : 1 < l) (ho : o < l) (hn : l - o < n) :
    chunks l (fuel + 1) o n = (o, l - o) :: chunks l fuel 0 (n - (l - o)) := by
  have hrun : cursorRunLength l o n = l - o := by
    rw [cursorRunLength_of_one_lt o n hl, Nat.min_eq_left hn.le]
  rw [chunks_succ (by omega), cursorRunNext_of_lt hl ho (hrun ▸ hn), hrun]

/-- The chunks of `m + 1` pixels from offset 0: as many whole patterns as leave a pixel, then what is left. -/
def chunksFromStart (l m : Nat) : List (Nat × Nat) := List.replicate (m / l) (0, l) ++ [(0, m % l + 1)]

theorem chunksFromStart_of_lt {l m : Nat} (h : m < l) : chunksFromStart l m = [(0, m + 1)] := by
  rw [chunksFromStart, Nat.div_eq_of_lt h, Nat.mod_eq_of_lt h, List.replicate_zero, List.nil_append]

theorem chunksFromStart_add {l : Nat} (m : Nat) (hl : 0 < l) :
    chunksFromStart l (m + l) = (0, l) :: chunksFromStart l m := by
  rw [chunksFromStart, Nat.add_div_right m hl, Nat.add_mod_right, List.replicate_succ, List.cons_append,
    chunksFromStart]

theorem chunks_from_start {l m fuel : Nat} (hl : 1 < l) (hf : m < fuel) :
    chunks l fuel 0 (m + 1) = chunksFromStart l m := by
  induction fuel generalizing m with
  | zero => omega
  | succ fuel ih =>
    by_cases h : m < l
    · have hrun : cursorRunLength l 0 (m + 1) = m + 1 := by
        rw [cursorRunLength_of_one_lt 0 _ hl, Nat.min_eq_right (by omega)]
      rw [chunks_of_single (by omega) (by omega) hrun, chunksFromStart_of_lt h]
    · obtain ⟨k, rfl⟩ := Nat.exists_eq_add_of_le' (not_lt.mp h)
      have hrest : k + l + 1 - l = k + 1 := by omega
      rw [chunks_of_wrap hl (by omega) (by omega), Nat.sub_zero, hrest, ih (by omega),
        chunksFromStart_add k (by omega)]

/-- A stream that wraps, in whole: the chunk to the pattern's end, then the chunks from offset 0. -/
theorem chunks_past_wrap {l o n fuel : Nat} (hl : 1 < l) (ho : o < l) (hn : l - o < n) (hf : n ≤ fuel) :
    ∃ m, n - (l - o) = m + 1 ∧ chunks l fuel o n = (o, l - o) :: chunksFromStart l m := by
  obtain ⟨fuel, rfl⟩ := Nat.exists_eq_add_of_le' (show 1 ≤ fuel by omega)
  obtain ⟨m, hm⟩ := Nat.exists_eq_add_of_le' (Nat.sub_pos_of_lt hn)
  exact ⟨m, hm, by rw [chunks_of_wrap hl ho hn, hm, chunks_from_start hl (by omega)]⟩

theorem sum_chunksFromStart (l m : Nat) : ((chunksFromStart l m).map Prod.snd).sum = m + 1 := by
  have hdiv := Nat.div_add_mod' m l
  simp only [chunksFromStart, List.map_append, List.map_replicate, List.map_cons, List.map_nil, List.sum_append,
    List.sum_replicate, List.sum_singleton, smul_eq_mul]
  omega

theorem length_chunksFromStart (l m : Nat) : (chunksFromStart l m).length = m / l + 1 := by
  simp [chunksFromStart]

theorem getLast?_chunksFromStart (l m : Nat) : (chunksFromStart l m).getLast? = some (0, m % l + 1) :=
  List.getLast?_concat

theorem dropLast_chunksFromStart (l m : Nat) : (chunksFromStart l m).dropLast = List.replicate (m / l) (0, l) :=
  List.dropLast_concat

/-- Each chunk but the last is a whole pattern, and the last is what is left. -/
theorem mem_chunksFromStart {l m : Nat} {c : Nat × Nat} (h : c ∈ chunksFromStart l m) :
    c = (0, l) ∨ c = (0, m % l + 1) := by
  rcases List.mem_append.mp h with h | h
  · exact .inl (List.eq_of_mem_replicate h)
  · exact .inr (List.mem_singleton.mp h)

/-- Settles O25: the stream is one chunk, or the chunk to the pattern's end and then `chunksFromStart`. -/
theorem chunkSequence : Obligations.ChunkSequence := by
  intro l o n fuel ho hn hf
  refine ⟨fun hl => ?_, ?_⟩
  · by_cases hwrap : n ≤ l - o
    · have hone : chunks l fuel o n = [(o, n)] :=
        chunks_of_single hn hf (by rw [cursorRunLength_of_one_lt o n hl, Nat.min_eq_right hwrap])
      simp [hone, hn, hwrap]
    · obtain ⟨m, hm, hall⟩ := chunks_past_wrap hl ho (not_le.mp hwrap) hf
      rw [hall, if_neg hwrap, hm]
      refine ⟨fun c hc => ?_, ?_, ?_, fun c hc => ?_, fun c hc => ?_, ?_, fun c hc => ?_⟩
      · rcases List.mem_cons.mp hc with rfl | hc
        · exact Nat.sub_pos_of_lt ho
        · rcases mem_chunksFromStart hc with rfl | rfl
          · exact hl.le
          · exact Nat.le_add_left 1 _
      · rw [List.map_cons, List.sum_cons, sum_chunksFromStart]
        omega
      · rw [List.head?_cons, Nat.min_eq_left (by omega)]
      · rcases mem_chunksFromStart hc with rfl | rfl <;> rfl
      · rw [List.tail_cons, dropLast_chunksFromStart] at hc
        rw [List.eq_of_mem_replicate hc]
      · have hceil : (m + 1 + (l - 1)) / l = m / l + 1 := by
          rw [show m + 1 + (l - 1) = m + l by omega, Nat.add_div_right m (by omega)]
        rw [List.length_cons, length_chunksFromStart, hceil, Nat.add_comm]
      · rw [List.getLast?_cons, getLast?_chunksFromStart] at hc
        obtain rfl := Option.some.inj hc
        have hend : o + n = m + 1 + l := by omega
        rw [hend, Nat.add_mod_right, Option.getD_some, Nat.zero_add, Nat.mod_add_mod]
  · rintro rfl
    obtain rfl : o = 0 := by omega
    exact chunks_of_single hn hf (cursorRunLength_one 0 n)

end Sys2Proof.Machine
end

section
/-! SUPPORT. The AW requests (44_address_window.md): what `addressWindow` answers, the extent conditions in the words of
R141, and the frame. -/

namespace Sys2Proof.Machine

/-! ### What `addressWindow` answers (R140) -/

/-- An AW request that covers no pixel is a no-op (R149). -/
theorem addressWindow_of_isEmpty {s : State} (h : s.latch.geometry.isEmpty = true) : addressWindow s = .next s := by
  simp [addressWindow, windowOf_empty s.cfg s.orientBase h]

/-- An AW request that covers a pixel, `inside` being its extent condition in any form: either it writes its ranges to
the window registers, or it is refused. -/
theorem addressWindow_of_not_isEmpty {s : State} {w : Window} {inside : Prop} [Decidable inside] {Q : State → Prop}
    (hne : s.latch.geometry.isEmpty = false) (hiff : s.latch.geometry.inExtent s.cfg = true ↔ inside)
    (hw : s.latch.geometry.ranges s.cfg s.orientBase = w) (hQ : inside → Q (s.setWindow w)) :
    if inside then ∃ t, addressWindow s = .next t ∧ Q t else addressWindow s = .refused .outOfExtent := by
  split_ifs with h
  · refine ⟨_, ?_, hQ h⟩
    simp [addressWindow, windowOf, hne, hiff.mpr h, hw]
  · have he : s.latch.geometry.inExtent s.cfg = false := Bool.eq_false_iff.mpr (mt hiff.mp h)
    simp [addressWindow, windowOf_outOfExtent s.orientBase hne he]

/-- The frame of an AW request that writes the window registers (10_state.md R30). -/
theorem unchangedExcept_accept_setWindow {s : State} {k : BitVec 2} {f : BitVec 3} {o : Operands} {w : Window} :
    UnchangedExcept [.latch, .window] s ((s.accept k f o).setWindow w) := by
  intro p hp
  cases p with
  | latch | window => simp at hp
  | stream => exact ⟨rfl, rfl, rfl, rfl⟩
  | colour => exact ⟨rfl, rfl, rfl, rfl, rfl⟩
  | run | offset => exact ⟨rfl, rfl⟩
  | memory => exact fun _ => rfl
  | _ => rfl

/-! ### The extent conditions (R141) -/

@[simp] theorem hasRH_flagIf (b : Bool) : hasRH (flagIf flagRH b) = b := by
  cases b <;> decide

theorem Geometry.isEmpty_hline {g : Geometry} (hk : g.kind = .hline) : g.isEmpty = decide (g.c = 0) := by
  simp [Geometry.isEmpty, hk]

theorem Geometry.isEmpty_hline_of_ne_zero {g : Geometry} (hk : g.kind = .hline) (hc : g.c ≠ 0) : g.isEmpty = false := by
  simp [Geometry.isEmpty_hline hk, hc]

theorem Geometry.inExtent_pixel_iff {p : Params} {g : Geometry} (hp : p.wf = true) (hk : g.kind = .pixel) :
    g.inExtent p = true ↔ g.x0 ≤ p.devWidth - 1 ∧ g.y0 ≤ p.devHeight - 1 := by
  obtain ⟨hw, -⟩ := Params.wf_width hp
  obtain ⟨hh, -⟩ := Params.wf_height hp
  simp only [Geometry.inExtent, hk, Bool.and_eq_true, decide_eq_true_eq]
  omega

theorem Geometry.inExtent_hline_iff {p : Params} {g : Geometry} (hp : p.wf = true) (hk : g.kind = .hline)
    (hf : hasRH g.flags = false) :
    g.inExtent p = true ↔ g.x0 + g.c - 1 ≤ p.devWidth - 1 ∧ g.y0 ≤ p.devHeight - 1 := by
  obtain ⟨hw, -⟩ := Params.wf_width hp
  obtain ⟨hh, -⟩ := Params.wf_height hp
  simp only [Geometry.inExtent, hk, hf, Bool.false_eq_true, if_false, Bool.and_eq_true, decide_eq_true_eq]
  omega

theorem Geometry.inExtent_hline_reversed_iff {p : Params} {g : Geometry} (hp : p.wf = true) (hk : g.kind = .hline)
    (hf : hasRH g.flags = true) :
    g.inExtent p = true ↔ g.x0 ≤ p.devWidth - 1 ∧ g.c - 1 ≤ g.x0 ∧ g.y0 ≤ p.devHeight - 1 := by
  obtain ⟨hw, -⟩ := Params.wf_width hp
  obtain ⟨hh, -⟩ := Params.wf_height hp
  simp only [Geometry.inExtent, hk, hf, if_true, Bool.and_eq_true, decide_eq_true_eq]
  omega

/-! ### The windows of a pixel and of a horizontal line (R142, R143) -/

theorem Half.toNat_eq_zero_iff {v : Half} : v.toNat = 0 ↔ v = 0 := BitVec.toNat_inj (x := v) (y := 0)

/-- An operand goes through the window function unchanged. -/
theorem half_ofNat_toNat (x : Half) : BitVec.ofNat 16 x.toNat = x := BitVec.eq_of_toNat_eq (toNat_half x.isLt)

theorem Geometry.ranges_hline {g : Geometry} (p : Params) (ob : Byte) (hk : g.kind = .hline)
    (hf : hasRH g.flags = false) :
    g.ranges p ob = windowOfRanges g.x0 (g.x0 + g.c - 1) g.y0 g.y0 0 ob := by
  simp [Geometry.ranges, hk, hf]

theorem Geometry.ranges_hline_reversed {g : Geometry} (p : Params) (ob : Byte) (hk : g.kind = .hline)
    (hf : hasRH g.flags = true) :
    g.ranges p ob =
      windowOfRanges (mirrorX p g.x0) (mirrorX p g.x0 + g.c - 1) g.y0 g.y0 flagRH (orientReverseH ob) := by
  simp [Geometry.ranges, hk, hf]

/-- Settles O26: a pixel is never empty, and its anchor is its window. -/
theorem awpixelCompletes : Obligations.AwpixelCompletes := by
  intro s x0 y0 hp
  refine addressWindow_of_not_isEmpty rfl (Geometry.inExtent_pixel_iff hp rfl) rfl fun _ => ?_
  have hx := half_ofNat_toNat x0
  have hy := half_ofNat_toNat y0
  exact ⟨hx, hx, hy, hy, rfl, rfl, rfl, ⟨rfl, rfl, rfl, rfl⟩, unchangedExcept_accept_setWindow⟩

/-- Settles O27: the empty line, the line from its anchor on, and the line from the mirrored anchor on, whose ends fit
their registers since the device's columns do. -/
theorem awhlineCompletes : Obligations.AwhlineCompletes := by
  intro s x0 y0 len hp
  obtain ⟨-, hw⟩ := Params.wf_width hp
  have hy := half_ofNat_toNat y0
  have hpos (hlen : len ≠ 0) : len.toNat ≠ 0 := mt Half.toNat_eq_zero_iff.mp hlen
  refine ⟨fun rev hlen => ⟨_, addressWindow_of_isEmpty ?_, unchangedExcept_latch rfl⟩, fun hlen => ?_, fun hlen => ?_⟩
  · rw [hlen]
    exact Geometry.isEmpty_hline rfl
  · refine addressWindow_of_not_isEmpty (Geometry.isEmpty_hline_of_ne_zero rfl (hpos hlen))
      (Geometry.inExtent_hline_iff hp rfl (hasRH_flagIf _))
      (Geometry.ranges_hline _ _ rfl (hasRH_flagIf _)) fun ⟨hx, _⟩ => ?_
    have hend : x0.toNat + len.toNat - 1 < 65536 := by omega
    exact ⟨half_ofNat_toNat x0, toNat_half hend, hy, hy, rfl, rfl, rfl, ⟨rfl, rfl, rfl, rfl⟩, rfl,
      unchangedExcept_accept_setWindow⟩
  · refine addressWindow_of_not_isEmpty (Geometry.isEmpty_hline_of_ne_zero rfl (hpos hlen))
      (Geometry.inExtent_hline_reversed_iff hp rfl (hasRH_flagIf _))
      (Geometry.ranges_hline_reversed _ _ rfl (hasRH_flagIf _)) fun ⟨hx, hback, _⟩ => ?_
    have hstart : s.cfg.devWidth - 1 - x0.toNat < 65536 := by omega
    have hend : s.cfg.devWidth - 1 - x0.toNat + len.toNat - 1 < 65536 := by omega
    exact ⟨toNat_half hstart, toNat_half hend, hy, hy, rfl, rfl, rfl, ⟨rfl, rfl, rfl, rfl⟩, rfl,
      unchangedExcept_accept_setWindow⟩

end Sys2Proof.Machine
end

section
/-! SUPPORT. What a draw request answers (45_stream_emitter.md R160 to R163): nothing, a refusal, or a stream; and the
state, the trace and the bytes a stream leaves (R166, R175, R178, R179). -/

namespace Sys2Proof.Machine

/-! ### The draw that does nothing and the draw that is refused (R161, R163) -/

theorem draw_of_noop {s : State} (h : drawCheck s = .noop) : draw s = .next s := by
  simp only [draw, h]

theorem draw_of_refuse {s : State} {e : Refusal} (h : drawCheck s = .refuse e) : draw s = .refused e := by
  simp only [draw, h]

/-- Settles O32: the tests of R160 come to a no-op before they look at the format, the geometry or the memory. -/
theorem voidDrawIsNoop : Obligations.VoidDrawIsNoop := by
  intro s i r hi hvoid
  obtain ⟨s0, hx, hs0, hnoop, -⟩ := exec_drawRequest_check s hi
  exact ⟨s0, hx.trans (draw_of_noop (hnoop hvoid)), unchangedExcept_latch hs0⟩

/-- Settles O34: each refusal is the first of the tests of R160 that fails. -/
theorem drawRefusalOrder : Obligations.DrawRefusalOrder := by
  intro s i r hi hb hl hn
  obtain ⟨s0, hx, -, -, -, -, hchecks, -⟩ := exec_drawRequest_check s hi
  have hcheck := hchecks hb hl hn
  refine ⟨fun hunset => ?_, fun bpp hbpp => ?_⟩
  · rw [hunset] at hcheck
    exact hx.trans (draw_of_refuse hcheck)
  · simp only [hbpp] at hcheck
    refine ⟨fun hout => ?_, fun hin => ⟨fun hover => ?_, fun hspace hsolid hlong => ?_⟩⟩
    · rw [hout, if_neg Bool.false_ne_true] at hcheck
      exact hx.trans (draw_of_refuse hcheck)
    · rw [if_pos hin, if_pos hover] at hcheck
      exact hx.trans (draw_of_refuse hcheck)
    · rw [if_pos hin, if_neg (not_le.mpr hspace), if_pos ⟨hsolid, hlong⟩] at hcheck
      exact hx.trans (draw_of_refuse hcheck)

/-- A draw request that completes and is neither void nor empty passes the tests of R160. -/
theorem exec_draw_passes {s t : State} {i : Instr} {r : DrawRequest} (hi : drawRequestOf i = some r)
    (hsome : ¬ (r.base = 0 ∨ r.l = 0 ∨ r.npix < 1)) (h : exec i s = .next t) : ∃ bpp, r.Passes s bpp := by
  obtain ⟨s0, hx, -, -, hgo, -, hchecks, -⟩ := exec_drawRequest_check s hi
  obtain ⟨hb, hl, hn⟩ := (not_or.trans (and_congr_right fun _ => not_or)).mp hsome
  cases hcheck : drawCheck s0 with
  | noop =>
    have htests := hcheck.symm.trans (hchecks hb hl (not_lt.mp hn))
    split at htests
    · cases htests
    · split_ifs at htests
  | refuse e => cases (hx.trans (draw_of_refuse hcheck)).symm.trans h
  | go bpp n w => exact ⟨bpp, (hgo bpp n w hcheck).1⟩

/-! ### What a draw that streams leaves (R179) -/

/-- The frame of a draw (10_state.md R30). -/
theorem unchangedExcept_draw {s t : State}
    (h : t = { s with
      latch := t.latch, draws := t.draws, npix := t.npix, remain := t.remain, curO := t.curO, win := t.win
      phase := t.phase, ovr := t.ovr, trace := t.trace, mem := t.mem, stage := t.stage
      written := { s.written with stream := t.written.stream, win := t.written.win } }) :
    UnchangedExcept [.latch, .window, .stream, .ovr, .phase, .stage, .memory, .trace] s t := by
  intro p hp
  cases p with
  | latch | window | stream | ovr | phase | stage | memory | trace => simp at hp
  | _ =>
    rw [h]
    simp [Part.Unchanged]

/-- The staging buffer that holds what the fast path sends keeps its size (R163, 10_state.md R33). -/
theorem DrawRequest.Passes.staged_length {r : DrawRequest} {s : State} {bpp : Nat} (h : r.Passes s bpp) :
    (if r.l.toNat = 1 then max s.cfg.stageSize (r.npix * bpp) else s.cfg.stageSize) = s.cfg.stageSize := by
  split_ifs with hl
  · have hfits := h.staging (Word.toNat_eq_one_iff.mp hl)
    have hbpp := Fmt.bpp_eq_some h.format
    exact max_eq_left (Nat.mul_le_mul hfits (by omega))
  · rfl

/-- A draw request that streams completes, and the state it leaves. -/
theorem exec_draw_drawn {s : State} {i : Instr} {r : DrawRequest} {bpp : Nat} (hp : s.cfg.wf = true) (ho : s.ovr = 0)
    (hi : drawRequestOf i = some r) (hs : r.Streams s bpp) :
    ∃ t bytes, exec i s = .next t ∧ r.Drawn s t bpp bytes := by
  obtain ⟨s0, hx, hs0, -, -, hgo, -, hkind, hflags, hx0, hy0, hb, hl, hoff, hc, hd, -⟩ := exec_drawRequest_check s hi
  have hn := hs.passes.npix_lt hp
  obtain ⟨s1, s2, bytes, hrun, -, hstage1, -, -, hst⟩ := runDraw_streams (s := s0) (r.window s.cfg s.orientBase)
    (by rw [hl]; exact hs.passes.cycle) (by rw [hs0]; exact ho) hn (by rw [hb, hl, hs0]; exact hs.readable)
  refine ⟨_, bytes, (hx.trans (draw_of_go (hgo bpp hs.passes))).trans hrun, ?_⟩
  have hlt := Nat.mod_lt (r.o.toNat + r.npix) (toNat_pos_of_ne_zero hs.passes.cycle)
  exact
    { idle := rfl
      reverted := by rw [hs0]; exact ho
      remain := rfl
      npix := toNat_word hn
      curO := by
        rw [hoff, hl]
        exact toNat_word (by have := r.l.isLt; omega)
      streamWritten := rfl
      win := rfl
      winWritten := rfl
      anchor := ⟨hkind, hflags, hx0, hy0⟩
      x1len := hc
      y1 := hd
      pattern := ⟨hb, hl, hoff⟩
      trace := by rw [hs0]
      count := hst.count
      stage := fun hfull => by
        have hlen := hst.stageLength
        rw [hstage1, hl, show s0.stage = s.stage by rw [hs0], hfull, hs.passes.staged_length] at hlen
        exact ⟨s2.draws, by rw [← hlen]⟩
      frame := unchangedExcept_draw (by rw [hs0]) }

/-- A draw that streams sends at least one byte. -/
theorem DrawRequest.Drawn.bytes_ne_nil {r : DrawRequest} {s t : State} {bpp : Nat} {bytes : List Byte}
    (h : r.Drawn s t bpp bytes) (hpass : r.Passes s bpp) : bytes ≠ [] := by
  have hbpp := Fmt.bpp_eq_some hpass.format
  exact List.ne_nil_of_length_pos (h.count ▸ Nat.mul_pos hpass.pixels (by omega))

/-- Settles O39: the state `runDraw` leaves, read register by register. -/
theorem drawEndsOk : Obligations.DrawEndsOk := fun _ _ _ _ hp ho hi hs => exec_draw_drawn hp ho hi hs

/-! ### What a draw that streams sends (R166, R178) -/

/-- Settles O40: in memory as it stood where no damaged byte is read, else pixel by pixel what the damage left. -/
theorem streamBytes_of_draw : Obligations.StreamBytes := by
  intro s t i r bpp hp ho hi hs ht
  obtain ⟨t', bytes, ht', hsent⟩ := exec_draw_sent hp ho hi hs
  obtain rfl : t' = t := Host.Outcome.next.inj (ht'.symm.trans ht)
  refine ⟨fun hintact => ?_, fun hbulk hdefect hl => ?_⟩
  · rw [← hsent.intact (by rwa [State.corrupting_eq_false_iff, or_assoc])]
    exact hsent.trace
  · obtain ⟨k, hk, hbytes, hleft⟩ := hsent.damaged ((State.corrupting_eq_true_iff s).mpr ⟨hbulk, hdefect⟩) hl
    exact ⟨k, hk, hbytes ▸ hsent.trace, hleft⟩

theorem traceBytes_append (t u : List Event) : traceBytes (t ++ u) = traceBytes t ++ traceBytes u :=
  List.filterMap_append

theorem traceBytes_map_dat (d : List Byte) : traceBytes (d.map .dat) = d := by
  simp [traceBytes, List.filterMap_map, Function.comp_def, eventByte]

theorem traceBytes_burst (d : List Byte) : traceBytes (burst d) = d := by
  have hinner : traceBytes (burst d) = traceBytes (d.map .dat ++ [.desel]) := rfl
  rw [hinner, traceBytes_append, traceBytes_map_dat]
  exact List.append_nil d

theorem traceBytes_packet (c : Byte) (payload : List Byte) : traceBytes (packet c payload) = c :: payload :=
  congrArg (c :: ·) (traceBytes_burst payload)

/-- The number of bytes of a draw's trace (R178). -/
theorem traceBytes_drawTrace_length (p : Params) (ob : Byte) (w : Window) (bytes : List Byte) :
    (traceBytes (drawTrace p ob w bytes)).length = (if w.ovr = 0 then 11 else 15) + bytes.length := by
  unfold drawTrace
  split_ifs
  · simp only [traceBytes_append, traceBytes_packet, traceBytes_burst, List.length_append, List.length_cons, be16]
    simp [traceBytes]
  · simp only [traceBytes_append, traceBytes_packet, traceBytes_burst, List.length_append, List.length_cons, be16]
    simp
    omega

theorem length_eq_of_mapM {α β : Type} {f : α → Option β} {l : List α} {m : List β} (h : l.mapM f = some m) :
    l.length = m.length := by
  induction l generalizing m with
  | nil =>
    obtain rfl := Option.some.inj h
    rfl
  | cons a l ih =>
    simp only [List.mapM_cons, Option.bind_eq_bind, Option.bind_eq_some_iff, Option.pure_def, Option.some.injEq] at h
    obtain ⟨b, -, m', hm', rfl⟩ := h
    rw [List.length_cons, List.length_cons, ih hm']

/-- Each packet of a trace is one bracket. -/
theorem brackets_length_of_packetsOfTrace {p : Params} {t : List Event} {is : List Instr}
    (h : packetsOfTrace p t = some is) : (brackets t).map List.length = some is.length := by
  obtain ⟨bs, hbs, his⟩ := Option.bind_eq_some_iff.mp h
  rw [hbs, Option.map_some, length_eq_of_mapM his]

theorem drawPackets_length (ob : Byte) (w : Window) (bytes : List Byte) :
    (drawPackets ob w bytes).length = if w.ovr = 0 then 4 else 6 := by
  unfold drawPackets
  split_ifs <;> rfl

/-- Settles O41: the bytes and the brackets of the trace of R178. -/
theorem drawByteCount : Obligations.DrawByteCount := by
  intro s i r bpp hp ho hi hs
  obtain ⟨t, bytes, ht, hdrawn⟩ := exec_draw_drawn hp ho hi hs
  have hbytes := traceBytes_drawTrace_length s.cfg s.orientBase (r.window s.cfg s.orientBase) bytes
  have hbrackets := brackets_length_of_packetsOfTrace
    (packetsOfTrace_drawTrace hp s.orientBase (r.window s.cfg s.orientBase) (hdrawn.bytes_ne_nil hs.passes))
  rw [hdrawn.count] at hbytes
  rw [drawPackets_length] at hbrackets
  refine ⟨t, _, ht, hdrawn.trace, ?_⟩
  split_ifs at hbytes hbrackets ⊢ with h
  · exact ⟨hbytes, hbrackets⟩
  · exact ⟨hbytes, hbrackets⟩

/-! ### The fast path sends what the general path sends (R175) -/

/-- Where the pixels of a pattern are equal, a stream is that pixel again and again. -/
theorem streamBytes_of_equal_pixels {m : Memory} {base : Word} {bpp l : Nat} (o n : Nat) (hl : 1 ≤ l)
    (h : ∀ k, k < l → pixelAt m base bpp k = pixelAt m base bpp 0) :
    streamBytes m base bpp l o n = (List.replicate n (pixelAt m base bpp 0)).flatten := by
  rw [streamBytes, List.flatMap_def, List.map_congr_left fun i _ => h _ (Nat.mod_lt _ hl)]
  simp [List.map_const']

/-- Settles O45: both draws send the one pixel `N` times, and each is void or empty where the other is. -/
theorem fastPathEquivalence : Obligations.FastPathEquivalence := by
  intro s t u i i' r l o' bpp hp ho hi hr1 hi' hbpp hl heq hread hintact ht hu
  have hr0 : r.l ≠ 0 := by
    rw [hr1]
    decide
  have hl0 : l ≠ 0 := by
    rintro rfl
    exact absurd hl (by decide)
  by_cases hnone : r.base = 0 ∨ r.npix < 1
  · obtain ⟨t', ht', hframe⟩ := voidDrawIsNoop s i r hi (hnone.imp_right .inr)
    obtain ⟨u', hu', hframe'⟩ := voidDrawIsNoop s i' _ hi' (hnone.imp_right .inr)
    obtain rfl : t' = t := Host.Outcome.next.inj (ht'.symm.trans ht)
    obtain rfl : u' = u := Host.Outcome.next.inj (hu'.symm.trans hu)
    exact (hframe .trace (by decide)).trans (hframe' .trace (by decide)).symm
  · obtain ⟨hb, hn⟩ := not_or.mp hnone
    obtain ⟨bpp1, hpass⟩ := exec_draw_passes hi (not_or.mpr ⟨hb, not_or.mpr ⟨hr0, hn⟩⟩) ht
    obtain ⟨bpp2, hpass'⟩ := exec_draw_passes hi' (not_or.mpr ⟨hb, not_or.mpr ⟨hl0, hn⟩⟩) hu
    obtain rfl : bpp1 = bpp := Option.some.inj (hpass.format.symm.trans hbpp)
    obtain rfl : bpp2 = bpp1 := Option.some.inj (hpass'.format.symm.trans hbpp)
    have hread1 : Readable s.mem r.base.toNat (r.l.toNat * bpp2) :=
      hread.sub (Nat.le_refl _) (Nat.add_le_add_left (Nat.mul_le_mul_right _ (by rw [hr1]; exact Nat.le_of_lt hl)) _)
    obtain ⟨t', bytes, ht', hsent⟩ := exec_draw_sent hp ho hi ⟨hpass, hread1⟩
    obtain ⟨u', bytes', hu', hsent'⟩ := exec_draw_sent hp ho hi' ⟨hpass', hread⟩
    obtain rfl : t' = t := Host.Outcome.next.inj (ht'.symm.trans ht)
    obtain rfl : u' = u := Host.Outcome.next.inj (hu'.symm.trans hu)
    have hbytes : bytes = (List.replicate r.npix (pixelAt s.mem r.base bpp2 0)).flatten := by
      rw [hsent.intact (.inr (.inl hr1)), DrawRequest.streamBytes, hr1]
      exact streamBytes_one ..
    have hbytes' : bytes' = (List.replicate r.npix (pixelAt s.mem r.base bpp2 0)).flatten := by
      rw [hsent'.intact ((or_assoc.mpr hintact).imp (State.corrupting_eq_false_iff s).mpr .inr),
        DrawRequest.streamBytes]
      exact streamBytes_of_equal_pixels _ _ (Nat.le_of_lt hl) heq
    rw [hsent.trace, hsent'.trace, hbytes, hbytes']
    rfl

end Sys2Proof.Machine
end

section
/-! SUPPORT. The request boundary (10_state.md R40) and the device's orientation there (44_address_window.md R148,
45_stream_emitter.md R169). -/

namespace Sys2Proof.Machine

/-! ### What every instruction leaves alone, or restores -/

theorem exec_windowRequest_base {i : Instr} {g : Geometry} {s t : State} (hi : windowRequestOf i = some g)
    (h : exec i s = .next t) :
    t.cfg = s.cfg ∧ t.orientBase = s.orientBase ∧ t.phase = s.phase ∧ t.ovr = s.ovr := by
  rcases exec_windowRequest_cases s hi with ⟨-, u, hu, hshape⟩ | ⟨-, hu⟩ | ⟨w, u, -, hu, hshape⟩
  · obtain rfl := Host.Outcome.next.inj (hu.symm.trans h)
    rw [hshape]
    exact ⟨rfl, rfl, rfl, rfl⟩
  · cases hu.symm.trans h
  · obtain rfl := Host.Outcome.next.inj (hu.symm.trans h)
    rw [hshape]
    exact ⟨rfl, rfl, rfl, rfl⟩

/-- An instruction that is no draw leaves the parameters, `ORIENT_BASE`, `PHASE` and `OVR` as they were
(10_state.md R30). -/
theorem exec_of_not_draw {i : Instr} {s t : State} (hi : drawRequestOf i = none) (h : exec i s = .next t) :
    t.cfg = s.cfg ∧ t.orientBase = s.orientBase ∧ t.phase = s.phase ∧ t.ovr = s.ovr := by
  cases i with
  | setfmt code =>
    simp only [exec, execSetfmt] at h
    split at h
    · cases h
    · obtain rfl := Host.Outcome.next.inj h
      exact ⟨rfl, rfl, rfl, rfl⟩
  | encode | enchsv =>
    obtain ⟨b0, b1, b2, n, rfl⟩ := encodeColour_eq_next h
    exact ⟨rfl, rfl, rfl, rfl⟩
  | curnorm l o =>
    simp only [exec, execCurnorm] at h
    split at h
    · cases h
    · obtain rfl := Host.Outcome.next.inj h
      exact ⟨rfl, rfl, rfl, rfl⟩
  | currun l o remaining =>
    simp only [exec, execCurrun] at h
    split at h
    · cases h
    · obtain rfl := Host.Outcome.next.inj h
      exact ⟨rfl, rfl, rfl, rfl⟩
  | awpixel | awhline | awvline | awfill => exact exec_windowRequest_base rfl h
  | drawpixel | drawhline | drawvline | drawfill => cases hi
  | data bytes =>
    simp only [exec, execData] at h
    split at h
    · cases h
    · obtain rfl := Host.Outcome.next.inj h
      exact ⟨rfl, rfl, rfl, rfl⟩
  | setxfer | caset | paset | madctl | ramwr | pixset =>
    obtain rfl := Host.Outcome.next.inj h
    exact ⟨rfl, rfl, rfl, rfl⟩

/-- A draw that completes did nothing, or it ended with step 8 (45_stream_emitter.md R169). -/
theorem draw_noop_or_closed {s t : State} (h : draw s = .next t) : t = s ∨ t.phase = .idle ∧ t.ovr = 0 := by
  unfold draw at h
  split at h
  · exact .inl (Host.Outcome.next.inj h).symm
  · cases h
  · unfold runDraw at h
    split at h
    · obtain rfl := Host.Outcome.next.inj h
      rw [closeBurst_eq]
      exact .inr ⟨rfl, rfl⟩
    · cases h
    · cases h

/-- Settles O53: a draw ends with step 8, and no other instruction touches `PHASE` or `OVR`. -/
theorem boundaryInvariant : Obligations.BoundaryInvariant := by
  refine ⟨fun p => ⟨rfl, rfl⟩, fun i s t hidle hovr h => ?_⟩
  cases hi : drawRequestOf i with
  | none =>
    obtain ⟨-, -, hphase, hrev⟩ := exec_of_not_draw hi h
    exact ⟨hphase.trans hidle, hrev.trans hovr⟩
  | some r =>
    obtain ⟨s0, hx, hs0, -⟩ := exec_drawRequest s hi
    rcases draw_noop_or_closed (hx.symm.trans h) with rfl | hclosed
    · rw [hs0]
      exact ⟨hidle, hovr⟩
    · exact hclosed

/-- Every instruction leaves the parameters and `ORIENT_BASE` as they were (10_state.md R23). -/
theorem exec_cfg_orientBase {i : Instr} {s t : State} (hp : s.cfg.wf = true) (ho : s.ovr = 0)
    (h : exec i s = .next t) : t.cfg = s.cfg ∧ t.orientBase = s.orientBase := by
  cases hi : drawRequestOf i with
  | none =>
    obtain ⟨hcfg, hbase, -, -⟩ := exec_of_not_draw hi h
    exact ⟨hcfg, hbase⟩
  | some r =>
    obtain ⟨s0, hx, hs0, -⟩ := exec_drawRequest s hi
    have hcfg : s0.cfg = s.cfg := by rw [hs0]
    have hbase : s0.orientBase = s.orientBase := by rw [hs0]
    rcases draw_eq_next (hcfg ▸ hp) (by rw [hs0]; exact ho) (hx.symm.trans h) with
      ⟨-, rfl⟩ | ⟨bpp, n, w, s1, s2, bytes, -, -, rfl, -⟩
    · exact ⟨hcfg, hbase⟩
    · exact ⟨hcfg, hbase⟩

/-! ### What a draw tells the device (45_stream_emitter.md R178) -/

/-- A draw without an override sends no MADCTL; with one, the last it sends is `ORIENT_BASE`. -/
theorem drawPackets_orient (ob : Byte) (w : Window) (bytes : List Byte) {d : DeviceView} (h : d.orient = some ob) :
    ((drawPackets ob w bytes).foldl DeviceView.after d).orient = some ob := by
  unfold drawPackets
  split_ifs
  · exact h
  · rfl

/-- A draw leaves the device's ranges at its window. -/
theorem drawPackets_ranges (ob : Byte) (w : Window) (bytes : List Byte) (d : DeviceView) :
    ((drawPackets ob w bytes).foldl DeviceView.after d).column = some (w.cs, w.ce) ∧
      ((drawPackets ob w bytes).foldl DeviceView.after d).row = some (w.rs, w.re) := by
  unfold drawPackets
  split_ifs
  · exact ⟨rfl, rfl⟩
  · exact ⟨rfl, rfl⟩

/-- Settles O57: only a draw sends MADCTL, and its last is the revert; and a draw that streams sends its window. -/
theorem orientationRestored : Obligations.OrientationRestored := by
  refine ⟨fun i s t v d hp ho hreq hd horient h => ?_, fun i s t r bpp v d hp ho hi hs hd h => ?_⟩
  · obtain ⟨es, is, ht, hes, hsent⟩ := packetsEmitted i s t hp ho hreq h
    obtain ⟨hcfg, hbase⟩ := exec_cfg_orientBase hp ho h
    rw [hcfg, hbase, ht]
    refine ⟨_, lastSent_append hd hes, ?_⟩
    split at hsent
    · split_ifs at hsent
      · rwa [hsent, List.foldl_nil]
      · obtain ⟨bytes, -, rfl⟩ := hsent
        exact drawPackets_orient _ _ _ horient
    · by_cases hset : ∃ code, i = .setfmt code
      · obtain ⟨code, hcode⟩ := hset
        obtain ⟨enc, -, rfl, -⟩ := hsent.1 code hcode
        exact horient
      · rwa [hsent.2 (not_exists.mp hset), List.foldl_nil]
  · obtain ⟨u, bytes, hu, hdrawn⟩ := exec_draw_drawn hp ho hi hs
    obtain rfl : u = t := Host.Outcome.next.inj (hu.symm.trans h)
    have hpackets := packetsOfTrace_drawTrace hp s.orientBase (r.window s.cfg s.orientBase)
      (hdrawn.bytes_ne_nil hs.passes)
    obtain ⟨hcol, hrow⟩ := drawPackets_ranges s.orientBase (r.window s.cfg s.orientBase) bytes d
    rw [(exec_cfg_orientBase hp ho h).1, hdrawn.trace, hdrawn.win]
    exact ⟨_, lastSent_append hd hpackets, hcol, hrow, drawPackets_format ..⟩

end Sys2Proof.Machine
end

section
/-! SUPPORT. The four draw requests, each in the words of its own rules (45_stream_emitter.md R171 to R174): its extent
condition, its window (44_address_window.md R141 to R147) and what it sends. -/

namespace Sys2Proof.Machine

/-! ### The bytes of a draw are what its trace says -/

theorem drawTrace_injective {p : Params} {ob : Byte} {w : Window} {bytes bytes' : List Byte}
    (h : drawTrace p ob w bytes = drawTrace p ob w bytes') : bytes = bytes' := by
  rw [drawTrace_eq, drawTrace_eq] at h
  have hdat := List.append_cancel_right (List.append_cancel_left h)
  exact List.map_injective_iff.mpr (fun _ _ => Event.dat.inj) hdat

/-- A draw request that streams completes, and all it leaves: the registers of R179, and the bytes of R166 and R177. -/
theorem exec_draw_drawn_sent {s : State} {i : Instr} {r : DrawRequest} {bpp : Nat} (hp : s.cfg.wf = true)
    (ho : s.ovr = 0) (hi : drawRequestOf i = some r) (hs : r.Streams s bpp) :
    ∃ t bytes, exec i s = .next t ∧ r.Drawn s t bpp bytes ∧ r.Sent s t bpp bytes := by
  obtain ⟨t, bytes, ht, hdrawn⟩ := exec_draw_drawn hp ho hi hs
  obtain ⟨t', bytes', ht', hsent⟩ := exec_draw_sent hp ho hi hs
  obtain rfl : t' = t := Host.Outcome.next.inj (ht'.symm.trans ht)
  obtain rfl : bytes' = bytes :=
    drawTrace_injective (List.append_cancel_left (hsent.trace.symm.trans hdrawn.trace))
  exact ⟨t', bytes', ht, hdrawn, hsent⟩

/-- R160 for a draw request whose length, extent condition and window are given in any form. -/
theorem drawMeaning_of_request {s : State} {i : Instr} {r : DrawRequest} {inside : Prop} {w : Window}
    (hp : s.cfg.wf = true) (ho : s.ovr = 0) (hi : drawRequestOf i = some r)
    (hin : 1 ≤ r.npix → (r.geometry.inExtent s.cfg = true ↔ inside)) (hw : r.window s.cfg s.orientBase = w) :
    DrawMeaning i r.base r.l r.o r.npix inside w s := by
  refine ⟨voidDrawIsNoop s i r hi, fun hb hl hn => ?_⟩
  obtain ⟨hunset, hrefused⟩ := drawRefusalOrder s i r hi hb hl hn
  refine ⟨hunset, fun bpp hbpp => ?_⟩
  obtain ⟨hout, hlimits⟩ := hrefused bpp hbpp
  have hiff := hin hn
  refine ⟨fun h => hout (Bool.eq_false_iff.mpr (mt hiff.mp h)), fun h hover => (hlimits (hiff.mpr h)).1 hover,
    fun h hspace => ⟨fun hlong => (hlimits (hiff.mpr h)).2 hspace hlong.1 hlong.2, fun hfits hread => ?_⟩⟩
  have hs : r.Streams s bpp :=
    { passes :=
        { present := hb, cycle := hl, pixels := hn, format := hbpp, extent := hiff.mpr h, space := by omega
          staging := fun hsolid => not_lt.mp fun hlong => hfits ⟨hsolid, hlong⟩ }
      readable := hread }
  obtain ⟨t, bytes, ht, hdrawn, hsent⟩ := exec_draw_drawn_sent hp ho hi hs
  subst hw
  refine ⟨t, bytes, ht, hdrawn.idle, hdrawn.reverted, hdrawn.npix, hdrawn.remain, hdrawn.curO, hdrawn.win,
    hdrawn.trace, hdrawn.count, fun hintact => ?_, fun hbulk hdefect hl1 => ?_⟩
  · exact hsent.intact (by rwa [State.corrupting_eq_false_iff, or_assoc])
  · exact hsent.damaged ((State.corrupting_eq_true_iff s).mpr ⟨hbulk, hdefect⟩) hl1

/-! ### The extent conditions and the windows of a vertical line and of a rectangle (44_address_window.md R141) -/

@[simp] theorem hasRV_flagIf (b : Bool) : hasRV (flagIf flagRV b) = b := by
  cases b <;> decide

@[simp] theorem hasTP_flagIf (b : Bool) : hasTP (flagIf flagTP b) = b := by
  cases b <;> decide

theorem Geometry.inExtent_vline_iff {p : Params} {g : Geometry} (hp : p.wf = true) (hk : g.kind = .vline)
    (hf : hasRV g.flags = false) :
    g.inExtent p = true ↔ g.x0 ≤ p.devWidth - 1 ∧ g.y0 + g.c - 1 ≤ p.devHeight - 1 := by
  obtain ⟨hw, -⟩ := Params.wf_width hp
  obtain ⟨hh, -⟩ := Params.wf_height hp
  simp only [Geometry.inExtent, hk, hf, Bool.false_eq_true, if_false, Bool.and_eq_true, decide_eq_true_eq]
  omega

theorem Geometry.inExtent_vline_reversed_iff {p : Params} {g : Geometry} (hp : p.wf = true) (hk : g.kind = .vline)
    (hf : hasRV g.flags = true) :
    g.inExtent p = true ↔ g.x0 ≤ p.devWidth - 1 ∧ g.y0 ≤ p.devHeight - 1 ∧ g.c - 1 ≤ g.y0 := by
  obtain ⟨hw, -⟩ := Params.wf_width hp
  obtain ⟨hh, -⟩ := Params.wf_height hp
  simp only [Geometry.inExtent, hk, hf, if_true, Bool.and_eq_true, decide_eq_true_eq]
  omega

theorem Geometry.ranges_vline {g : Geometry} (p : Params) (ob : Byte) (hk : g.kind = .vline)
    (hf : hasRV g.flags = false) :
    g.ranges p ob = windowOfRanges g.x0 g.x0 g.y0 (g.y0 + g.c - 1) 0 ob := by
  simp [Geometry.ranges, hk, hf]

theorem Geometry.ranges_vline_reversed {g : Geometry} (p : Params) (ob : Byte) (hk : g.kind = .vline)
    (hf : hasRV g.flags = true) :
    g.ranges p ob =
      windowOfRanges g.x0 g.x0 (mirrorY p g.y0) (mirrorY p g.y0 + g.c - 1) flagRV (orientReverseV ob) := by
  simp [Geometry.ranges, hk, hf]

/-- The extent condition of a rectangle whose corners are in order. -/
theorem Geometry.inExtent_fill_iff {p : Params} {g : Geometry} (hp : p.wf = true) (hk : g.kind = .fill)
    (hx : g.x0 ≤ g.c) (hy : g.y0 ≤ g.d) :
    g.inExtent p = true ↔ g.c ≤ p.devWidth - 1 ∧ g.d ≤ p.devHeight - 1 := by
  obtain ⟨hw, -⟩ := Params.wf_width hp
  obtain ⟨hh, -⟩ := Params.wf_height hp
  simp only [Geometry.inExtent, hk, Bool.and_eq_true, decide_eq_true_eq]
  omega

theorem Geometry.ranges_fill {g : Geometry} (p : Params) (ob : Byte) (hk : g.kind = .fill)
    (hf : hasTP g.flags = false) : g.ranges p ob = windowOfRanges g.x0 g.c g.y0 g.d 0 ob := by
  simp [Geometry.ranges, hk, hf]

theorem Geometry.ranges_fill_transposed {g : Geometry} (p : Params) (ob : Byte) (hk : g.kind = .fill)
    (hf : hasTP g.flags = true) :
    g.ranges p ob = windowOfRanges g.y0 g.d g.x0 g.c flagTP (orientTranspose p ob) := by
  simp [Geometry.ranges, hk, hf]

/-- A rectangle that covers a pixel has its corners in order (45_stream_emitter.md R162). -/
theorem Geometry.fill_ordered {g : Geometry} (hk : g.kind = .fill) (hn : 1 ≤ g.npix) : g.x0 ≤ g.c ∧ g.y0 ≤ g.d := by
  have hsome : ¬ (g.c < g.x0 ∨ g.d < g.y0) := fun h => by simp [Geometry.npix, hk, h] at hn
  omega

/-! ### The four draw requests -/

/-- Settles O35: a pixel's window is its anchor. -/
theorem drawpixelMeaning : Obligations.DrawpixelMeaning := by
  intro s x0 y0 base l o hp ho
  refine drawMeaning_of_request (i := .drawpixel x0 y0 base l o) hp ho rfl
    (fun _ => Geometry.inExtent_pixel_iff hp rfl) ?_
  simp [DrawRequest.window, DrawRequest.geometry, Geometry.ranges, windowOfRanges]

/-- Settles O36: a line's window is its columns on its row; reversed, its columns are mirrored. -/
theorem drawhlineMeaning : Obligations.DrawhlineMeaning := by
  intro s x0 y0 len base l o hp ho
  constructor
  · refine drawMeaning_of_request (i := .drawhline x0 y0 len base l o false) hp ho rfl
      (fun _ => Geometry.inExtent_hline_iff hp rfl (hasRH_flagIf _)) ?_
    refine (Geometry.ranges_hline _ _ rfl (hasRH_flagIf _)).trans ?_
    simp [windowOfRanges, DrawRequest.geometry]
  · refine drawMeaning_of_request (i := .drawhline x0 y0 len base l o true) hp ho rfl
      (fun _ => Geometry.inExtent_hline_reversed_iff hp rfl (hasRH_flagIf _)) ?_
    refine (Geometry.ranges_hline_reversed _ _ rfl (hasRH_flagIf _)).trans ?_
    simp [windowOfRanges, DrawRequest.geometry, mirrorX, flagRH, orientReverseH]

/-- Settles O37: a line's window is its rows on its column; reversed, its rows are mirrored. -/
theorem drawvlineMeaning : Obligations.DrawvlineMeaning := by
  intro s x0 y0 len base l o hp ho
  constructor
  · refine drawMeaning_of_request (i := .drawvline x0 y0 len base l o false) hp ho rfl
      (fun _ => Geometry.inExtent_vline_iff hp rfl (hasRV_flagIf _)) ?_
    refine (Geometry.ranges_vline _ _ rfl (hasRV_flagIf _)).trans ?_
    simp [windowOfRanges, DrawRequest.geometry]
  · refine drawMeaning_of_request (i := .drawvline x0 y0 len base l o true) hp ho rfl
      (fun _ => Geometry.inExtent_vline_reversed_iff hp rfl (hasRV_flagIf _)) ?_
    refine (Geometry.ranges_vline_reversed _ _ rfl (hasRV_flagIf _)).trans ?_
    simp [windowOfRanges, DrawRequest.geometry, mirrorY, flagRV, orientReverseV]

/-- Settles O38: a rectangle's window is its corners; transposed, its columns and rows are exchanged. -/
theorem drawfillMeaning : Obligations.DrawfillMeaning := by
  intro s x0 y0 x1 y1 base l o hp ho
  constructor
  · refine drawMeaning_of_request (i := .drawfill x0 y0 x1 y1 base l o false) hp ho rfl (fun hn => ?_) ?_
    · obtain ⟨hx, hy⟩ := Geometry.fill_ordered rfl hn
      exact Geometry.inExtent_fill_iff hp rfl hx hy
    · refine (Geometry.ranges_fill _ _ rfl (hasTP_flagIf _)).trans ?_
      simp [windowOfRanges, DrawRequest.geometry]
  · refine drawMeaning_of_request (i := .drawfill x0 y0 x1 y1 base l o true) hp ho rfl (fun hn => ?_) ?_
    · obtain ⟨hx, hy⟩ := Geometry.fill_ordered rfl hn
      exact Geometry.inExtent_fill_iff hp rfl hx hy
    · refine (Geometry.ranges_fill_transposed _ _ rfl (hasTP_flagIf _)).trans ?_
      simp [windowOfRanges, DrawRequest.geometry, flagTP, orientTranspose]

end Sys2Proof.Machine
end

section
/-! SUPPORT. The state machine of 45_stream_emitter.md R170, one transition a step (log 2): what each transition emits,
and that the transitions of a draw come to the state the draw leaves. -/

namespace Sys2Proof.Machine

/-! ### One transition (R170) -/

/-- With no input from the host a step is a transition of the draw in progress (log 2). -/
theorem step_of_no_input {s : State} (h : s.inbox = []) : step s = phaseStep s := by
  simp [step, runInput, h]

theorem phaseStep_idle {s : State} (h : s.phase = .idle) : phaseStep s = .next s := by
  simp [phaseStep, h]

theorem phaseStep_windowProgrammed {s : State} (h : s.phase = .windowProgrammed) : phaseStep s = .next s.armRam := by
  simp [phaseStep, h]

theorem phaseStep_ramArmed {s : State} (h : s.phase = .ramArmed) : phaseStep s = .next s.openBurst := by
  simp [phaseStep, h]

theorem phaseStep_streaming_done {s : State} (h : s.phase = .streaming) (hr : s.remain = 0) :
    phaseStep s = .next s.closeBurst := by
  simp only [phaseStep, h, hr, if_true]

theorem phaseStep_streaming {s : State} {bpp : Nat} (h : s.phase = .streaming) (hr : s.remain ≠ 0)
    (ho : s.curO.toNat < s.latch.l.toNat) (hb : s.fmt.bpp = some bpp) :
    phaseStep s = if s.latch.l = 1 then fastPath bpp s else transferChunk bpp s := by
  simp only [phaseStep, h, hb, if_neg hr, if_neg (not_le.mpr ho)]

/-- In a pattern of one pixel the cursor stands at it. -/
theorem curO_eq_zero_of_solid {s : State} (hl : s.latch.l = 1) (ho : s.curO.toNat < s.latch.l.toNat) : s.curO = 0 := by
  rw [Word.toNat_eq_one_iff.mpr hl, Nat.lt_one_iff] at ho
  exact BitVec.eq_of_toNat_eq ho

theorem State.applyOverride_of_zero {s : State} (h : s.win.ovr = 0) : s.applyOverride = s := if_pos h

theorem State.applyOverride_of_ne_zero {s : State} (h : s.win.ovr ≠ 0) :
    s.applyOverride = { s.sendMadctl s.win.orient with ovr := s.win.ovr } := if_neg h

/-- Step 2 with the events it emits (R165). -/
theorem beginDraw_emits (s : State) (n : Nat) (w : Window) (ho : s.ovr = 0) :
    (s.beginDraw n w).phase = .windowProgrammed ∧
    (s.beginDraw n w).trace = s.trace ++ (if w.ovr = 0 then [] else packet s.cfg.cmdMadctl [w.orient]) ++
      packet s.cfg.cmdCaset (be16 w.cs ++ be16 w.ce) ++ packet s.cfg.cmdPaset (be16 w.rs ++ be16 w.re) ∧
    (s.beginDraw n w).ovr = w.ovr := by
  unfold State.beginDraw State.programWindow
  by_cases h : w.ovr = 0
  · rw [State.applyOverride_of_zero (s := (s.loadStream n).setWindow w) h, if_pos h]
    exact ⟨rfl, by simp, ho.trans h.symm⟩
  · rw [State.applyOverride_of_ne_zero (s := (s.loadStream n).setWindow w) h, if_neg h]
    exact ⟨rfl, by simp, rfl⟩

/-- One transfer of the state machine (R167, R168): its events, and what remains. -/
theorem phaseStep_transfers {s : State} {bpp : Nat} (h : s.phase = .streaming) (hr : s.remain ≠ 0)
    (ho : s.curO.toNat < s.latch.l.toNat) (hb : s.fmt.bpp = some bpp)
    (hread : Readable s.mem s.latch.base.toNat (s.latch.l.toNat * bpp)) (hn : s.latch.l = 1 → s.npix = s.remain) :
    ∃ t, ∃ bytes : List Byte, phaseStep s = .next t ∧ t.phase = .streaming ∧
      t.trace = s.trace ++ bytes.map Event.dat ∧
      bytes.length = cursorRunLength s.latch.l.toNat s.curO.toNat s.remain.toNat * bpp ∧
      t.remain.toNat = s.remain.toNat - cursorRunLength s.latch.l.toNat s.curO.toNat s.remain.toNat := by
  rw [phaseStep_streaming h hr ho hb]
  split_ifs with hl
  · have hl1 : s.latch.l.toNat = 1 := Word.toNat_eq_one_iff.mpr hl
    have ho0 := curO_eq_zero_of_solid hl ho
    obtain ⟨t, bytes, hgo, hst⟩ := fastPath_streams (bpp := bpp) ho0 (by rwa [hl1] at hread)
    rw [hl1, cursorRunLength_one, Nat.sub_self, ← hn hl]
    refine ⟨t, bytes, hgo, ?_, ?_, hst.count, ?_⟩
    · rw [hst.shape]
      exact h
    · rw [hst.shape]
    · rw [hst.shape]
      rfl
  · have hl2 : 2 ≤ s.latch.l.toNat := by
      have := mt Word.toNat_eq_one_iff.mp hl
      omega
    obtain ⟨bytes, hlen, hgo⟩ := transferChunk_eq_next (transferChunk_next hl2 ho hread)
    refine ⟨_, bytes, transferChunk_next hl2 ho hread, ?_⟩
    rw [hgo, transferSource_shape]
    exact ⟨h, rfl, hlen, toNat_word (by have := s.remain.isLt; omega)⟩

/-- Settles O46: each phase's transition is an equation of `phaseStep`, and the first is `beginDraw`. -/
theorem phaseTransitions : Obligations.PhaseTransitions := by
  refine ⟨fun s hin h => ?_, beginDraw_emits, fun s hin h => ?_, fun s hin h => ?_,
    fun s bpp hin h hr ho hb hread hn => ?_, fun s hin h hr => ?_⟩
  · exact (step_of_no_input hin).trans (phaseStep_idle h)
  · exact ⟨_, (step_of_no_input hin).trans (phaseStep_windowProgrammed h), rfl, rfl⟩
  · exact ⟨_, (step_of_no_input hin).trans (phaseStep_ramArmed h), rfl, rfl⟩
  · rw [step_of_no_input hin]
    exact phaseStep_transfers h hr ho hb hread hn
  · refine ⟨_, (step_of_no_input hin).trans (phaseStep_streaming_done h hr), ?_⟩
    rw [closeBurst_eq]
    exact ⟨rfl, rfl, by simp [drawFooter]⟩

/-! ### Several transitions -/

/-- `t` is reached from `s` by some number of steps. -/
def Reaches (s t : State) : Prop := ∃ k, stepMany k s = .next t

theorem Reaches.refl (s : State) : Reaches s s := ⟨0, rfl⟩

theorem Reaches.head {s t u : State} (h : step s = .next t) (htu : Reaches t u) : Reaches s u := by
  obtain ⟨k, hk⟩ := htu
  exact ⟨k + 1, by simp only [stepMany, h, hk]⟩

theorem Reaches.trans {s t u : State} (hst : Reaches s t) (htu : Reaches t u) : Reaches s u := by
  obtain ⟨k, hk⟩ := hst
  induction k generalizing s with
  | zero =>
    obtain rfl := Host.Outcome.next.inj hk
    exact htu
  | succ k ih =>
    simp only [stepMany] at hk
    split at hk
    · rename_i v hv
      exact .head hv (ih hk)
    · cases hk
    · cases hk

/-- A draw in progress is in its stream, the host silent: the state in which a transition sends a transfer. -/
structure State.MidStream (s : State) (bpp : Nat) : Prop where
  silent : s.inbox = []
  phase : s.phase = .streaming
  format : s.fmt.bpp = some bpp
  cursor : s.curO.toNat < s.latch.l.toNat

/-- A chunk leaves the draw in its stream, and fewer pixels remain. -/
theorem State.MidStream.chunk {s t : State} {bpp : Nat} (hs : s.MidStream bpp) (hr : s.remain ≠ 0)
    (h : transferChunk bpp s = .next t) :
    t.MidStream bpp ∧ t.latch = s.latch ∧ t.remain.toNat < s.remain.toNat := by
  obtain ⟨bytes, -, rfl⟩ := transferChunk_eq_next h
  have hpos := cursorRunLength_pos hs.cursor (toNat_pos_of_ne_zero hr)
  have hle := cursorRunLength_le s.latch.l.toNat s.curO.toNat s.remain.toNat
  have hnext : cursorRunNext s.latch.l.toNat s.curO.toNat s.remain.toNat < s.latch.l.toNat :=
    cursorRunNext_lt (by have := hs.cursor; omega)
  rw [transferSource_shape]
  refine ⟨⟨hs.silent, hs.phase, hs.format, ?_⟩, rfl, ?_⟩
  · show BitVec.toNat _ < _
    rw [toNat_word (by have := s.latch.l.isLt; omega)]
    exact hnext
  · show BitVec.toNat _ < _
    rw [toNat_word (by have := s.remain.isLt; omega)]
    omega

/-- The general path is a sequence of transitions. -/
theorem generalPath_reaches {bpp : Nat} {t : State} (fuel : Nat) {s : State} (hs : s.MidStream bpp)
    (hl : s.latch.l ≠ 1) (hf : s.remain.toNat ≤ fuel) (h : generalPath bpp fuel s = .next t) :
    Reaches s t ∧ t.MidStream bpp ∧ t.remain = 0 := by
  induction fuel generalizing s with
  | zero =>
    obtain rfl := Host.Outcome.next.inj h
    exact ⟨.refl s, hs, BitVec.eq_of_toNat_eq (by simpa using hf)⟩
  | succ fuel ih =>
    rw [generalPath] at h
    split_ifs at h with hr
    · obtain rfl := Host.Outcome.next.inj h
      exact ⟨.refl s, hs, hr⟩
    · split at h
      · rename_i u hu
        obtain ⟨hmid, hlatch, hlt⟩ := hs.chunk hr hu
        obtain ⟨hreach, hend⟩ := ih hmid (hlatch ▸ hl) (by omega) h
        have hstep : step s = .next u := by
          rw [step_of_no_input hs.silent, phaseStep_streaming hs.phase hr hs.cursor hs.format, if_neg hl, hu]
        exact ⟨.head hstep hreach, hend⟩
      · cases h
      · cases h

/-- Steps 5 to 7 are a sequence of transitions. -/
theorem stream_reaches {bpp : Nat} {s t : State} (hs : s.MidStream bpp) (hr : s.remain ≠ 0)
    (h : stream bpp s = .next t) : Reaches s t ∧ t.inbox = [] ∧ t.phase = .streaming ∧ t.remain = 0 := by
  unfold stream at h
  split_ifs at h with hl
  · obtain ⟨bytes, hadv⟩ := fastPath_eq_next (curO_eq_zero_of_solid hl hs.cursor) h
    have hstep : step s = .next t := by
      rw [step_of_no_input hs.silent, phaseStep_streaming hs.phase hr hs.cursor hs.format, if_pos hl, h]
    refine ⟨.head hstep (.refl t), ?_⟩
    rw [hadv.shape]
    exact ⟨hs.silent, hs.phase, rfl⟩
  · obtain ⟨hreach, hmid, hdone⟩ := generalPath_reaches _ hs hl (Nat.le_refl _) h
    exact ⟨hreach, hmid.silent, hmid.phase, hdone⟩

/-- Steps 3 and 4 are a transition each. -/
theorem reaches_of_openBurst {s t : State} (hin : s.inbox = []) (h : s.phase = .windowProgrammed)
    (ht : Reaches s.armRam.openBurst t) : Reaches s t :=
  .head ((step_of_no_input hin).trans (phaseStep_windowProgrammed h))
    (.head ((step_of_no_input (s := s.armRam) hin).trans (phaseStep_ramArmed s.armRam_phase)) ht)

/-- Step 8 is one transition. -/
theorem reaches_closeBurst {s : State} (hin : s.inbox = []) (h : s.phase = .streaming) (hr : s.remain = 0) :
    Reaches s s.closeBurst :=
  .head ((step_of_no_input hin).trans (phaseStep_streaming_done h hr)) (.refl _)

/-- Steps 1 to 4 bring a draw into its stream. -/
theorem midStream_openBurst {s : State} {bpp n : Nat} (w : Window) (hin : s.inbox = []) (ho : s.ovr = 0)
    (hl : s.latch.l ≠ 0) (hb : s.fmt.bpp = some bpp) (hn : n ≠ 0) (hlt : n < 2 ^ 32) :
    (s.beginDraw n w).armRam.openBurst.MidStream bpp ∧ (s.beginDraw n w).armRam.openBurst.remain ≠ 0 := by
  have hcur := cursorNorm_lt s.latch.oreq.toNat (toNat_pos_of_ne_zero hl)
  rw [beginDraw_openBurst s n w ho]
  refine ⟨⟨hin, rfl, hb, ?_⟩, fun h => hn ?_⟩
  · show BitVec.toNat _ < _
    rwa [toNat_word (by have := s.latch.l.isLt; omega)]
  · rw [← toNat_word hlt]
    exact congrArg BitVec.toNat h

/-- Settles O47: steps 2 to 4, the stream and step 8 are each a transition or a sequence of them. -/
theorem smallStepsReachTheDraw : Obligations.SmallStepsReachTheDraw := by
  intro s t bpp n w hin hp ho hgo h
  obtain ⟨-, hl, rfl, hn1, hbpp, hx, -⟩ := drawCheck_go hgo
  rw [draw_of_go hgo, runDraw] at h
  split at h
  · rename_i u hu
    obtain rfl := Host.Outcome.next.inj h
    obtain ⟨hphase, -, -⟩ := beginDraw_emits s s.latch.geometry.npix w ho
    obtain ⟨hmid, hremain⟩ := midStream_openBurst (n := s.latch.geometry.npix) w hin ho hl hbpp (by omega)
      (Nat.lt_of_le_of_lt (Geometry.npix_le hp hx) (Params.wf_area hp))
    obtain ⟨hstream, hsilent, hphase', hdone⟩ := stream_reaches hmid hremain hu
    have hbegin := hmid.silent
    rw [State.openBurst_inbox, State.armRam_inbox] at hbegin
    exact reaches_of_openBurst hbegin hphase (hstream.trans (reaches_closeBurst hsilent hphase' hdone))
  · cases h
  · cases h

end Sys2Proof.Machine
end

section
/-! SUPPORT. Decoder and encoder as inverses (30_encoding.md part 1, part 2): what is encoded is decoded, and what the
decoder accepts is well formed and, as a bracket, nothing but its encoding. -/

namespace Sys2Proof

open Machine

/-! ### What is encoded is decoded -/

/-- Settles O4: the round trip of each of the twenty instructions. -/
theorem decodeEncode : Obligations.DecodeEncode := by
  intro p i hp hwf
  cases i with
  | setfmt code => exact Laws.RoundTrip.setfmt code p hp hwf
  | setxfer bulk => exact Laws.RoundTrip.setxfer bulk p hp hwf
  | encode r g b => exact Laws.RoundTrip.encode r g b p hp hwf
  | enchsv hue sat val => exact Laws.RoundTrip.enchsv hue sat val p hp hwf
  | curnorm l o => exact Laws.RoundTrip.curnorm l o p hp hwf
  | currun l o remaining => exact Laws.RoundTrip.currun l o remaining p hp hwf
  | awpixel x0 y0 => exact Laws.RoundTrip.awpixel x0 y0 p hp hwf
  | awhline x0 y0 len rev => exact Laws.RoundTrip.awhline x0 y0 len rev p hp hwf
  | awvline x0 y0 len rev => exact Laws.RoundTrip.awvline x0 y0 len rev p hp hwf
  | awfill x0 y0 x1 y1 xpose => exact Laws.RoundTrip.awfill x0 y0 x1 y1 xpose p hp hwf
  | drawpixel x0 y0 base l o => exact Laws.RoundTrip.drawpixel x0 y0 base l o p hp hwf
  | drawhline x0 y0 len base l o rev => exact Laws.RoundTrip.drawhline x0 y0 len base l o rev p hp hwf
  | drawvline x0 y0 len base l o rev => exact Laws.RoundTrip.drawvline x0 y0 len base l o rev p hp hwf
  | drawfill x0 y0 x1 y1 base l o xpose => exact Laws.RoundTrip.drawfill x0 y0 x1 y1 base l o xpose p hp hwf
  | caset first last => exact Laws.RoundTrip.caset first last p hp hwf
  | paset first last => exact Laws.RoundTrip.paset first last p hp hwf
  | madctl orient => exact Laws.RoundTrip.madctl orient p hp hwf
  | ramwr => exact Laws.RoundTrip.ramwr p hp hwf
  | data bytes => exact Laws.RoundTrip.data bytes p hp hwf
  | pixset enc => exact Laws.RoundTrip.pixset enc p hp hwf

/-- Settles O10: the six words are evaluated. -/
theorem encodingWords : Obligations.EncodingWords := ⟨rfl, rfl, rfl, rfl, rfl, rfl⟩

/-! ### What the decoder accepts (R80 to R97) -/

/-- A sequence of events that decodes is the one bracket its packet encodes to. -/
theorem decodeBracket_eq_ok {p : Params} {events : List Event} {i : Instr} (h : decodeBracket p events = .ok i) :
    i.IsPacket ∧ encode p i = .bracket events := by
  unfold decodeBracket at h
  split at h
  · rename_i inner hb
    obtain ⟨hpacket, henc⟩ := decodeInner_eq_ok h
    refine ⟨hpacket, henc.trans (congrArg Wire.bracket ?_)⟩
    simpa using (brackets_events hb).symm
  · cases h

/-- Settles O5: a bracket is decoded from its inner events, and these are the packet's. -/
theorem bracketIsItsEncoding : Obligations.BracketIsItsEncoding := by
  intro p events i h
  obtain ⟨⟨-, hreq⟩, henc⟩ := decodeBracket_eq_ok h
  exact ⟨hreq, henc⟩

theorem Opcode.request_isRequest (f : Fields) (op : Opcode) : (op.request f).isRequest = true := by
  cases op <;> rfl

/-- A request whose operands are not refused is well formed: only SETFMT's code can be otherwise (R87). -/
theorem Opcode.request_wf {f : Fields} {op : Opcode} (h : ¬ op.RefusesOperands f) : (op.request f).wf = true := by
  cases op with
  | setfmt =>
    have ha : f.a = 1 ∨ f.a = 2 := by rwa [Opcode.RefusesOperands, ← not_or, not_not] at h
    exact decide_eq_true ((setfmt_operand_iff f.a).mp ha).2
  | _ => rfl

/-- The operand checks accept only what is not refused, and give the request. -/
theorem instrOfFields_eq_ok {f : Fields} {op : Opcode} {i : Instr} (h : instrOfFields op f = .ok i) :
    ¬ op.RefusesOperands f ∧ i = op.request f := by
  by_cases hr : op.RefusesOperands f
  · obtain ⟨r, -, herr⟩ := instrOfFields_refused hr
    cases herr.symm.trans h
  · exact ⟨hr, Except.ok.inj (h.symm.trans (instrOfFields_accepted hr))⟩

/-- A descriptor that decodes has 22 bytes (R80) and stands for a well-formed request. -/
theorem decodeDescriptor_eq_ok {bytes : List Byte} {i : Instr} (h : decodeDescriptor bytes = .ok i) :
    bytes.length = 22 ∧ i.wf = true ∧ i.isRequest = true := by
  unfold decodeDescriptor at h
  split at h
  · cases h
  · rename_i f hf
    split at h
    · cases h
    · obtain ⟨haccepted, rfl⟩ := instrOfFields_eq_ok h
      exact ⟨(fieldsOfBytes_isSome_iff bytes).mp (hf ▸ rfl), Opcode.request_wf haccepted,
        Opcode.request_isRequest ..⟩

/-- Settles O6: a descriptor gives a well-formed request, a bracket a packet. -/
theorem decodedIsWellFormed : Obligations.DecodedIsWellFormed := by
  intro p w i h
  cases w with
  | descriptor bytes =>
    obtain ⟨hlen, hwf, hreq⟩ := decodeDescriptor_eq_ok h
    refine ⟨hwf, fun bytes' heq => ?_⟩
    obtain rfl := Wire.descriptor.inj heq
    exact ⟨hlen, hreq⟩
  | bracket events =>
    obtain ⟨⟨hwf, -⟩, -⟩ := decodeBracket_eq_ok h
    exact ⟨hwf, nofun⟩

/-! ### The opcode map (R84, R86) -/

/-- A value that matches a row has that row's `OP` byte. -/
theorem hi_eq_of_matches {v : Half} {r : OpcodeRow} (hr : r ∈ opcodeMap) (h : v &&& r.mask = r.pattern) :
    hi v = r.op.code := by
  rw [← join16_be16 v] at h
  exact ((opcodeMap_matches hr).mp (beq_iff_eq.mpr h)).1

theorem opcodeMap_pairwise_ne : opcodeMap.Pairwise fun a b => a.op ≠ b.op := by decide

/-- Settles O9: a value has one `OP` byte, and the rows have different ones. -/
theorem opcodeRowsDisjoint : Obligations.OpcodeRowsDisjoint := by
  refine opcodeMap_pairwise_ne.imp_of_mem fun ha hb hne v ⟨hva, hvb⟩ => hne ?_
  exact Opcode.code_injective ((hi_eq_of_matches ha hva).symm.trans (hi_eq_of_matches hb hvb))

/-! ### A step that is handed an encoded instruction (R86) -/

/-- Settles O12: an idle engine takes what is presented, by hand or by `withFetchWord`, decodes it and runs it. -/
theorem stepRunsDecoded : Obligations.StepRunsDecoded := by
  refine ⟨fun s w rest i => step_of_decode_ok, fun s nbits w i hidle hdec => ?_⟩
  exact step_of_decode_ok (s := s.withFetchWord nbits w) hidle rfl hdec

/-- Settles O13: re-entry is tested before anything is decoded. -/
theorem reentryRefused : Obligations.ReentryRefused := fun _ _ _ => step_of_busy

end Sys2Proof
end

section
/-! SUPPORT. Window requests, continued (44_address_window.md): AWVLINE and AWFILL, the window function's ranges, and
the bits of its orientation byte; and the length of a draw request (45_stream_emitter.md R162). -/

namespace Sys2Proof.Machine

/-! ### AWVLINE and AWFILL (R144, R145) -/

theorem Geometry.isEmpty_vline {g : Geometry} (hk : g.kind = .vline) : g.isEmpty = decide (g.c = 0) := by
  simp [Geometry.isEmpty, hk]

theorem Geometry.isEmpty_fill {g : Geometry} (hk : g.kind = .fill) :
    g.isEmpty = (decide (g.c < g.x0) || decide (g.d < g.y0)) := by
  simp [Geometry.isEmpty, hk]

/-- Settles O28: the empty line, the line from its anchor on, and the line from the mirrored anchor on, whose ends fit
their registers since the device's rows do. -/
theorem awvlineCompletes : Obligations.AwvlineCompletes := by
  intro s x0 y0 len hp
  obtain ⟨-, hh⟩ := Params.wf_height hp
  have hx := half_ofNat_toNat x0
  have hpos (hlen : len ≠ 0) : decide (len.toNat = 0) = false := decide_eq_false (mt Half.toNat_eq_zero_iff.mp hlen)
  refine ⟨fun rev hlen => ⟨_, addressWindow_of_isEmpty ?_, unchangedExcept_latch rfl⟩, fun hlen => ?_, fun hlen => ?_⟩
  · rw [hlen]
    exact Geometry.isEmpty_vline rfl
  · refine addressWindow_of_not_isEmpty ((Geometry.isEmpty_vline rfl).trans (hpos hlen))
      (Geometry.inExtent_vline_iff hp rfl (hasRV_flagIf _))
      (Geometry.ranges_vline _ _ rfl (hasRV_flagIf _)) fun ⟨_, hy⟩ => ?_
    have hend : y0.toNat + len.toNat - 1 < 65536 := by omega
    exact ⟨hx, hx, half_ofNat_toNat y0, toNat_half hend, rfl, rfl, rfl, ⟨rfl, rfl, rfl, rfl⟩, rfl,
      unchangedExcept_accept_setWindow⟩
  · refine addressWindow_of_not_isEmpty ((Geometry.isEmpty_vline rfl).trans (hpos hlen))
      (Geometry.inExtent_vline_reversed_iff hp rfl (hasRV_flagIf _))
      (Geometry.ranges_vline_reversed _ _ rfl (hasRV_flagIf _)) fun ⟨_, hy, hback⟩ => ?_
    have hstart : s.cfg.devHeight - 1 - y0.toNat < 65536 := by omega
    have hend : s.cfg.devHeight - 1 - y0.toNat + len.toNat - 1 < 65536 := by omega
    exact ⟨hx, hx, toNat_half hstart, toNat_half hend, rfl, rfl, rfl, ⟨rfl, rfl, rfl, rfl⟩, rfl,
      unchangedExcept_accept_setWindow⟩

theorem Geometry.isEmpty_fill_of_ordered {g : Geometry} (hk : g.kind = .fill) (hx : g.x0 ≤ g.c) (hy : g.y0 ≤ g.d) :
    g.isEmpty = false := by
  simp [Geometry.isEmpty_fill hk, hx, hy]

theorem addressWindow_of_inExtent {s : State} {w : Window} (hne : s.latch.geometry.isEmpty = false)
    (hin : s.latch.geometry.inExtent s.cfg = true) (hw : s.latch.geometry.ranges s.cfg s.orientBase = w) :
    addressWindow s = .next (s.setWindow w) := by
  simp [addressWindow, windowOf, hne, hin, hw]

theorem addressWindow_of_not_inExtent {s : State} (hne : s.latch.geometry.isEmpty = false)
    (hout : ¬ s.latch.geometry.inExtent s.cfg = true) : addressWindow s = .refused .outOfExtent := by
  simp [addressWindow, windowOf, hne, hout]

/-- Settles O29: the inverted rectangle, and the ordered one plain and transposed. -/
theorem awfillCompletes : Obligations.AwfillCompletes := by
  intro s x0 y0 x1 y1 hp
  refine ⟨fun xpose hinv => ⟨_, addressWindow_of_isEmpty ?_, unchangedExcept_latch rfl⟩, fun hx hy => ?_⟩
  · exact (Geometry.isEmpty_fill rfl).trans ((Bool.or_eq_true_iff).mpr (hinv.imp decide_eq_true decide_eq_true))
  · have hx0 := half_ofNat_toNat x0
    have hx1 := half_ofNat_toNat x1
    have hy0 := half_ofNat_toNat y0
    have hy1 := half_ofNat_toNat y1
    by_cases h : x1.toNat ≤ s.cfg.devWidth - 1 ∧ y1.toNat ≤ s.cfg.devHeight - 1
    · rw [if_pos h]
      refine ⟨⟨_, addressWindow_of_inExtent (Geometry.isEmpty_fill_of_ordered rfl hx hy)
        ((Geometry.inExtent_fill_iff hp rfl hx hy).mpr h) (Geometry.ranges_fill _ _ rfl (hasTP_flagIf _)), ?_⟩,
        ⟨_, addressWindow_of_inExtent (Geometry.isEmpty_fill_of_ordered rfl hx hy)
        ((Geometry.inExtent_fill_iff hp rfl hx hy).mpr h)
        (Geometry.ranges_fill_transposed _ _ rfl (hasTP_flagIf _)), ?_⟩⟩
      · exact ⟨hx0, hx1, hy0, hy1, rfl, rfl, rfl, ⟨rfl, rfl, rfl, rfl⟩, rfl, rfl, unchangedExcept_accept_setWindow⟩
      · exact ⟨hy0, hy1, hx0, hx1, rfl, rfl, rfl, ⟨rfl, rfl, rfl, rfl⟩, rfl, rfl, unchangedExcept_accept_setWindow⟩
    · rw [if_neg h]
      exact fun xpose => addressWindow_of_not_inExtent (Geometry.isEmpty_fill_of_ordered rfl hx hy)
        (mt (Geometry.inExtent_fill_iff hp rfl hx hy).mp h)

/-! ### The windows the engine computes (R141, R146, R147, R150, R151) -/

theorem windowOf_window_inExtent {p : Params} {ob : Byte} {g : Geometry} {w : Window} (hp : p.wf = true)
    (h : windowOf p ob g = .window w) : OneOverride w.ovr ∧ w.InExtent p := by
  obtain ⟨hne, hin, rfl⟩ := windowOf_eq_window h
  exact ⟨Geometry.ranges_oneOverride p ob g, Geometry.ranges_inExtent ob hp hne hin⟩

/-- Settles O30: a window is computed only for a request in extent. -/
theorem windowsInExtent : Obligations.WindowsInExtent := fun _ _ _ _ => windowOf_window_inExtent

/-- The override and the orientation byte of a window belong together (R146, R147). -/
theorem Geometry.ranges_orient (p : Params) (ob : Byte) (g : Geometry) :
    ((g.ranges p ob).ovr = 0 ∧ (g.ranges p ob).orient = ob) ∨
    ((g.ranges p ob).ovr = flagRH ∧ (g.ranges p ob).orient = orientReverseH ob) ∨
    ((g.ranges p ob).ovr = flagRV ∧ (g.ranges p ob).orient = orientReverseV ob) ∨
    ((g.ranges p ob).ovr = flagTP ∧ (g.ranges p ob).orient = orientTranspose p ob) := by
  unfold Geometry.ranges
  cases g.kind with
  | pixel => exact .inl ⟨rfl, rfl⟩
  | hline =>
    dsimp only
    split
    · exact .inr (.inl ⟨rfl, rfl⟩)
    · exact .inl ⟨rfl, rfl⟩
  | vline =>
    dsimp only
    split
    · exact .inr (.inr (.inl ⟨rfl, rfl⟩))
    · exact .inl ⟨rfl, rfl⟩
  | fill =>
    dsimp only
    split
    · exact .inr (.inr (.inr ⟨rfl, rfl⟩))
    · exact .inl ⟨rfl, rfl⟩

/-- Bit 6, MX, is the one a horizontal reversal toggles. -/
theorem orientReverseH_mask_bit : ∀ k < 8, (0x40 : Byte).getLsbD k = decide (k = 6) := by decide

/-- Bit 7, MY, is the one a vertical reversal toggles. -/
theorem orientReverseV_mask_bit : ∀ k < 8, (0x80 : Byte).getLsbD k = decide (k = 7) := by decide

theorem orientReverseH_bit (ob : Byte) {k : Nat} (hk : k < 8) :
    (orientReverseH ob).getLsbD k = (ob.getLsbD k ^^ decide (k = 6)) := by
  rw [orientReverseH, BitVec.getLsbD_xor, orientReverseH_mask_bit k hk]

theorem orientReverseV_bit (ob : Byte) {k : Nat} (hk : k < 8) :
    (orientReverseV ob).getLsbD k = (ob.getLsbD k ^^ decide (k = 7)) := by
  rw [orientReverseV, BitVec.getLsbD_xor, orientReverseV_mask_bit k hk]

/-- The masks of a transposition: MV, and with `XPOSE_FORCE_MIRROR` MX and MY too. -/
theorem orientTranspose_mask_bit : ∀ k < 8,
    (0xE0 : Byte).getLsbD k = decide (5 ≤ k) ∧ (0x20 : Byte).getLsbD k = decide (k = 5) := by decide

theorem orientTranspose_bit (p : Params) (ob : Byte) {k : Nat} (hk : k < 8) :
    (orientTranspose p ob).getLsbD k = (ob.getLsbD k || decide (k = 5) || p.xposeForceMirror && decide (5 ≤ k)) := by
  obtain ⟨hforced, hplain⟩ := orientTranspose_mask_bit k hk
  unfold orientTranspose
  split_ifs with h
  · rw [BitVec.getLsbD_or, hforced, h, Bool.true_and, Bool.or_assoc]
    congr 1
    by_cases h5 : k = 5 <;> simp [h5]
  · rw [BitVec.getLsbD_or, hplain, Bool.eq_false_of_not_eq_true h, Bool.false_and, Bool.or_false]

/-- Settles O31: each override with its orientation byte, bit by bit. -/
theorem orientationBits : Obligations.OrientationBits := by
  intro p ob g w hw
  obtain ⟨-, -, rfl⟩ := windowOf_eq_window hw
  rcases g.ranges_orient p ob with ⟨hovr, horient⟩ | ⟨hovr, horient⟩ | ⟨hovr, horient⟩ | ⟨hovr, horient⟩
  · rw [hovr, horient]
    exact ⟨fun _ _ => rfl, fun _ => rfl, fun h => absurd h (by decide), fun h => absurd h (by decide),
      fun h => absurd h (by decide)⟩
  · rw [hovr, horient]
    have hbit := fun k => orientReverseH_bit ob (k := k)
    refine ⟨fun k hk => ?_, fun h => absurd h (by decide), fun _ => ?_, fun h => absurd h (by decide),
      fun h => absurd h (by decide)⟩
    · simp [hbit k (by omega), show k ≠ 6 by omega]
    · rw [hbit 5 (by decide), hbit 6 (by decide), hbit 7 (by decide)]
      simp
  · rw [hovr, horient]
    have hbit := fun k => orientReverseV_bit ob (k := k)
    refine ⟨fun k hk => ?_, fun h => absurd h (by decide), fun h => absurd h (by decide), fun _ => ?_,
      fun h => absurd h (by decide)⟩
    · simp [hbit k (by omega), show k ≠ 7 by omega]
    · rw [hbit 5 (by decide), hbit 6 (by decide), hbit 7 (by decide)]
      simp
  · rw [hovr, horient]
    have hbit := fun k => orientTranspose_bit p ob (k := k)
    refine ⟨fun k hk => ?_, fun h => absurd h (by decide), fun h => absurd h (by decide),
      fun h => absurd h (by decide), fun _ => ?_⟩
    · simp [hbit k (by omega), show k ≠ 5 by omega, show ¬ 5 ≤ k by omega]
    · rw [hbit 5 (by decide), hbit 6 (by decide), hbit 7 (by decide)]
      simp [Bool.or_comm]

/-! ### The length of a draw request (45_stream_emitter.md R162) -/

/-- Settles O33: the length kind by kind; it is that of the window, so at most the device's. -/
theorem requestedLength : Obligations.RequestedLength := by
  intro x0 y0 c d base l o flag
  refine ⟨rfl, rfl, rfl, rfl, fun p i r _ hp => ⟨?_, fun hin => ?_⟩⟩
  · exact Nat.lt_one_iff.trans r.geometry.isEmpty_iff_npix.symm
  · have hle : r.npix ≤ p.devWidth * p.devHeight := Geometry.npix_le hp hin
    exact ⟨hle, hle.trans_lt (Params.wf_area hp)⟩

end Sys2Proof.Machine
end

section
/-! SUPPORT. The host's side of the engine: reset (70_reset_and_hazards.md), the host's store (20_memory.md R61), what
the host reads (10_state.md R27 to R30), and the six packets presented alone (log 3). -/

namespace Sys2Proof.Machine

/-! ### Reset (R210, R211, R219) -/

/-- Where no request has written anything since reset, only `FMT` holds a value (log 13). -/
theorem holdsValue_of_unwritten {s : State} {r : HostReg}
    (h : s.written = { stream := false, win := false, resB := false, resRun := false, resO := false })
    (hr : r ≠ .fmt) : s.holdsValue r = false := by
  cases r with
  | fmt => exact absurd rfl hr
  | _ => simp [State.holdsValue, h]

/-- Settles O1: the registers of 10_state.md R39, what the host reads in them, and the wait for the first request. -/
theorem resetState : Obligations.ResetState := by
  intro p
  refine ⟨rfl, rfl, rfl, rfl, rfl, rfl, freeBytes_length .., hostRead_held rfl rfl, fun r hr => ?_, ?_⟩
  · exact ⟨_, hostRead_unspecified rfl (holdsValue_of_unwritten rfl hr), unspecifiedValue_lt ..⟩
  · exact (step_of_no_input rfl).trans (phaseStep_idle rfl)

theorem step_of_reset {s : State} {d : Byte} {rest : List Input} (h : s.inbox = .reset d :: rest) :
    step s = .next (resetEngine d { s with inbox := rest }) := by
  simp [step, runInput, h]

/-- Settles O2: a reset leaves the registers of reset, and the memory, the trace and the further inputs. -/
theorem resetInput : Obligations.ResetInput := by
  intro s d rest h
  exact ⟨_, step_of_reset h, rfl, rfl, rfl, rfl, rfl, rfl, fun _ => rfl, rfl, freeBytes_length ..,
    hostRead_held rfl rfl, rfl, fun r hr => hostRead_unspecified rfl (holdsValue_of_unwritten rfl hr)⟩

/-- Settles O3: reset fills the staging buffer, and leaves memory, trace and results with nothing in them. -/
theorem resetInv : Obligations.ResetInv := fun _ hp =>
  { params := hp
    idle := rfl
    reverted := rfl
    memory := rfl
    orient := rfl
    stage := freeBytes_length ..
    bracketed := rfl
    window := nofun
    remain := nofun
    resN := nofun }

/-! ### The host's store (R61, log 10) -/

theorem step_of_store {s : State} {addr : Nat} {bytes : List Byte} {rest : List Input}
    (h : s.inbox = .store addr bytes :: rest) : step s = hostStore addr bytes { s with inbox := rest } := by
  simp [step, runInput, h]

theorem hostStore_of_busy {s : State} (addr : Nat) (bytes : List Byte) (h : s.phase ≠ .idle) :
    hostStore addr bytes s = .refused .storeDuringDraw := if_pos h

theorem hostStore_past_limit {s : State} {addr : Nat} {bytes : List Byte} (hidle : s.phase = .idle)
    (h : addressLimit < addr + bytes.length) :
    hostStore addr bytes s = .fault (.noSuchAddress (max addr addressLimit)) := by
  rw [hostStore, if_neg (not_not.mpr hidle), if_pos h]

/-- The frame of a store: the host writes the memory, and its input is taken from the inbox. -/
theorem unchangedExcept_store {s t : State} (h : t = { s with mem := t.mem, inbox := t.inbox }) :
    UnchangedExcept [.memory, .inbox] s t := by
  apply UnchangedExcept.intro
  intro p
  cases p with
  | memory | inbox => exact .inl (by simp)
  | _ => exact .inr (by rw [h]; simp [Part.Unchanged])

/-- Settles O14: the store inside the address space, past it, and during a draw. -/
theorem hostStore_of_input : Obligations.HostStore := by
  intro s addr bytes rest hin
  rw [step_of_store hin]
  refine ⟨fun hidle hroom => ?_, fun hidle hover => ?_, fun hbusy => hostStore_of_busy _ _ hbusy⟩
  · exact ⟨_, hostStore_of_idle (s := { s with inbox := rest }) hidle hroom, Memory.readBytes_writeBytes ..,
      fun a ha => Memory.read_writeBytes_other _ _ ha, rfl, unchangedExcept_store rfl⟩
  · exact ⟨_, Nat.le_max_right .., hostStore_past_limit (s := { s with inbox := rest }) hidle hover⟩

/-! ### What the host reads (R27 to R30, R223) -/

/-- After a request that leaves `PHASE` alone, a register that holds a value reads as it. -/
theorem hostRead_after {s t : State} {parts : List Part} {r : HostReg} (hidle : s.phase = .idle)
    (hframe : UnchangedExcept parts s t) (hphase : .phase ∉ parts) (hr : t.holdsValue r = true) :
    hostRead r t = .ok (t.regValue r) :=
  hostRead_held (Eq.trans (hframe .phase hphase) hidle) hr

theorem readsWindow_of_written {t : State} (hidle : t.phase = .idle) (hw : t.written.win = true) :
    ReadsWindow t t.win :=
  ⟨hostRead_held hidle hw, hostRead_held hidle hw, hostRead_held hidle hw, hostRead_held hidle hw,
    hostRead_held hidle hw, hostRead_held hidle hw⟩

/-- After SETFMT `FMT` reads as the code. -/
theorem hostRead_setfmt {s : State} {code : BitVec 2} (hidle : s.phase = .idle) (hcode : code = 1 ∨ code = 2) :
    ∃ t, exec (.setfmt code) s = .next t ∧ hostRead .fmt t = .ok code.toNat := by
  have henc : ∃ enc, encOfCode code = some enc ∧ (Fmt.ofEnc enc).code = code := by
    rcases hcode with rfl | rfl
    · exact ⟨.bits16, rfl, rfl⟩
    · exact ⟨.bits18, rfl, rfl⟩
  obtain ⟨enc, henc, hcode⟩ := henc
  obtain ⟨t, ht, hfmt, -, hframe⟩ := exec_setfmt_of_enc s henc
  refine ⟨t, ht, (hostRead_after hidle hframe (by decide) rfl).trans ?_⟩
  rw [State.regValue, hfmt, hcode]

theorem hostRead_curnorm {s : State} {l o : Word} (hidle : s.phase = .idle) (hl : l ≠ 0) :
    ∃ t, exec (.curnorm l o) s = .next t ∧ hostRead .resO t = .ok (o.toNat % l.toNat) := by
  obtain ⟨t, ht, hoff, hwritten, hframe⟩ := (curnormCompletes s l o).2 hl
  exact ⟨t, ht, (hostRead_after (r := .resO) hidle hframe (by decide) hwritten).trans (congrArg Except.ok hoff)⟩

theorem hostRead_currun {s : State} {l o remaining : Word} (hidle : s.phase = .idle) (hl : l ≠ 0) :
    ∃ t, exec (.currun l o remaining) s = .next t ∧
      hostRead .resRun t = .ok (cursorRunLength l.toNat (o.toNat % l.toNat) remaining.toNat) ∧
      hostRead .resO t = .ok (cursorRunNext l.toNat (o.toNat % l.toNat) remaining.toNat) := by
  obtain ⟨t, ht, hrun, hoff, hwrun, hwoff, hframe⟩ := (currunCompletes s l o remaining).2 hl
  exact ⟨t, ht, (hostRead_after (r := .resRun) hidle hframe (by decide) hwrun).trans (congrArg Except.ok hrun),
    (hostRead_after (r := .resO) hidle hframe (by decide) hwoff).trans (congrArg Except.ok hoff)⟩

/-- After ENCHSV every register reads as after ENCODE of the transform's colour (R113). -/
theorem hostRead_enchsv {s : State} (h : Half) (c v : Byte) (hf : s.fmt ≠ .unset) :
    ∃ t u, exec (.enchsv h c v) s = .next t ∧
      exec (.encode (Config.hsv2rgb h c v).r (Config.hsv2rgb h c v).g (Config.hsv2rgb h c v).b) s = .next u ∧
      ∀ reg, hostRead reg t = hostRead reg u := by
  obtain ⟨b0, b1, b2, n, -, hgo⟩ := encodeColour_of_set (Config.hsv2rgb h c v) hf
  refine ⟨_, _, hgo _ rfl, hgo _ rfl, fun reg => ?_⟩
  cases reg <;> rfl

theorem readsWindow_windowRequest {s : State} {i : Instr} {g : Geometry} {w : Window} (hidle : s.phase = .idle)
    (hi : windowRequestOf i = some g) (hw : windowOf s.cfg s.orientBase g = .window w) :
    ∃ t, exec i s = .next t ∧ ReadsWindow t w := by
  rcases exec_windowRequest_cases s hi with ⟨hnone, -⟩ | ⟨hnone, -⟩ | ⟨w', t, hw', ht, hshape⟩
  · cases hnone.symm.trans hw
  · cases hnone.symm.trans hw
  · obtain rfl := WindowResult.window.inj (hw'.symm.trans hw)
    rw [hshape] at ht
    exact ⟨_, ht, readsWindow_of_written hidle rfl⟩

/-- After a draw that streams the working registers and the window read as R179 says. -/
theorem hostRead_draw {s : State} {i : Instr} {r : DrawRequest} {bpp : Nat} (hp : s.cfg.wf = true) (ho : s.ovr = 0)
    (hi : drawRequestOf i = some r) (hs : r.Streams s bpp) :
    ∃ t, exec i s = .next t ∧ hostRead .npix t = .ok r.npix ∧ hostRead .remain t = .ok 0 ∧
      hostRead .curO t = .ok ((r.o.toNat + r.npix) % r.l.toNat) ∧ ReadsWindow t (r.window s.cfg s.orientBase) := by
  obtain ⟨t, bytes, ht, hdrawn⟩ := exec_draw_drawn hp ho hi hs
  have hread (reg : HostReg) := hostRead_held (r := reg) hdrawn.idle
  refine ⟨t, ht, (hread .npix hdrawn.streamWritten).trans (congrArg Except.ok hdrawn.npix),
    (hread .remain hdrawn.streamWritten).trans ?_,
    (hread .curO hdrawn.streamWritten).trans (congrArg Except.ok hdrawn.curO), ?_⟩
  · rw [State.regValue, hdrawn.remain]
    rfl
  · rw [← hdrawn.win]
    exact readsWindow_of_written hdrawn.idle hdrawn.winWritten

/-- Settles O15: each request's results as the host reads them, and the refusal during a draw. -/
theorem hostReadsResults : Obligations.HostReadsResults := by
  refine ⟨fun s reg => hostRead_idle reg, fun s code => hostRead_setfmt, fun s l o => hostRead_curnorm,
    fun s l o remaining => hostRead_currun, fun s r g b hidle hf => ?_, fun s r g b hidle hf => ?_,
    fun s h c v _ => hostRead_enchsv h c v, fun s i g w => readsWindow_windowRequest,
    fun s i r bpp => hostRead_draw, fun s reg => hostRead_busy reg⟩
  · exact ⟨_, _, _, encodeColour_fmt16 _ hf, rfl, hostRead_held hidle rfl, hostRead_held hidle rfl,
      hostRead_held hidle rfl, hostRead_held hidle rfl⟩
  · exact ⟨_, encodeColour_fmt18 _ hf, hostRead_held hidle rfl, hostRead_held hidle rfl, hostRead_held hidle rfl,
      hostRead_held hidle rfl⟩

/-! ### Packets presented alone (30_encoding.md R91 to R95, log 3) -/

/-- The frame of an emission (10_state.md R36). -/
theorem unchangedExcept_emit (s : State) (es : List Event) : UnchangedExcept [.trace] s (s.emit es) := by
  apply UnchangedExcept.intro
  intro p
  cases p with
  | trace => exact .inl (by simp)
  | _ => exact .inr (by simp [Part.Unchanged])

theorem hi_eq_extractLsb (v : Half) : hi v = v.extractLsb 15 8 := by
  apply BitVec.eq_of_getLsbD_eq
  intro k hk
  simp [hi, hk]

theorem lo_eq_extractLsb (v : Half) : lo v = v.extractLsb 7 0 := by
  apply BitVec.eq_of_getLsbD_eq
  intro k hk
  simp [lo, hk]

/-- A range packet's bracket, byte by byte (R91). -/
theorem packet_range (c : Byte) (a b : Half) :
    packet c (be16 a ++ be16 b) = [.sel, .cmd c, .dat (a.extractLsb 15 8), .dat (a.extractLsb 7 0),
      .dat (b.extractLsb 15 8), .dat (b.extractLsb 7 0), .desel] := by
  simp only [be16, hi_eq_extractLsb, lo_eq_extractLsb]
  rfl

/-- Settles O48: each of the two is one emission. -/
theorem rangePacketsComplete : Obligations.RangePacketsComplete := by
  intro s a b
  exact ⟨⟨_, rfl, unchangedExcept_emit _ _, congrArg (s.trace ++ ·) (packet_range ..)⟩,
    ⟨_, rfl, unchangedExcept_emit _ _, congrArg (s.trace ++ ·) (packet_range ..)⟩⟩

/-- Settles O49: each of the four is one emission. -/
theorem controlPacketsComplete : Obligations.ControlPacketsComplete := fun _ =>
  ⟨fun _ => ⟨_, rfl, unchangedExcept_emit _ _, rfl⟩, ⟨_, rfl, unchangedExcept_emit _ _, rfl⟩,
    ⟨_, rfl, unchangedExcept_emit _ _, rfl⟩, ⟨_, rfl, unchangedExcept_emit _ _, rfl⟩⟩

/-- Settles O50: a burst with bytes in it is one emission. -/
theorem dataPacketCompletes : Obligations.DataPacketCompletes := fun _ _ =>
  ⟨fun hb => ⟨_, if_neg hb, unchangedExcept_emit _ _, rfl⟩, fun hb => if_pos hb⟩

end Sys2Proof.Machine
end

section
/-! SUPPORT. What every instruction may write (10_state.md R30), that only the draws look at memory (20_memory.md R55),
and what each stop says (60_exceptions.md R191, R193). -/

namespace Sys2Proof.Machine

/-! ### What a draw writes, in any state -/

/-- The state `t` differs from `s` at most in what the streaming step of a draw writes. -/
def StreamsOnly (s t : State) : Prop :=
  ∃ trace mem stage draws remain curO, t = { s with trace, mem, stage, draws, remain, curO }

theorem StreamsOnly.refl (s : State) : StreamsOnly s s := ⟨_, _, _, _, _, _, rfl⟩

theorem StreamsOnly.trans {s t u : State} (hst : StreamsOnly s t) (htu : StreamsOnly t u) : StreamsOnly s u := by
  obtain ⟨_, _, _, _, _, _, rfl⟩ := hst
  obtain ⟨_, _, _, _, _, _, rfl⟩ := htu
  exact ⟨_, _, _, _, _, _, rfl⟩

theorem transferStage_streamsOnly (s : State) (n : Nat) : StreamsOnly s (s.transferStage n) := by
  unfold State.transferStage
  dsimp only
  split
  · exact ⟨_, _, _, _, _, _, rfl⟩
  · exact ⟨_, _, _, _, _, _, rfl⟩

theorem fastPath_streamsOnly {bpp : Nat} {s t : State} (h : fastPath bpp s = .next t) : StreamsOnly s t := by
  simp only [fastPath] at h
  split at h
  · cases h
  · rename_i px _
    obtain rfl := Host.Outcome.next.inj h
    have hfilled : StreamsOnly s { s with stage := stageFill s.stage (List.replicate s.npix.toNat px).flatten } :=
      ⟨_, _, _, _, _, _, rfl⟩
    exact (hfilled.trans (transferStage_streamsOnly _ _)).trans ⟨_, _, _, _, _, _, rfl⟩

theorem transferChunk_streamsOnly {bpp : Nat} {s t : State} (h : transferChunk bpp s = .next t) : StreamsOnly s t := by
  obtain ⟨bytes, -, rfl⟩ := transferChunk_eq_next h
  rw [transferSource_shape]
  exact ⟨_, _, _, _, _, _, rfl⟩

theorem generalPath_streamsOnly {bpp : Nat} {t : State} (fuel : Nat) {s : State}
    (h : generalPath bpp fuel s = .next t) : StreamsOnly s t := by
  induction fuel generalizing s with
  | zero =>
    obtain rfl := Host.Outcome.next.inj h
    exact .refl s
  | succ fuel ih =>
    rw [generalPath] at h
    split_ifs at h
    · obtain rfl := Host.Outcome.next.inj h
      exact .refl s
    · split at h
      · rename_i u hu
        exact (transferChunk_streamsOnly hu).trans (ih h)
      · cases h
      · cases h

theorem stream_streamsOnly {bpp : Nat} {s t : State} (h : stream bpp s = .next t) : StreamsOnly s t := by
  unfold stream at h
  split_ifs at h
  · exact fastPath_streamsOnly h
  · exact generalPath_streamsOnly _ h

/-- What a draw writes, the request being in the latch. -/
theorem draw_eq_next_shape {s t : State} (h : draw s = .next t) :
    t = { s with
      draws := t.draws, npix := t.npix, remain := t.remain, curO := t.curO, win := t.win
      phase := t.phase, ovr := t.ovr, trace := t.trace, mem := t.mem, stage := t.stage
      written := { s.written with stream := t.written.stream, win := t.written.win } } := by
  unfold draw at h
  split at h
  · obtain rfl := Host.Outcome.next.inj h
    rfl
  · cases h
  · unfold runDraw at h
    split at h
    · rename_i u hu
      obtain rfl := Host.Outcome.next.inj h
      rw [beginDraw_openBurst_any] at hu
      obtain ⟨_, _, _, _, _, _, rfl⟩ := stream_streamsOnly hu
      rw [closeBurst_eq]
    · cases h
    · cases h

/-- The frame of a draw request, in any state. -/
theorem exec_drawRequest_frame {i : Instr} {r : DrawRequest} {s t : State} (hi : drawRequestOf i = some r)
    (h : exec i s = .next t) :
    UnchangedExcept [.latch, .window, .stream, .ovr, .phase, .stage, .memory, .trace] s t := by
  obtain ⟨s0, hx, hs0, -⟩ := exec_drawRequest s hi
  apply unchangedExcept_draw
  rw [draw_eq_next_shape (hx.symm.trans h), hs0]

/-! ### The write table (10_state.md R30) -/

theorem UnchangedExcept.mono {parts parts' : List Part} {s t : State} (h : UnchangedExcept parts s t)
    (hsub : ∀ p ∈ parts, p ∈ parts') : UnchangedExcept parts' s t := fun p hp => h p (mt (hsub p) hp)

theorem exec_windowRequest_frame {i : Instr} {g : Geometry} {s t : State} (hi : windowRequestOf i = some g)
    (h : exec i s = .next t) : UnchangedExcept [.latch, .window] s t := by
  rcases exec_windowRequest_cases s hi with ⟨-, u, hu, hshape⟩ | ⟨-, hu⟩ | ⟨w, u, -, hu, hshape⟩
  · obtain rfl := Host.Outcome.next.inj (hu.symm.trans h)
    exact (unchangedExcept_latch hshape).mono (by simp)
  · cases hu.symm.trans h
  · obtain rfl := Host.Outcome.next.inj (hu.symm.trans h)
    apply UnchangedExcept.intro
    intro p
    cases p with
    | latch | window => exact .inl (by simp)
    | _ => exact .inr (by rw [hshape]; simp [Part.Unchanged])

/-- Settles O54: the frame of each of the twenty instructions. -/
theorem writesOnlyItsRow : Obligations.WritesOnlyItsRow := by
  intro i s t h
  cases i with
  | setfmt code =>
    cases hcode : encOfCode code with
    | none => cases (exec_setfmt_of_reserved s hcode).symm.trans h
    | some enc =>
      obtain ⟨u, hu, -, -, hframe⟩ := exec_setfmt_of_enc s hcode
      obtain rfl := Host.Outcome.next.inj (hu.symm.trans h)
      exact hframe
  | setxfer bulk =>
    obtain ⟨u, hu, -, hframe⟩ := exec_setxfer bulk s
    obtain rfl := Host.Outcome.next.inj (hu.symm.trans h)
    exact hframe
  | encode | enchsv =>
    obtain ⟨b0, b1, b2, n, rfl⟩ := encodeColour_eq_next h
    exact unchangedExcept_accept_putColour
  | curnorm l o =>
    by_cases hl : l = 0
    · cases ((curnormCompletes s l o).1 hl).symm.trans h
    · obtain ⟨u, hu, -, -, hframe⟩ := (curnormCompletes s l o).2 hl
      obtain rfl := Host.Outcome.next.inj (hu.symm.trans h)
      exact hframe
  | currun l o remaining =>
    by_cases hl : l = 0
    · cases ((currunCompletes s l o remaining).1 hl).symm.trans h
    · obtain ⟨u, hu, -, -, -, -, hframe⟩ := (currunCompletes s l o remaining).2 hl
      obtain rfl := Host.Outcome.next.inj (hu.symm.trans h)
      exact hframe
  | awpixel | awhline | awvline | awfill => exact exec_windowRequest_frame rfl h
  | drawpixel | drawhline | drawvline | drawfill => exact exec_drawRequest_frame rfl h
  | caset | paset | madctl | ramwr | pixset =>
    obtain rfl := Host.Outcome.next.inj h
    exact unchangedExcept_emit _ _
  | data bytes =>
    by_cases hb : bytes = []
    · cases ((dataPacketCompletes s bytes).2 hb).symm.trans h
    · obtain ⟨u, hu, hframe, -⟩ := (dataPacketCompletes s bytes).1 hb
      obtain rfl := Host.Outcome.next.inj (hu.symm.trans h)
      exact hframe

/-! ### Refusals (60_exceptions.md R191, R193) -/

theorem encOfCode_eq_none {code : BitVec 2} (h : encOfCode code = none) : (Instr.setfmt code).wf = false := by
  revert code
  decide

theorem Fmt.bpp_eq_none_iff {f : Fmt} : f.bpp = none ↔ f = .unset := by
  cases f <;> simp [Fmt.bpp]

theorem windowOf_eq_outOfExtent {p : Params} {ob : Byte} {g : Geometry} (h : windowOf p ob g = .outOfExtent) :
    g.isEmpty = false ∧ g.inExtent p = false := by
  unfold windowOf at h
  split_ifs at h with hempty hin
  exact ⟨Bool.eq_false_of_not_eq_true hempty, Bool.eq_false_of_not_eq_true hin⟩

/-- An AW request completes, or it is out of extent. -/
theorem exec_windowRequest_or_refused {i : Instr} {g : Geometry} (s : State) (hi : windowRequestOf i = some g) :
    (∃ t, exec i s = .next t) ∨ ∃ e, exec i s = .refused e ∧ RefusesOnlyWhen i s e := by
  rcases exec_windowRequest_cases s hi with ⟨-, t, ht, -⟩ | ⟨hout, hrefused⟩ | ⟨w, t, -, ht, -⟩
  · exact .inl ⟨t, ht⟩
  · exact .inr ⟨_, hrefused, .inr ⟨g, hi, windowOf_eq_outOfExtent hout⟩⟩
  · exact .inl ⟨t, ht⟩

/-- A colour is encoded, or no format is set. -/
theorem encodeColour_or_refused (c : RGB) (s : State) :
    (∃ t, encodeColour c s = .next t) ∨ s.fmt = .unset ∧ encodeColour c s = .refused .formatUnset := by
  by_cases hf : s.fmt = .unset
  · exact .inr ⟨hf, encodeColour_unset c hf⟩
  · obtain ⟨b0, b1, b2, n, -, hgo⟩ := encodeColour_of_set c hf
    exact .inl ⟨_, hgo s rfl⟩

/-- An instruction that is no draw completes, or it is refused for a reason of R193 (or log 3); it is never stuck. -/
theorem exec_or_refused {i : Instr} (s : State) (hi : drawRequestOf i = none) :
    (∃ t, exec i s = .next t) ∨ ∃ e, exec i s = .refused e ∧ RefusesOnlyWhen i s e := by
  cases i with
  | setfmt code =>
    cases hcode : encOfCode code with
    | none => exact .inr ⟨_, exec_setfmt_of_reserved s hcode, encOfCode_eq_none hcode, rfl⟩
    | some enc =>
      obtain ⟨t, ht, -⟩ := exec_setfmt_of_enc s hcode
      exact .inl ⟨t, ht⟩
  | encode r g b =>
    exact (encodeColour_or_refused _ _).imp_right fun ⟨hf, hrefused⟩ => ⟨_, hrefused, hf, .inl ⟨r, g, b, rfl⟩⟩
  | enchsv hue sat val =>
    exact (encodeColour_or_refused _ _).imp_right fun ⟨hf, hrefused⟩ =>
      ⟨_, hrefused, hf, .inr (.inl ⟨hue, sat, val, rfl⟩)⟩
  | curnorm l o =>
    by_cases hl : l = 0
    · exact .inr ⟨_, (curnormCompletes s l o).1 hl, .inl ⟨o, by rw [hl]⟩⟩
    · obtain ⟨t, ht, -⟩ := (curnormCompletes s l o).2 hl
      exact .inl ⟨t, ht⟩
  | currun l o remaining =>
    by_cases hl : l = 0
    · exact .inr ⟨_, (currunCompletes s l o remaining).1 hl, .inr ⟨o, remaining, by rw [hl]⟩⟩
    · obtain ⟨t, ht, -⟩ := (currunCompletes s l o remaining).2 hl
      exact .inl ⟨t, ht⟩
  | awpixel | awhline | awvline | awfill => exact exec_windowRequest_or_refused s rfl
  | drawpixel | drawhline | drawvline | drawfill => cases hi
  | setxfer | caset | paset | madctl | ramwr | pixset => exact .inl ⟨_, rfl⟩
  | data bytes =>
    by_cases hb : bytes = []
    · exact .inr ⟨_, (dataPacketCompletes s bytes).2 hb, by rw [hb]; rfl, rfl⟩
    · obtain ⟨t, ht, -⟩ := (dataPacketCompletes s bytes).1 hb
      exact .inl ⟨t, ht⟩

/-- A draw completes, or is refused by one of the four tests of 45_stream_emitter.md R163, or is stuck at an unreadable
byte (20_memory.md R52). -/
theorem exec_draw_or_stops {i : Instr} {r : DrawRequest} {s : State} (hp : s.cfg.wf = true)
    (hi : drawRequestOf i = some r) :
    (∃ t, exec i s = .next t) ∨ (∃ e, exec i s = .refused e ∧ RefusesOnlyWhen i s e) ∨
      ∃ a, exec i s = .fault (.unreadable a) ∧ Memory.read s.mem a = none := by
  by_cases hvoid : r.base = 0 ∨ r.l = 0 ∨ r.npix < 1
  · obtain ⟨t, ht, -⟩ := voidDrawIsNoop s i r hi hvoid
    exact .inl ⟨t, ht⟩
  · obtain ⟨hb, hl, hn⟩ := (not_or.trans (and_congr_right fun _ => not_or)).mp hvoid
    have hn1 := not_lt.mp hn
    obtain ⟨hunset, htests⟩ := drawRefusalOrder s i r hi hb hl hn1
    cases hbpp : s.fmt.bpp with
    | none =>
      have hf := Fmt.bpp_eq_none_iff.mp hbpp
      exact .inr (.inl ⟨_, hunset hf, hf, .inr (.inr ⟨r, hi, hb, hl, hn1⟩)⟩)
    | some bpp =>
      have hset : s.fmt ≠ .unset := mt Fmt.bpp_eq_none_iff.mpr (by rw [hbpp]; nofun)
      have hlimit : 0 < addressLimit := by decide
      obtain ⟨hout, hlimits⟩ := htests bpp hbpp
      by_cases hin : r.geometry.inExtent s.cfg = true
      · obtain ⟨hover, hlong⟩ := hlimits hin
        by_cases hspace : addressLimit ≤ r.base.toNat + r.l.toNat * bpp - 1
        · exact .inr (.inl ⟨_, hover hspace, r, bpp, hi, hbpp, by omega⟩)
        · by_cases hstage : r.l = 1 ∧ s.cfg.stageMaxPixels < r.npix
          · exact .inr (.inl ⟨_, hlong (not_le.mp hspace) hstage.1 hstage.2, r, hi, hstage⟩)
          · have hpass : r.Passes s bpp :=
              { present := hb, cycle := hl, pixels := hn1, format := hbpp, extent := hin, space := by omega
                staging := fun hsolid => not_lt.mp fun hmax => hstage ⟨hsolid, hmax⟩ }
            rcases exec_draw_or_stuck hp hi hpass with ⟨t, ht, -⟩ | ⟨a, ha, hnone, -⟩
            · exact .inl ⟨t, ht⟩
            · exact .inr (.inr ⟨a, ha, hnone⟩)
      · have hout' := Bool.eq_false_of_not_eq_true hin
        exact .inr (.inl ⟨_, hout hout', .inl ⟨r, hi, hout', hset, hb, hl, hn1⟩⟩)

/-- Settles O56: an instruction answers in one way, and each way of stopping says why. -/
theorem stopsOnlyAsListed : Obligations.StopsOnlyAsListed := by
  intro i s hp _
  cases hi : drawRequestOf i with
  | none =>
    rcases exec_or_refused s hi with ⟨t, ht⟩ | ⟨e, he, hwhy⟩
    · rw [ht]
      exact ⟨nofun, nofun⟩
    · rw [he]
      exact ⟨fun e' h => Host.Outcome.refused.inj h ▸ hwhy, nofun⟩
  | some r =>
    rcases exec_draw_or_stops hp hi with ⟨t, ht⟩ | ⟨e, he, hwhy⟩ | ⟨a, ha, hnone⟩
    · rw [ht]
      exact ⟨nofun, nofun⟩
    · rw [he]
      exact ⟨fun e' h => Host.Outcome.refused.inj h ▸ hwhy, nofun⟩
    · rw [ha]
      exact ⟨nofun, fun f h => ⟨r, a, rfl, (Host.Outcome.fault.inj h).symm, hnone⟩⟩

/-! ### Only the draws look at memory (20_memory.md R55) -/

/-- The same answer with another memory in the next state, if there is one. -/
def answerWithMemory (m : Memory) : Host.Outcome State Fault Refusal → Host.Outcome State Fault Refusal
  | .next t => .next { t with mem := m }
  | .fault f => .fault f
  | .refused r => .refused r

theorem encodeColour_withMemory (c : RGB) (s : State) (m : Memory) :
    encodeColour c { s with mem := m } = answerWithMemory m (encodeColour c s) := by
  cases hf : s.fmt <;> simp [encodeColour, hf, answerWithMemory]

theorem addressWindow_withMemory (s : State) (m : Memory) :
    addressWindow { s with mem := m } = answerWithMemory m (addressWindow s) := by
  cases hw : windowOf s.cfg s.orientBase s.latch.geometry <;>
    simp [addressWindow, hw, answerWithMemory, State.setWindow]

/-- An instruction that is no draw answers the same whatever the memory holds. -/
theorem exec_withMemory {i : Instr} (s : State) (m : Memory) (hi : drawRequestOf i = none) :
    exec i { s with mem := m } = answerWithMemory m (exec i s) := by
  cases i with
  | setfmt code => cases hcode : encOfCode code <;> simp only [exec, execSetfmt, hcode] <;> rfl
  | encode | enchsv => exact encodeColour_withMemory _ (s.accept _ _ _) m
  | curnorm l o =>
    by_cases hl : l = 0
    · simp only [exec, execCurnorm, if_pos hl, answerWithMemory]
    · simp only [exec, execCurnorm, if_neg hl]
      rfl
  | currun l o remaining =>
    by_cases hl : l = 0
    · simp only [exec, execCurrun, if_pos hl, answerWithMemory]
    · simp only [exec, execCurrun, if_neg hl]
      rfl
  | awpixel | awhline | awvline | awfill => exact addressWindow_withMemory (s.accept _ _ _) m
  | drawpixel | drawhline | drawvline | drawfill => cases hi
  | data bytes =>
    by_cases hb : bytes = []
    · simp only [exec, execData, if_pos hb, answerWithMemory]
    · simp only [exec, execData, if_neg hb]
      rfl
  | setxfer | caset | paset | madctl | ramwr | pixset => rfl

/-- An instruction that is no draw leaves memory as it is. -/
theorem exec_mem_of_not_draw {i : Instr} {s t : State} (hi : drawRequestOf i = none) (h : exec i s = .next t) :
    t.mem = s.mem := by
  have hsame : exec i s = answerWithMemory s.mem (exec i s) := exec_withMemory s s.mem hi
  rw [h] at hsame
  have hshape : t = { t with mem := s.mem } := Host.Outcome.next.inj hsame
  rw [hshape]

/-- Settles O55: what is answered with another memory is what was answered, with that memory in it. -/
theorem onlyDrawsAccessMemory : Obligations.OnlyDrawsAccessMemory := by
  intro i s m hi
  have hsame := exec_withMemory s m hi
  refine ⟨fun t h => ⟨exec_mem_of_not_draw hi h, ?_⟩, fun r h => ?_, fun f h => ?_⟩
  · rw [hsame, h, answerWithMemory]
  · rw [hsame, h, answerWithMemory]
  · rcases exec_or_refused s hi with ⟨t, ht⟩ | ⟨e, he, -⟩
    · cases ht.symm.trans h
    · cases he.symm.trans h

end Sys2Proof.Machine
end

section
/-! SUPPORT. The invariant of a request boundary (10_state.md parts 2 to 5 and 7): what each clause of it rests on, and
that every step keeps it. -/

namespace Sys2Proof.Machine

/-! ### Complete brackets (20_memory.md R63) -/

theorem brackets_isSome_append {t u : List Event} (ht : (brackets t).isSome = true) (hu : (brackets u).isSome = true) :
    (brackets (t ++ u)).isSome = true := by
  obtain ⟨bs, hbs⟩ := Option.isSome_iff_exists.mp ht
  obtain ⟨cs, hcs⟩ := Option.isSome_iff_exists.mp hu
  rw [brackets_append hbs hcs]
  rfl

theorem brackets_isSome_of_packets {p : Params} {t : List Event} {is : List Instr}
    (h : packetsOfTrace p t = some is) : (brackets t).isSome = true := by
  obtain ⟨bs, hbs, -⟩ := Option.bind_eq_some_iff.mp h
  rw [hbs]
  rfl

theorem brackets_packet_isSome (c : Byte) (payload : List Byte) : (brackets (packet c payload)).isSome = true := by
  rw [brackets_packet]
  rfl

/-- A packet presented alone appends one bracket (log 3). -/
theorem exec_packet_trace {i : Instr} {s t : State} (hreq : i.isRequest = false) (h : exec i s = .next t) :
    ∃ es, t.trace = s.trace ++ es ∧ (brackets es).isSome = true := by
  cases i with
  | caset | paset | madctl | ramwr | pixset =>
    obtain rfl := Host.Outcome.next.inj h
    exact ⟨_, rfl, brackets_packet_isSome ..⟩
  | data bytes =>
    by_cases hb : bytes = []
    · cases ((dataPacketCompletes s bytes).2 hb).symm.trans h
    · obtain ⟨u, hu, -, htrace⟩ := (dataPacketCompletes s bytes).1 hb
      obtain rfl := Host.Outcome.next.inj (hu.symm.trans h)
      exact ⟨burst bytes, htrace, by rw [brackets_burst]; rfl⟩
  | _ => cases hreq

/-- Every instruction leaves the trace a sequence of complete brackets. -/
theorem exec_keeps_brackets {i : Instr} {s t : State} (hs : s.Inv) (h : exec i s = .next t) :
    (brackets t.trace).isSome = true := by
  have hsent : ∃ es, t.trace = s.trace ++ es ∧ (brackets es).isSome = true := by
    cases hreq : i.isRequest with
    | false => exact exec_packet_trace hreq h
    | true =>
      obtain ⟨es, is, htrace, hes, -⟩ := packetsEmitted i s t hs.params hs.reverted hreq h
      exact ⟨es, htrace, brackets_isSome_of_packets hes⟩
  obtain ⟨es, htrace, hes⟩ := hsent
  rw [htrace]
  exact brackets_isSome_append hs.bracketed hes

/-! ### The result registers (10_state.md R29) -/

theorem encodeColour_resN {c : RGB} {s t : State} (h : encodeColour c s = .next t) : t.resN = 2 ∨ t.resN = 3 := by
  cases hf : s.fmt with
  | unset => cases (encodeColour_unset c hf).symm.trans h
  | fmt16 =>
    obtain rfl := Host.Outcome.next.inj ((encodeColour_fmt16 c hf).symm.trans h)
    exact .inl rfl
  | fmt18 =>
    obtain rfl := Host.Outcome.next.inj ((encodeColour_fmt18 c hf).symm.trans h)
    exact .inr rfl

/-- `RES_N` is written by ENCODE and ENCHSV alone. -/
theorem exec_colour_cases {i : Instr} {s t : State} (h : exec i s = .next t) :
    Part.colour.Unchanged s t ∨ t.resN = 2 ∨ t.resN = 3 := by
  have hframe := writesOnlyItsRow i s t h
  cases i with
  | encode | enchsv => exact .inr (encodeColour_resN h)
  | _ => exact .inl (hframe .colour (by simp [mayWrite]))

theorem exec_keeps_resN {i : Instr} {s t : State} (hs : s.Inv) (h : exec i s = .next t)
    (hw : t.written.resB = true) : t.resN = 2 ∨ t.resN = 3 := by
  rcases exec_colour_cases h with ⟨-, -, -, hn, hwritten⟩ | hn
  · rw [hn]
    exact hs.resN (hwritten ▸ hw)
  · exact hn

/-! ### The window, the stream, the staging buffer and the memory -/

/-- The clauses of the invariant that a draw keeps by what it writes and the other instructions by what they leave. -/
structure State.BuffersInv (p : Params) (t : State) : Prop where
  memory : Memory.wf t.mem = true
  stage : t.stage.length = p.stageSize
  window : t.written.win = true → OneOverride t.win.ovr ∧ t.win.InExtent p
  remain : t.written.stream = true → t.remain = 0

/-- Outside the AW requests and the draws nothing writes the window registers. -/
theorem window_notMem_mayWrite {i : Instr} (hw : windowRequestOf i = none) (hd : drawRequestOf i = none) :
    .window ∉ mayWrite i := by
  cases i with
  | awpixel | awhline | awvline | awfill => cases hw
  | drawpixel | drawhline | drawvline | drawfill => cases hd
  | _ => simp [mayWrite]

/-- Outside the draws nothing writes the staging buffer or the stream registers. -/
theorem buffers_notMem_mayWrite {i : Instr} (hd : drawRequestOf i = none) :
    .stage ∉ mayWrite i ∧ .stream ∉ mayWrite i := by
  cases i with
  | drawpixel | drawhline | drawvline | drawfill => cases hd
  | _ => simp [mayWrite]

/-- An AW request that completes leaves the window registers, or writes a window in extent to them. -/
theorem exec_windowRequest_window {i : Instr} {g : Geometry} {s t : State} (hp : s.cfg.wf = true)
    (hi : windowRequestOf i = some g) (h : exec i s = .next t) :
    Part.window.Unchanged s t ∨ OneOverride t.win.ovr ∧ t.win.InExtent s.cfg := by
  rcases exec_windowRequest_cases s hi with ⟨-, u, hu, hshape⟩ | ⟨-, hu⟩ | ⟨w, u, hw, hu, hshape⟩
  · obtain rfl := Host.Outcome.next.inj (hu.symm.trans h)
    exact .inl (unchangedExcept_latch hshape .window (by decide))
  · cases hu.symm.trans h
  · obtain rfl := Host.Outcome.next.inj (hu.symm.trans h)
    rw [hshape]
    exact .inr (windowOf_window_inExtent hp hw)

theorem exec_keeps_buffers_of_not_draw {i : Instr} {s t : State} (hs : s.Inv) (hi : drawRequestOf i = none)
    (h : exec i s = .next t) : t.BuffersInv s.cfg := by
  have hframe := writesOnlyItsRow i s t h
  obtain ⟨hstage, hstream⟩ := buffers_notMem_mayWrite hi
  have hwindow : Part.window.Unchanged s t ∨ OneOverride t.win.ovr ∧ t.win.InExtent s.cfg := by
    cases hw : windowRequestOf i with
    | none => exact .inl (hframe .window (window_notMem_mayWrite hw hi))
    | some g => exact exec_windowRequest_window hs.params hw h
  exact
    { memory := by
        rw [exec_mem_of_not_draw hi h]
        exact hs.memory
      stage := (congrArg List.length (hframe .stage hstage)).trans hs.stage
      window := fun hw => by
        rcases hwindow with ⟨hwin, hwritten⟩ | hext
        · rw [hwin]
          exact hs.window (hwritten ▸ hw)
        · exact hext
      remain := fun hw => by
        obtain ⟨-, hremain, -, hwritten⟩ := hframe .stream hstream
        exact hremain.trans (hs.remain (hwritten ▸ hw)) }

/-- A draw that passes its tests has its window in the device's extent. -/
theorem DrawRequest.Passes.window_inExtent {r : DrawRequest} {s : State} {bpp : Nat} (h : r.Passes s bpp)
    (hp : s.cfg.wf = true) :
    OneOverride (r.window s.cfg s.orientBase).ovr ∧ (r.window s.cfg s.orientBase).InExtent s.cfg :=
  windowOf_window_inExtent hp (windowOf_window s.orientBase h.pixels h.extent)

theorem exec_draw_keeps_buffers {i : Instr} {r : DrawRequest} {s t : State} (hs : s.Inv)
    (hi : drawRequestOf i = some r) (h : exec i s = .next t) : t.BuffersInv s.cfg := by
  obtain ⟨s0, hx, hs0, -, hgo, -, -, -, -, -, -, hb, hl, -⟩ := exec_drawRequest_check s hi
  have hcfg : s0.cfg = s.cfg := by rw [hs0]
  rcases draw_eq_next (hcfg ▸ hs.params) (by rw [hs0]; exact hs.reverted) (hx.symm.trans h) with
    ⟨-, rfl⟩ | ⟨bpp, n, w, s1, s2, bytes, hcheck, -, rfl, hmem1, hstage1, -, hadv⟩
  · rw [hs0]
    exact ⟨hs.memory, hs.stage, hs.window, hs.remain⟩
  · obtain ⟨hpass, rfl, rfl⟩ := hgo bpp n w hcheck
    rw [hb, hl] at hadv
    have hmem : s1.mem = s.mem := hmem1.trans (by rw [hs0])
    have hstage : s1.stage.length = s.cfg.stageSize :=
      (congrArg List.length (hstage1.trans (by rw [hs0]))).trans hs.stage
    exact
      { memory := hadv.wf (hmem ▸ hs.memory) hpass.space
        stage := by
          rw [freeBytes_length, hadv.stageLength, hstage]
          exact hpass.staged_length
        window := fun _ => hpass.window_inExtent hs.params
        remain := fun _ => rfl }

/-! ### Every step -/

/-- Every instruction keeps the invariant. -/
theorem exec_keeps_inv {i : Instr} {s t : State} (hs : s.Inv) (h : exec i s = .next t) : t.Inv := by
  obtain ⟨hcfg, horient⟩ := exec_cfg_orientBase hs.params hs.reverted h
  obtain ⟨hidle, hovr⟩ := boundaryInvariant.2 i s t hs.idle hs.reverted h
  have hbuffers : t.BuffersInv t.cfg := by
    rw [hcfg]
    cases hi : drawRequestOf i with
    | none => exact exec_keeps_buffers_of_not_draw hs hi h
    | some r => exact exec_draw_keeps_buffers hs hi h
  exact
    { params := hcfg ▸ hs.params
      idle := hidle
      reverted := hovr
      memory := hbuffers.memory
      orient := by rw [horient, hcfg, hs.orient]
      stage := hbuffers.stage
      bracketed := exec_keeps_brackets hs h
      window := hbuffers.window
      remain := hbuffers.remain
      resN := exec_keeps_resN hs h }

/-- The invariant says nothing of the inbox. -/
theorem State.Inv.with_inbox {s : State} (hs : s.Inv) (rest : List Input) : State.Inv { s with inbox := rest } :=
  ⟨hs.params, hs.idle, hs.reverted, hs.memory, hs.orient, hs.stage, hs.bracketed, hs.window, hs.remain, hs.resN⟩

/-- The host's store keeps the invariant: it stays inside the address space. -/
theorem hostStore_keeps_inv {s t : State} {addr : Nat} {bytes : List Byte} (hs : s.Inv)
    (h : hostStore addr bytes s = .next t) : t.Inv := by
  by_cases hroom : addr + bytes.length ≤ addressLimit
  · obtain rfl := Host.Outcome.next.inj ((hostStore_of_idle hs.idle hroom).symm.trans h)
    exact ⟨hs.params, hs.idle, hs.reverted, Memory.wf_writeBytes bytes hs.memory hroom, hs.orient, hs.stage,
      hs.bracketed, hs.window, hs.remain, hs.resN⟩
  · cases (hostStore_past_limit hs.idle (not_le.mp hroom)).symm.trans h

/-- A reset keeps the invariant: memory and trace are kept, all else is as after reset (log 11). -/
theorem resetEngine_keeps_inv {s : State} (d : Byte) (hs : s.Inv) : (resetEngine d s).Inv :=
  { params := hs.params
    idle := rfl
    reverted := rfl
    memory := hs.memory
    orient := rfl
    stage := freeBytes_length ..
    bracketed := hs.bracketed
    window := nofun
    remain := nofun
    resN := nofun }

/-- Settles O52: the wait, an instruction, a store and a reset each keep the invariant. -/
theorem stepKeepsInv : Obligations.StepKeepsInv := by
  intro s t hs h
  cases hin : s.inbox with
  | nil =>
    obtain rfl := Host.Outcome.next.inj (((step_of_no_input hin).trans (phaseStep_idle hs.idle)).symm.trans h)
    exact hs
  | cons input rest =>
    cases input with
    | present w =>
      cases hdec : decode s.cfg w with
      | error r => cases (step_of_decode_error hs.idle hin hdec).symm.trans h
      | ok i => exact exec_keeps_inv (hs.with_inbox rest) ((step_of_decode_ok hs.idle hin hdec).symm.trans h)
    | store addr bytes => exact hostStore_keeps_inv (hs.with_inbox rest) ((step_of_store hin).symm.trans h)
    | reset d =>
      obtain rfl := Host.Outcome.next.inj ((step_of_reset hin).symm.trans h)
      exact resetEngine_keeps_inv d (hs.with_inbox rest)

end Sys2Proof.Machine
end
